-- ==== Sys2Proof/Word.lean ====
section
/-! DEFINITION. The bit-vector types of the block: nibble, byte, u16 and the 32-bit word (spec/00_scope.md R10). -/

namespace Sys2Proof

/-- A symbol, or the low nibble of a transport byte (R10, R80). -/
abbrev Nibble := BitVec 4

/-- A byte: payload, parity, header and transport bytes (R10). -/
abbrev Byte := BitVec 8

/-- A `u16`: packet ids, packet sizes, total_packets (R10). -/
abbrev U16 := BitVec 16

/-- A 32-bit word: event words, `result`, STATUS and the diagnostic counters (R91, R39, R45, R41). -/
abbrev Word := BitVec 32

end Sys2Proof
end

