-- ==== Sys2Proof/Config.lean ====
section
/-! DEFINITION. The parameters an instantiation of the block fixes (spec/00_scope.md R8, R9).
The spec leaves every value OPEN and says that the model takes each as an argument. State carries them as one
read-only field (log 1), so every statement about a state is a statement about every instantiation. -/

namespace Sys2Proof

/-- The eight parameters of R8. Fixed at instantiation; no event changes them (R50). -/
structure Params where
  /-- `CHUNK_SIZE`: payload bytes per data Packet before FEC is added. -/
  chunkSize        : Nat
  /-- `INTER_SYMBOL_DELAY`: least CYCLE count from one transport write to the next. -/
  interSymbolDelay : Nat
  /-- `TIMEOUT`: CYCLE count without a decoded frame, while waiting, before the enquiry is resent. -/
  timeout          : Nat
  /-- `STROBE_EN`: each symbol is sent as two writes. -/
  strobeEn         : Bool
  /-- `RXBUF_CAP`: capacity of the raw receive buffer, in symbols. -/
  rxbufCap         : Nat
  /-- `TXQ_CAP`: capacity of the transmit symbol queue, in symbols. -/
  txqCap           : Nat
  /-- `MAX_PACKETS_RX`: number of completion-table slots. -/
  maxPacketsRx     : Nat
  /-- `PAYLOAD_MAX`: largest payload SEND accepts, in bytes. -/
  payloadMax       : Nat
  deriving DecidableEq, Repr

/-- DESIGN CHOICE (log 2): the instantiation that `State.reset` shows. The spec leaves every value open; the
first four are the default parameters of spec/95_test_vectors.md, and the capacities are large, as that file asks.
No statement of the package rests on these values. -/
def Config.atReset : Params where
  chunkSize        := 60
  interSymbolDelay := 1
  timeout          := 100
  strobeEn         := false
  rxbufCap         := 33554432
  txqCap           := 33554432
  maxPacketsRx     := 65534
  payloadMax       := 3932040

end Sys2Proof
end

