-- ==== Sys2Proof/Syntax.lean ====
section
/-! DEFINITION. The events the block takes: the instruction type, one constructor per row of spec/opcode_table.json
(spec/30_encoding.md R98), the raw event offered at the interface (R91, R99), and the pseudo-events (R105). -/

namespace Sys2Proof

/-- An event with its operand fields taken out of the word (R92 to R95, R99). -/
inductive Instr where
  /-- NOP, code 0x00 (R230). -/
  | nop
  /-- CYCLE, code 0x01: TXR, RXV and RXB (R92, R231). -/
  | cycle (txr rxv : Bool) (rxb : Byte)
  /-- SEND, code 0x02, with its out-of-band payload (R99, R235). -/
  | send (payload : List Byte)
  /-- RESET, code 0x03 (R236). -/
  | reset
  /-- ENC_BYTE, code 0x10: BYTE, CTRL and CLK (R93, R125). -/
  | encByte (byte : Byte) (ctrl clk : Bool)
  /-- DEC_TRIPLET, code 0x11: S0, S1 and S2 (R94, R126). -/
  | decTriplet (s0 s1 s2 : Nibble)
  /-- STROBE_EXPAND, code 0x12: SYM and PREV (R95, R127). -/
  | strobeExpand (sym prev : Nibble)
  deriving DecidableEq, Repr

/-- What is offered to the block in one step: the 32-bit event word (R91) and the payload that SEND carries
beside it (R99). -/
structure Event where
  word    : Word
  payload : List Byte
  deriving DecidableEq, Repr

/-- A line of an event sequence: an event, or a pseudo-event that stands for several (R105). -/
inductive AsmLine where
  | event (i : Instr)
  /-- `IDLE n` -/
  | idle (n : Nat)
  /-- `RX v` -/
  | rx (v : Byte)
  /-- `FEED v1, ..., vk` -/
  | feed (vs : List Byte)
  /-- `STALL n` -/
  | stall (n : Nat)
  deriving DecidableEq, Repr

end Sys2Proof
end

