-- ==== Sys2Proof/WellFormed.lean ====
section
/-! DEFINITION. What a well-formed instantiation, event and instruction are.
Every operand field of `Instr` has exactly the width the spec gives it, so the checks are on the raw event (code,
payload) and on the parameters. -/

namespace Sys2Proof

/-- `ceil(n / c)`, the number of chunks of `c` bytes that hold `n` bytes (R200). -/
def ceilDiv (n c : Nat) : Nat := (n + c - 1) / c

/-- The legal ranges of R8 and R9. An instantiation outside them is refused (R9, 93_implementation_defined.md I-7). -/
def Params.legal (p : Params) : Bool :=
  decide (1 ≤ p.chunkSize ∧ p.chunkSize ≤ 100) &&
  decide (1 ≤ p.interSymbolDelay) &&
  decide (1 ≤ p.timeout) &&
  decide (27 ≤ p.rxbufCap) &&
  decide (27 ≤ p.txqCap) &&
  decide (1 ≤ p.maxPacketsRx ∧ p.maxPacketsRx ≤ 65534) &&
  decide (ceilDiv p.payloadMax p.chunkSize ≤ 65534)

/-- The seven event codes that are not reserved (R96, R98). -/
def definedCodes : List Byte := [0x00, 0x01, 0x02, 0x03, 0x10, 0x11, 0x12]

/-- The operand bits of each defined event that are NOT reserved (R92 to R95, R97). -/
def operandMask (code : Byte) : BitVec 24 :=
  if code = 0x01 then 0x0003FF else
  if code = 0x10 then 0x0003FF else
  if code = 0x11 then 0x000FFF else
  if code = 0x12 then 0x0000FF else 0

/-- A well-formed event: its code is defined, its reserved operand bits are 0 ("Software should write them as 0",
R97), and only SEND carries a payload (R91, R99). -/
def Event.wf (e : Event) : Bool :=
  let code : Byte := e.word.extractLsb' 24 8
  decide (code ∈ definedCodes) &&
  decide (e.word.extractLsb' 0 24 &&& ~~~ operandMask code = 0) &&
  (decide (e.payload = []) || decide (code = 0x02))

/-- A well-formed instruction for an instantiation: the payload of a SEND has a length that R99 gives an event
(0 to PAYLOAD_MAX); every other operand has any value of its field. A longer payload is still an event: SEND rejects
it with `badcmd` (R235). -/
def Instr.wf (p : Params) : Instr → Bool
  | .nop | .cycle .. | .reset | .encByte .. | .decTriplet .. | .strobeExpand .. => true
  | .send payload => decide (payload.length ≤ p.payloadMax)

end Sys2Proof
end

