-- ==== Sys2Proof/Decode.lean ====
section
/-! DEFINITION. Decoding and encoding of event words (spec/30_encoding.md R91 to R99), and the host's view of the
decoder by table rows. -/

namespace Sys2Proof

/-- Why the decoder gives an event no meaning. -/
inductive DecodeError where
  /-- A reserved event code (R96). -/
  | reservedCode (code : Byte)
  deriving DecidableEq, Repr

/-- Bits 31:24 of the event word: the event code (R91). -/
def eventCode (w : Word) : Byte := w.extractLsb' 24 8

/-- R98: an event is told apart by bits 31:24 alone; the operand fields are those of R92 to R95, and every other
operand bit is ignored (R97). The payload is used by SEND alone (R99, log 12). -/
def decode (e : Event) : Except DecodeError Instr :=
  let w := e.word
  let code := eventCode w
  if code = 0x00 then .ok .nop
  else if code = 0x01 then .ok (.cycle (w.getLsbD 9) (w.getLsbD 8) (w.extractLsb' 0 8))
  else if code = 0x02 then .ok (.send e.payload)
  else if code = 0x03 then .ok .reset
  else if code = 0x10 then .ok (.encByte (w.extractLsb' 0 8) (w.getLsbD 8) (w.getLsbD 9))
  else if code = 0x11 then
    .ok (.decTriplet (w.extractLsb' 8 4) (w.extractLsb' 4 4) (w.extractLsb' 0 4))
  else if code = 0x12 then .ok (.strobeExpand (w.extractLsb' 0 4) (w.extractLsb' 4 4))
  else .error (.reservedCode code)

/-- The event word of an instruction, reserved operand bits 0 (R91 to R98). -/
def encodeWord : Instr → Word
  | .nop => 0x00#8 ++ 0#24
  | .cycle txr rxv rxb => 0x01#8 ++ 0#14 ++ BitVec.ofBool txr ++ BitVec.ofBool rxv ++ rxb
  | .send _ => 0x02#8 ++ 0#24
  | .reset => 0x03#8 ++ 0#24
  | .encByte byte ctrl clk => 0x10#8 ++ 0#14 ++ BitVec.ofBool clk ++ BitVec.ofBool ctrl ++ byte
  | .decTriplet s0 s1 s2 => 0x11#8 ++ 0#12 ++ s0 ++ s1 ++ s2
  | .strobeExpand sym prev => 0x12#8 ++ 0#16 ++ prev ++ sym

/-- The event that offers an instruction: its word, and SEND's payload (R99). -/
def encode (i : Instr) : Event where
  word := encodeWord i
  payload := match i with
    | .send payload => payload
    | .nop | .cycle .. | .reset | .encByte .. | .decTriplet .. | .strobeExpand .. => []

/-- The event whose word has the low `nbits` bits of `w` and zeros above them, with an empty payload. -/
def tableEvent (nbits w : Nat) : Event where
  word := BitVec.ofNat 32 (w % 2 ^ nbits)
  payload := []

/-- What the decoder reads from a word numbered as spec/opcode_table.json numbers it (log 13). -/
def decodeTableWord (nbits w : Nat) : Option Instr :=
  match decode (tableEvent nbits w) with
  | .ok i => some i
  | .error _ => none

/-- The expansion of the pseudo-events (R105). -/
def AsmLine.expand : AsmLine → List Instr
  | .event i => [i]
  | .idle n => List.replicate n (.cycle true false 0)
  | .rx v => [.cycle true true v]
  | .feed vs => vs.map (fun v => .cycle true true v)
  | .stall n => List.replicate n (.cycle false false 0)

end Sys2Proof
end

