-- ==== Sys2Proof/Machine/State.lean ====
section
/-! DEFINITION. The state record of the block (spec/10_state.md R22), the value types it holds, its reset value (R49),
and the reasons a step can stop. State is plain data. -/

namespace Sys2Proof.Machine

/-- A byte with its control flag, `(b, f)` of R11. -/
abbrev Pair := Byte × Bool

/-- The ARQ state (R30). -/
inductive ArqState where
  | normal
  | waitingForResponse
  deriving DecidableEq, Repr

/-- The FATAL causes 1 to 4 (R274), in that order. -/
inductive FatalCause where
  /-- 1: the first chunk of a recognized frame does not start with (SOT, 1). -/
  | headerAbsent
  /-- 2: a recovered Packet has id 0xFFFF. -/
  | reservedId
  /-- 3: a data frame opening a transfer declares total_packets 0xFFFF. -/
  | totalReserved
  /-- 4: a data frame opening a transfer declares more packets than the completion table has slots. -/
  | totalTooLarge
  deriving DecidableEq, Repr

/-- The frame-loss causes 1 to 3 (R40, R272), in that order. -/
inductive LossCause where
  /-- 1: receive buffer overflow. -/
  | overflow
  /-- 2: malformed Transmission header chunk. -/
  | headerLength
  /-- 3: Transmission header parity uncorrectable. -/
  | headerParity
  deriving DecidableEq, Repr

/-- A Packet (R46). -/
structure Packet where
  size    : U16
  id      : U16
  eccSize : Byte
  data    : List Byte
  ecc     : List Byte
  deriving DecidableEq, Repr

/-- A Transmission value (R47). It exists only inside one step. -/
structure Transmission where
  isEnquiry    : Bool
  totalPackets : U16
  hecc         : List Byte
  packets      : List Packet
  deriving DecidableEq, Repr

/-- The completion table (R33): the Filled slots, by slot number, in rising order. A slot that is not listed is
Empty (log 8). -/
abbrev Ctab := List (Nat × List Byte)

/-- The canonical form of a completion table: slot numbers strictly rising. -/
def Ctab.wf (t : Ctab) : Bool := decide (t.Pairwise (fun a b => a.1 < b.1))

/-- The ten diagnostic counters, 32 bits each (R41). -/
structure Diag where
  framesOk          : Word
  frameLosses       : Word
  pktsUnrecoverable : Word
  errorsCorrected   : Word
  pktsDiscarded     : Word
  enqSent           : Word
  enqResent         : Word
  repliesSent       : Word
  txDrops           : Word
  rxSymbols         : Word
  deriving DecidableEq, Repr

/-- Every counter 0 (R49). -/
def Diag.zero : Diag := ⟨0, 0, 0, 0, 0, 0, 0, 0, 0, 0⟩

/-- The records of a step's ordered output list (R106). -/
inductive Output where
  /-- A transport write. -/
  | write (b : Byte)
  /-- A reassembled payload handed to the sink. -/
  | payload (bytes : List Byte)
  /-- The FATAL notice. -/
  | halted (cause : FatalCause)
  deriving DecidableEq, Repr

/-- The reasons a step stops with a fault: there is none. The spec's one stopping condition, FATAL, keeps the state
readable and leaves RESET possible (R275 to R277), so it is a next state of the model (log 11). -/
inductive Fault where
  deriving DecidableEq, Repr

/-- The reasons a step is refused. -/
inductive Refusal where
  /-- Raised by an arm of `exec` whose instruction has no meaning yet. Safe. -/
  | notModelled (mnemonic : String)
  /-- Raised by `step` on an event with a reserved code while the block is not FATAL: "A model refuses it" (R96,
  I-1). Safe. -/
  | reservedCode (code : Byte)
  /-- Raised by `step` when the parameters lie outside the legal ranges: "An instantiation outside 1..100 is not a
  valid block; a model refuses it" (R9, I-7). Safe. -/
  | illegalParameters
  deriving DecidableEq, Repr

/-- The machine's state: the elements of R22, and the three fields of the model's own (`params`, `inbox`, `out`). -/
structure State where
  /-- The instantiation's parameters; no event changes them (R50, log 1). -/
  params      : Params
  /-- The clock bit the next encoded triplet starts with (R23). -/
  txClock     : Bool
  /-- Low nibble of the most recent transport write (R24). -/
  txLastWrite : Nibble
  /-- Second write of a strobe-expanded symbol, between its two write slots (R25). -/
  txPending   : Option Nibble
  /-- Encoded symbols waiting to be written, oldest first (R26). -/
  txq         : List Nibble
  /-- CYCLEs since the last transport write, saturating (R27). -/
  txCnt       : Nat
  /-- Clock bit of the last accepted receive symbol (R28). -/
  rxClock     : Bool
  /-- Accepted raw receive symbols, oldest first (R29). -/
  rxbuf       : List Nibble
  /-- R30. -/
  arqState    : ArqState
  /-- A receive transfer is open (R31). -/
  xferActive  : Bool
  /-- total_packets of the open transfer (R32). -/
  xferTotal   : U16
  /-- The completion table (R33). -/
  ctab        : Ctab
  /-- CYCLEs since the last decoded frame, saturating (R34). -/
  timer       : Nat
  /-- Packets of the last accepted SEND (R35). -/
  orig        : Option (List Packet)
  /-- Pairs of the last Enquiry issued (R36). -/
  enq         : Option (List Pair)
  /-- `none` while the block runs (value 0); otherwise the cause of FATAL (R37). -/
  fatalCause  : Option FatalCause
  /-- Sticky bad-command bit (R38). -/
  badcmd      : Bool
  /-- Result of the last direct codec command (R39). -/
  result      : Word
  /-- `none` is value 0: no loss since reset (R40). -/
  lastLoss    : Option LossCause
  /-- The diagnostic counters (R41). -/
  diag        : Diag
  /-- Events the environment has offered and the block has not taken, oldest first (log 3). -/
  inbox       : List Event
  /-- Outputs emitted so far, oldest first (R106, log 4). -/
  out         : List Output
  deriving DecidableEq, Repr

/-- Every element of R22 at its reset value (R49), for the given parameters, offered events and outputs already
emitted: reset changes none of those three (R50, log 5). -/
def State.resetWith (params : Params) (inbox : List Event) (out : List Output) : State where
  params      := params
  txClock     := true
  txLastWrite := 0
  txPending   := none
  txq         := []
  txCnt       := 0
  rxClock     := false
  rxbuf       := []
  arqState    := .normal
  xferActive  := false
  xferTotal   := 0
  ctab        := []
  timer       := 0
  orig        := none
  enq         := none
  fatalCause  := none
  badcmd      := false
  result      := 0
  lastLoss    := none
  diag        := Diag.zero
  inbox       := inbox
  out         := out

/-- The machine after power-on (R290), as an instance with the parameters of `Config.atReset` (log 2). -/
def State.reset : State := State.resetWith Config.atReset [] []

end Sys2Proof.Machine
end

