-- ==== Sys2Proof/Machine/Operands.lean ====
section
/-! DEFINITION. The field layouts: symbols and triplets, transport bytes, the control vocabulary, the wire header
fields, and the result words of the codec commands (spec/30_encoding.md R80 to R90, spec/40_codec.md R120 to R127). -/

namespace Sys2Proof.Machine

/-- Bit 3 of a symbol (R80). -/
def clockBit (v : Nibble) : Bool := v.getLsbD 3

/-- `{c, p}`: a symbol from its clock bit and its three payload bits (R80). -/
def symbolOf (c : Bool) (p : BitVec 3) : Nibble := BitVec.ofBool c ++ p

/-- The payload bits 2:0 of a symbol (R80). -/
def payloadBits (v : Nibble) : BitVec 3 := v.extractLsb' 0 3

/-- The byte written to the transport for a symbol: bits 7:4 are 0 (R81). -/
def txByte (v : Nibble) : Byte := 0#4 ++ v

/-- The symbol in a byte read from the transport: bits 3:0, the rest ignored (R81). -/
def rxSymbol (b : Byte) : Nibble := b.extractLsb' 0 4

/-- Three consecutive symbols, the first sent first (R82). -/
structure Triplet where
  s0 : Nibble
  s1 : Nibble
  s2 : Nibble
  deriving DecidableEq, Repr

/-- R120: the triplet of a byte and flag from clock state `c`, and the clock state after it. -/
def encodeByte (b : Byte) (f c : Bool) : Triplet × Bool :=
  (⟨symbolOf c (b.extractLsb' 5 3),
    symbolOf (!c) (b.extractLsb' 2 3),
    symbolOf c (b.extractLsb' 0 2 ++ BitVec.ofBool f)⟩, !c)

/-- R121: the byte and flag of a triplet. Every clock bit is ignored (R122). -/
def decodeTriplet (t : Triplet) : Pair :=
  (payloadBits t.s0 ++ payloadBits t.s1 ++ t.s2.extractLsb' 1 2, t.s2.getLsbD 0)

/-- R124: the two writes of a strobed symbol after the transport write `prev`. -/
def strobeExpand (sym prev : Nibble) : Nibble × Nibble :=
  (symbolOf (!clockBit prev) (payloadBits sym), sym)

/-- R128: the symbols of a list of pairs, the clock threaded through them, and the clock state after the last. -/
def encodeStream : List Pair → Bool → List Nibble × Bool
  | [], c => ([], c)
  | p :: ps, c =>
    let (t, c') := encodeByte p.1 p.2 c
    let (syms, c'') := encodeStream ps c'
    (t.s0 :: t.s1 :: t.s2 :: syms, c'')

/-- R125: `{0:19, c':1, s0:4, s1:4, s2:4}`. -/
def encByteResult (t : Triplet) (c' : Bool) : Word :=
  0#19 ++ BitVec.ofBool c' ++ t.s0 ++ t.s1 ++ t.s2

/-- R126: `{0:23, f:1, b:8}`. -/
def decTripletResult (p : Pair) : Word := 0#23 ++ BitVec.ofBool p.2 ++ p.1

/-- R127: `{0:24, w1:4, w2:4}`. -/
def strobeExpandResult (w : Nibble × Nibble) : Word := 0#24 ++ w.1 ++ w.2

/-- Start-Of-Header (R83). -/
def ctlSOH : Byte := 0x01
/-- Start-Of-Text (R83). -/
def ctlSOTX : Byte := 0x02
/-- End-Of-Text, never emitted (R83). -/
def ctlEOTX : Byte := 0x03
/-- End-Of-Transmission (R83). -/
def ctlEOT : Byte := 0x04
/-- Enquiry, never emitted (R83). -/
def ctlENQ : Byte := 0x05
/-- Acknowledge, never emitted (R83). -/
def ctlACK : Byte := 0x06
/-- Not-Acknowledge, never emitted (R83). -/
def ctlNAC : Byte := 0x15
/-- Start-Of-Transmission (R83). -/
def ctlSOT : Byte := 0x16

/-- R85: the SOT triplet in both clock phases. -/
def startPatterns : List (List Nibble) := [[0x0, 0xD, 0x5], [0x8, 0x5, 0xD]]

/-- R85: the EOT triplet in both clock phases. -/
def endPatterns : List (List Nibble) := [[0x0, 0x9, 0x1], [0x8, 0x1, 0x9]]

/-- Bits 15:8 of a `u16`. -/
def hiByte (v : U16) : Byte := v.extractLsb' 8 8

/-- Bits 7:0 of a `u16`. -/
def loByte (v : U16) : Byte := v.extractLsb' 0 8

/-- A `u16` from its high and its low byte. -/
def u16Of (hi lo : Byte) : U16 := hi ++ lo

/-- A big-endian `u16` field: most significant byte first (R63). -/
def bytesBE (v : U16) : List Byte := [hiByte v, loByte v]

/-- A little-endian `u16`, the form of a requested id in an Enquiry Packet (R64, R89). -/
def bytesLE (v : U16) : List Byte := [loByte v, hiByte v]

/-- The sentinel id and count 0xFFFF (R100, R101). -/
def sentinel16 : U16 := 0xFFFF

/-- R87: the five header bytes of a Packet. -/
def packetHeader (p : Packet) : List Byte := bytesBE p.size ++ bytesBE p.id ++ [p.eccSize]

/-- R86: the seven bytes of a Transmission header. -/
def transmissionHeader (t : Transmission) : List Byte :=
  (if t.isEnquiry then 0x01 else 0x00) :: (bytesBE t.totalPackets ++ t.hecc)

/-- A control byte, flag 1 (R84). -/
def ctl (b : Byte) : Pair := (b, true)

/-- Ordinary bytes, flag 0 (R84). -/
def plain (bs : List Byte) : List Pair := bs.map (fun b => (b, false))

end Sys2Proof.Machine
end

