-- ==== Sys2Proof/Machine/Flags.lean ====
section
/-! DEFINITION. The STATUS view and the numeric codes of the status fields (spec/10_state.md R37, R40, R45; R48: the
block has no other flags). -/

namespace Sys2Proof.Machine

/-- The cause code of FATAL, 0 while the block runs (R37, R274). -/
def fatalCode : Option FatalCause → BitVec 3
  | none => 0
  | some .headerAbsent => 1
  | some .reservedId => 2
  | some .totalReserved => 3
  | some .totalTooLarge => 4

/-- The cause code of the last frame loss, 0 when there was none (R40). -/
def lossCode : Option LossCause → BitVec 2
  | none => 0
  | some .overflow => 1
  | some .headerLength => 2
  | some .headerParity => 3

/-- R45: the 32-bit read-only STATUS view, most significant field first. -/
def State.status (s : State) : Word :=
  0#18
    ++ lossCode s.lastLoss
    ++ BitVec.ofBool s.txPending.isSome
    ++ BitVec.ofBool s.badcmd
    ++ BitVec.ofBool s.rxClock
    ++ BitVec.ofBool s.txClock
    ++ BitVec.ofBool s.enq.isSome
    ++ BitVec.ofBool s.orig.isSome
    ++ BitVec.ofBool s.xferActive
    ++ BitVec.ofBool (decide (s.arqState = .waitingForResponse))
    ++ fatalCode s.fatalCause
    ++ BitVec.ofBool s.fatalCause.isSome

end Sys2Proof.Machine
end

