-- ==== Sys2Proof/Machine/Ops.lean ====
section
/-! DEFINITION. The shared operations over the state: taking an event, outputs, entering and leaving FATAL, frame loss
and success, the completion table, the transmit queue. -/

namespace Sys2Proof.Machine

/-- Take the next offered event (R6, R73, log 3). -/
def takeEvent (s : State) : Option (Event × State) :=
  match s.inbox with
  | [] => none
  | e :: rest => some (e, { s with inbox := rest })

/-- Offer an event so that the next step takes it (log 3). -/
def offerEvent (e : Event) (s : State) : State := { s with inbox := e :: s.inbox }

/-- Append one record to the step's output list (R12, R106). -/
def emit (o : Output) (s : State) : State := { s with out := s.out ++ [o] }

/-- R275: entry into FATAL. The caller ends its event after it; what the event did before stays. -/
def raiseFatal (c : FatalCause) (s : State) : State :=
  emit (.halted c) { s with fatalCause := some c }

/-- R236, R277, R290: every element takes its reset value in one step, with no output. It is the only exit from
FATAL. The parameters, the events still offered and the outputs already emitted are no state of the block and stay
(log 5). -/
def resetBlock (s : State) : State := State.resetWith s.params s.inbox s.out

/-- R276: while FATAL, an event other than RESET has no effect. -/
def unlessFatal (s t : State) : Host.Outcome State Fault Refusal :=
  .next (if s.fatalCause.isSome then s else t)

/-- R96, R276: a reserved event code has no effect while FATAL; otherwise a model refuses it (log 6). -/
def reservedEvent (code : Byte) (s : State) : Host.Outcome State Fault Refusal :=
  if s.fatalCause.isSome then .next s else .refused (.reservedCode code)

/-- R240 (and R157 for overflow): count a frame loss and record its cause. -/
def loss (c : LossCause) (s : State) : State :=
  { s with diag := { s.diag with frameLosses := s.diag.frameLosses + 1 }, lastLoss := some c }

/-- R241: a frame whose Transmission header decoded. -/
def success (s : State) : State :=
  { s with diag := { s.diag with framesOk := s.diag.framesOk + 1 }, timer := 0 }

/-- R39: a direct codec command writes `result` and nothing else. -/
def setResult (v : Word) (s : State) : State := { s with result := v }

/-- The data in a slot of the completion table, `none` where the slot is Empty (R33). -/
def Ctab.get (t : Ctab) (k : Nat) : Option (List Byte) :=
  match t with
  | [] => none
  | (j, d) :: rest => if j = k then some d else Ctab.get rest k

/-- R244: fill a slot, unless it is Filled already: the first recovered copy wins. -/
def Ctab.fill (t : Ctab) (k : Nat) (data : List Byte) : Ctab :=
  match t with
  | [] => [(k, data)]
  | (j, d) :: rest =>
    if k < j then (k, data) :: (j, d) :: rest
    else if k = j then (j, d) :: rest
    else (j, d) :: Ctab.fill rest k data

/-- R250: the ascending list of every k in 1..N whose slot is Empty. -/
def Ctab.missing (t : Ctab) (N : Nat) : List Nat :=
  (List.range' 1 N).filter (fun k => (t.get k).isNone)

/-- R247: the data of slots 1..N, in ascending order of id. -/
def Ctab.payload (t : Ctab) (N : Nat) : List Byte :=
  (List.range' 1 N).flatMap (fun k => (t.get k).getD [])

/-- R237: a Transmission's pairs are queued whole, encoded with the current clock, or not at all. -/
def enqueue (pairs : List Pair) (s : State) : State :=
  if s.params.txqCap < s.txq.length + 3 * pairs.length then
    { s with diag := { s.diag with txDrops := s.diag.txDrops + 1 } }
  else
    let (syms, c) := encodeStream pairs s.txClock
    { s with txq := s.txq ++ syms, txClock := c }

end Sys2Proof.Machine
end

