-- ==== Sys2Proof/Machine/Codec.lean ====
section
/-! DEFINITION. The Symbol Codec family (spec/40_codec.md): the receive stream decode and the meanings of ENC_BYTE,
DEC_TRIPLET and STROBE_EXPAND. -/

namespace Sys2Proof.Machine

/-- Decode the whole triplets of a symbol list; an incomplete last group is dropped (R132). -/
def decodeTriplets : List Nibble → List Pair
  | s0 :: s1 :: s2 :: rest => decodeTriplet ⟨s0, s1, s2⟩ :: decodeTriplets rest
  | _ => []

/-- R133: if the byte of the last pair is 0x00, remove that one pair, whatever its flag. -/
def trimZero (pairs : List Pair) : List Pair :=
  match pairs.getLast? with
  | some (0x00, _) => pairs.dropLast
  | _ => pairs

/-- R132: a frame's raw symbols as (byte, flag) pairs. -/
def decodeStream (syms : List Nibble) : List Pair := trimZero (decodeTriplets syms)

/-- ENC_BYTE (R125). -/
def execEncByte (byte : Byte) (ctrl clk : Bool) (s : State) : Host.Outcome State Fault Refusal :=
  let (t, c') := encodeByte byte ctrl clk
  unlessFatal s (setResult (encByteResult t c') s)

/-- DEC_TRIPLET (R126). -/
def execDecTriplet (s0 s1 s2 : Nibble) (s : State) : Host.Outcome State Fault Refusal :=
  unlessFatal s (setResult (decTripletResult (decodeTriplet ⟨s0, s1, s2⟩)) s)

/-- STROBE_EXPAND (R127). -/
def execStrobeExpand (sym prev : Nibble) (s : State) : Host.Outcome State Fault Refusal :=
  unlessFatal s (setResult (strobeExpandResult (strobeExpand sym prev)) s)

end Sys2Proof.Machine
end

