-- ==== Sys2Proof/Machine/Gf.lean ====
section
/-! DEFINITION. The field GF(2^8) of the Reed-Solomon code (spec/42_fec.md R170, R171), and polynomials over it with
coefficients listed highest degree first (R174). Addition and subtraction are bitwise exclusive or. -/

namespace Sys2Proof.Machine

/-- Multiplication by x, reduced modulo the field polynomial 0x11D (R170). -/
def xtime (a : Byte) : Byte := (a <<< 1) ^^^ (if a.getLsbD 7 then 0x1D else 0x00)

/-- Shift-and-add over the low `k` bits of `b`. -/
def gmulBits : Nat → Byte → Byte → Byte
  | 0, _, _ => 0
  | k + 1, a, b => (if b.getLsbD 0 then a else 0) ^^^ gmulBits k (xtime a) (b >>> 1)

/-- R171: the product of two field elements. -/
def gmul (a b : Byte) : Byte := gmulBits 8 a b

/-- `a` multiplied by itself `k` times, starting from 1. -/
def gpow (a : Byte) : Nat → Byte
  | 0 => 1
  | k + 1 => gmul (gpow a k) a

/-- The primitive element (R170). -/
def alpha : Byte := 0x02

/-- R171: the inverse of a nonzero element, as its 254th power (α has order 255). -/
def ginv (a : Byte) : Byte :=
  let sq (x : Byte) : Byte := gmul x x
  let a2 := sq a
  let a4 := sq a2
  let a8 := sq a4
  let a16 := sq a8
  let a32 := sq a16
  let a64 := sq a32
  let a128 := sq a64
  gmul (gmul (gmul a2 a4) (gmul a8 a16)) (gmul (gmul a32 a64) a128)

/-- The value of a polynomial at a point, by Horner's rule (R174). -/
def polyEval (c : List Byte) (x : Byte) : Byte := c.foldl (fun acc b => gmul acc x ^^^ b) 0

/-- The product of a polynomial with (x - a). -/
def polyMulRoot (g : List Byte) (a : Byte) : List Byte :=
  List.zipWith (· ^^^ ·) (g ++ [0]) (0 :: g.map (fun k => gmul k a))

/-- R172: the generator polynomial for `P` parity bytes, with the roots α^0 to α^(P-1). -/
def genPoly : Nat → List Byte
  | 0 => [1]
  | k + 1 => polyMulRoot (genPoly k) (gpow alpha k)

end Sys2Proof.Machine
end

