-- ==== Sys2Proof/Machine/Fec.lean ====
section
/-! DEFINITION. The Reed-Solomon code and the Packet operations (spec/42_fec.md R173 to R184). -/

namespace Sys2Proof.Machine

/-- One step of division by `g_P`: shift `next` in below the remainder `rem` and cancel the coefficient `fb` that
leaves it at the top. -/
def divStep (g rem : List Byte) (fb next : Byte) : List Byte :=
  List.zipWith (fun r k => r ^^^ gmul k fb) (rem.tail ++ [next]) g.tail

/-- R173: the parity of a message, in the shift-register form. -/
def rsEncode (msg : List Byte) (P : Nat) : List Byte :=
  msg.foldl (fun rem m => divStep (genPoly P) rem (m ^^^ rem.headD 0) 0) (List.replicate P 0)

/-- The remainder of `c(x)` divided by `g_P(x)` (R173, R174). -/
def polyRem (c : List Byte) (P : Nat) : List Byte :=
  c.foldl (fun rem b => divStep (genPoly P) rem (rem.headD 0) b) (List.replicate P 0)

/-- R173: a codeword's polynomial is divisible by `g_P(x)`. -/
def isCodeword (c : List Byte) (P : Nat) : Bool := (polyRem c P).all (· == 0)

/-- The number of positions where two words differ (R175, R176). -/
def hamming (c r : List Byte) : Nat := (List.zipWith (fun a b => a != b) c r).count true

/-- The syndromes `r(α^j)` for j = 0 .. P-1. -/
def syndromes (r : List Byte) (P : Nat) : List Byte :=
  (List.range P).map (fun j => polyEval r (gpow alpha j))

/-- Inner product of two vectors. -/
def dot (u v : List Byte) : Byte := (List.zipWith gmul u v).foldl (· ^^^ ·) 0

/-- From vectors that span a space, vectors that span its subspace orthogonal to `row`. -/
def restrictTo (basis : List (List Byte)) (row : List Byte) : List (List Byte) :=
  match basis.find? (fun b => dot row b != 0) with
  | none => basis
  | some p =>
    let k := ginv (dot row p)
    basis.map (fun b => List.zipWith (fun x y => x ^^^ gmul (gmul (dot row b) k) y) b p)

/-- The unit vectors of length `m`. -/
def unitVectors (m : Nat) : List (List Byte) :=
  (List.range m).map (fun i => (List.range m).map (fun j => if i = j then 1 else 0))

/-- A nonzero vector of length `m` orthogonal to every row, if there is one. -/
def kernelVector (rows : List (List Byte)) (m : Nat) : Option (List Byte) :=
  (rows.foldl restrictTo (unitVectors m)).find? (fun v => v.any (· != 0))

/-- The key equations of the error locator: each row holds t+1 consecutive syndromes, latest first. -/
def locatorRows (S : List Byte) (t : Nat) : List (List Byte) :=
  (List.range (S.length - t)).map (fun k => ((S.drop k).take (t + 1)).reverse)

/-- The locator `X_i = α^(n-1-i)` of position `i` in a word of `n` bytes (R174). -/
def posLocator (n i : Nat) : Byte := gpow alpha (n - 1 - i)

/-- The equations for the error values at the positions with locators `xs`; the last column is the syndrome. -/
def valueRows (xs S : List Byte) : List (List Byte) :=
  (List.range xs.length).map (fun j => xs.map (fun x => gpow x j) ++ [S.getD j 0])

/-- A candidate for the error word in `r` (n bytes, at most t of them nonzero): the roots of a locator that solves
the key equations are the positions, and a linear system gives the values. -/
def errorWord (r : List Byte) (P : Nat) : Option (List Byte) :=
  let n := r.length
  let t := P / 2
  let S := syndromes r P
  match kernelVector (locatorRows S t) (t + 1) with
  | none => none
  | some loc =>
    let ps := (List.range n).filter (fun i => polyEval loc (posLocator n i) == 0)
    match kernelVector (valueRows (ps.map (posLocator n)) S) (ps.length + 1) with
    | none => none
    | some v =>
      let vals := v.map (gmul (ginv (v.getLastD 0)))
      some ((List.range n).map (fun i => ((ps.zip vals).lookup i).getD 0))

/-- R175: bounded-distance decoding with radius floor(P / 2): the codeword within that distance of `r` and the
distance, or `none` for Unrecoverable. A candidate is answered only after it is checked to be such a codeword; the
way to the candidate is the model's own (R187: only the input-output relation is normative; log 9). -/
def rsDecode (r : List Byte) (P : Nat) : Option (List Byte × Nat) :=
  if 255 < r.length then none
  else if P = 0 then some (r, 0)
  else if isCodeword r P then some (r, 0)
  else match errorWord r P with
    | none => none
    | some e =>
      let c := List.zipWith (· ^^^ ·) r e
      if isCodeword c P && decide (hamming c r ≤ P / 2) then some (c, hamming c r) else none

/-- R180: the parity length of a chunk of `L` data bytes. -/
def parityLength (L : Nat) : Nat := L + L / 2

/-- R181: the Packet of a chunk. -/
def newPacket (chunk : List Byte) (id : U16) : Packet :=
  let L := chunk.length
  let P := parityLength L
  let size : U16 := BitVec.ofNat 16 L
  let eccSize : Byte := BitVec.ofNat 8 P
  let hdr := bytesBE size ++ bytesBE id ++ [eccSize]
  { size := size, id := id, eccSize := eccSize, data := chunk, ecc := rsEncode (hdr ++ chunk) P }

/-- R182: error correction of a received Packet. -/
def correctPacket (hdr data ecc : List Byte) : Option (List Byte × Nat) :=
  rsDecode (hdr ++ data ++ ecc) ecc.length

/-- R183: the parity of a Transmission header. -/
def headerParity (tp : U16) : List Byte := rsEncode (bytesBE tp) 4

/-- R184: the total_packets of a received Transmission header, from its count and parity bytes. -/
def decodeHeader (tpHi tpLo : Byte) (hecc : List Byte) : Option U16 :=
  match rsDecode (tpHi :: tpLo :: hecc) 4 with
  | none => none
  | some (c, _) => some (u16Of (c.getD 0 0) (c.getD 1 0))

end Sys2Proof.Machine
end

