-- ==== Sys2Proof/Machine/FrameSync.lean ====
section
/-! DEFINITION. The Frame Synchronizer (spec/41_frame_sync.md): window predicates, the two scans, extraction, overflow,
and the chunks of a decoded frame. -/

namespace Sys2Proof.Machine

/-- A chunk: a non-empty list of pairs (R158). -/
abbrev Chunk := List Pair

/-- R150: the window at the head of `syms` matches a Start pattern. -/
def startsWithStart (syms : List Nibble) : Bool := decide (syms.take 3 ∈ startPatterns)

/-- R150: the window at the head of `syms` matches an End pattern. -/
def startsWithEnd (syms : List Nibble) : Bool := decide (syms.take 3 ∈ endPatterns)

/-- R150: `is_start(i)`. A window that runs past the end of the buffer matches nothing. -/
def isStart (buf : List Nibble) (i : Nat) : Bool := startsWithStart (buf.drop i)

/-- R150: `is_end(i)`. -/
def isEnd (buf : List Nibble) (i : Nat) : Bool := startsWithEnd (buf.drop i)

/-- R152: the smallest index, counted from `i` at the head of `syms`, where a Start pattern stands. -/
def scanStart (syms : List Nibble) (i : Nat) : Option Nat :=
  match syms with
  | [] => none
  | v :: rest => if startsWithStart (v :: rest) then some i else scanStart rest (i + 1)

/-- R153: the largest index where an End pattern stands, among the triplet boundaries of `syms`, whose head has
index `i`. -/
def scanEnd (syms : List Nibble) (i : Nat) : Option Nat :=
  match syms with
  | s0 :: s1 :: s2 :: rest =>
    match scanEnd rest (i + 3) with
    | some j => some j
    | none => if startsWithEnd [s0, s1, s2] then some i else none
  | _ => none

/-- R154: `Frame(start, end)`, or `none` for Incomplete. The End scan is over the boundaries from start + 3 on. -/
def sync (buf : List Nibble) : Option (Nat × Nat) :=
  if buf.length < 6 then none
  else match scanStart buf 0 with
    | none => none
    | some start =>
      match scanEnd (buf.drop (start + 3)) (start + 3) with
      | none => none
      | some e => some (start, e)

/-- R155: the symbols `rxbuf[start .. end + 3)` of a recognized frame. -/
def extractFrame (buf : List Nibble) (start e : Nat) : List Nibble :=
  (buf.drop start).take (e + 3 - start)

/-- R157: no frame was recognized and the buffer is full: it is emptied and counted as a loss. -/
def overflow (s : State) : State := loss .overflow { s with rxbuf := [] }

/-- R158, one pair: it starts a chunk if its flag is 1 or there is no chunk yet, else it goes to the last chunk. -/
def addToChunks (chunks : List Chunk) (p : Pair) : List Chunk :=
  if p.2 || chunks.isEmpty then chunks ++ [[p]]
  else chunks.dropLast ++ [chunks.getLastD [] ++ [p]]

/-- R158: the chunks of a decoded frame. -/
def splitData (pairs : List Pair) : List Chunk := pairs.foldl addToChunks []

end Sys2Proof.Machine
end

