-- ==== Sys2Proof/Machine/Transmission.lean ====
section
/-! DEFINITION. Packets, Transmissions, enquiries and replies (spec/43_transmission.md, spec/30_encoding.md R88). -/

namespace Sys2Proof.Machine

/-- `xs` cut into consecutive groups of `c`, the last one possibly shorter (R200, R210). -/
def groupsOf {α : Type} (xs : List α) (c : Nat) : List (List α) :=
  (List.range (ceilDiv xs.length c)).map (fun k => (xs.drop (k * c)).take c)

/-- R200, R201: the Packets of a payload, with ids 1..N in chunk order. -/
def dataPackets (payload : List Byte) (chunkSize : Nat) : List Packet :=
  (groupsOf payload chunkSize).mapIdx (fun k chunk => newPacket chunk (BitVec.ofNat 16 (k + 1)))

/-- R202: `Transmission::new`. -/
def newTransmission (packets : List Packet) (isEnquiry : Bool) : Transmission :=
  let tp : U16 := BitVec.ofNat 16 packets.length
  { isEnquiry := isEnquiry, totalPackets := tp, hecc := headerParity tp, packets := packets }

/-- The pairs of one Packet inside a frame (R88). -/
def packetPairs (p : Packet) : List Pair :=
  ctl ctlSOH :: plain (packetHeader p) ++ ctl ctlSOTX :: plain (p.data ++ p.ecc)

/-- R88, R203, R204: the (byte, flag) sequence of a Transmission. -/
def serialize (t : Transmission) : List Pair :=
  ctl ctlSOT :: plain (transmissionHeader t) ++ t.packets.flatMap packetPairs ++ [ctl ctlEOT]

/-- A Packet recovered from a received frame (R208): its id, its corrected data and its error count. -/
structure Recovered where
  id   : U16
  data : List Byte
  nerr : Nat
  deriving DecidableEq, Repr

/-- The outcomes of `parse_packet` (R208, R209). -/
inductive PacketResult where
  | failed
  | reservedId
  | recovered (r : Recovered)
  deriving DecidableEq, Repr

/-- R208: parse a header chunk and the body chunk after it. -/
def parsePacket (hc bc : Chunk) : PacketResult :=
  let body := bc.tail.map (fun p => p.1)
  match hc.tail.map (fun p => p.1) with
  | [h0, h1, h2, h3, h4] =>
    let L := (u16Of h0 h1).toNat
    let P := h4.toNat
    if body.length ≠ L + P then .failed
    else if 255 < 5 + L + P then .failed
    else match correctPacket [h0, h1, h2, h3, h4] (body.take L) (body.drop L) with
      | none => .failed
      | some (c, nerr) =>
        if u16Of (c.getD 0 0) (c.getD 1 0) ≠ u16Of h0 h1 ∨ c.getD 4 0 ≠ h4 then .failed
        else
          let id := u16Of (c.getD 2 0) (c.getD 3 0)
          if id = sentinel16 then .reservedId
          else .recovered { id := id, data := (c.drop 5).take L, nerr := nerr }
  | _ => .failed

/-- R207: the chunk walk over the chunks after the header chunk. It answers the counters, and the recovered Packets,
or `none` where a Packet with id 0xFFFF raised FATAL (R209). -/
def walkChunks : List Chunk → Diag → List Recovered → Diag × Option (List Recovered)
  | hc :: bc :: rest, d, pk =>
    if hc.head? = some (ctl ctlSOH) ∧ bc.head? = some (ctl ctlSOTX) then
      match parsePacket hc bc with
      | .failed => walkChunks rest { d with pktsUnrecoverable := d.pktsUnrecoverable + 1 } pk
      | .reservedId => (d, none)
      | .recovered r =>
        walkChunks rest { d with errorsCorrected := d.errorsCorrected + BitVec.ofNat 32 r.nerr } (pk ++ [r])
    else walkChunks (bc :: rest) d pk
  | _, d, pk => (d, some pk)

/-- The outcomes of `deserialize` (R205). -/
inductive Parsed where
  | fatal (c : FatalCause)
  | loss (c : LossCause)
  | ok (isEnq : Bool) (tp : U16) (pk : List Recovered)
  deriving DecidableEq, Repr

/-- R205 to R209: parse a frame, with the counters as the walk leaves them. -/
def deserialize (frame : List Nibble) (d : Diag) : Diag × Parsed :=
  match splitData (decodeStream frame) with
  | [] => (d, .fatal .headerAbsent)
  | h :: rest =>
    if h.head? ≠ some (ctl ctlSOT) then (d, .fatal .headerAbsent)
    else match h.map (fun p => p.1) with
      | [_, flag, tpHi, tpLo, e0, e1, e2, e3] =>
        match decodeHeader tpHi tpLo [e0, e1, e2, e3] with
        | none => (d, .loss .headerParity)
        | some tp =>
          match walkChunks rest d [] with
          | (d', none) => (d', .fatal .reservedId)
          | (d', some pk) => (d', .ok (flag.getLsbD 0) tp pk)
      | _ => (d, .loss .headerLength)

/-- R210: how many requested ids one Enquiry Packet holds. -/
def idsPerPacket (chunkSize : Nat) : Nat := max 1 (chunkSize / 2)

/-- R210: the Enquiry Transmission for a list of missing ids. -/
def enquiry (missing : List Nat) (chunkSize : Nat) : Transmission :=
  let groups := groupsOf missing (idsPerPacket chunkSize)
  let packets := groups.mapIdx (fun j g =>
    newPacket (g.flatMap (fun i => bytesLE (BitVec.ofNat 16 i))) (BitVec.ofNat 16 (j + 1)))
  newTransmission packets true

/-- The little-endian 16-bit ids in the data of one Enquiry Packet; an odd trailing byte is not used (R211). -/
def idsInData : List Byte → List U16
  | lo :: hi :: rest => u16Of hi lo :: idsInData rest
  | _ => []

/-- R211: the ids a received Enquiry requests; the list is read as a set. -/
def requestedIds (pk : List Recovered) : List U16 := pk.flatMap (fun r => idsInData r.data)

/-- R212: the reply to a request, from the stored original Packets. -/
def reply (orig : Option (List Packet)) (ids : List U16) : Option Transmission :=
  match orig with
  | none => none
  | some packets =>
    let rep := packets.filter (fun p => decide (p.id ∈ ids))
    if rep.isEmpty then none else some (newTransmission rep false)

end Sys2Proof.Machine
end

