-- ==== Sys2Proof/Machine/Arq.lean ====
section
/-! DEFINITION. The ARQ Controller and the meanings of NOP, CYCLE, SEND and RESET (spec/44_arq.md). -/

namespace Sys2Proof.Machine

/-- NOP (R230). -/
def execNop (s : State) : Host.Outcome State Fault Refusal := unlessFatal s s

/-- RESET (R236): the one event that acts while FATAL (R277). -/
def execReset (s : State) : Host.Outcome State Fault Refusal := .next (resetBlock s)

/-- R235: a SEND whose payload is too long, or needs more than 0xFFFE Packets, is rejected. -/
def sendRejected (p : Params) (payload : List Byte) : Bool :=
  decide (p.payloadMax < payload.length) || decide (0xFFFE < ceilDiv payload.length p.chunkSize)

/-- SEND (R235). -/
def execSend (payload : List Byte) (s : State) : Host.Outcome State Fault Refusal :=
  unlessFatal s <|
    if sendRejected s.params payload then { s with badcmd := true }
    else
      let pks := dataPackets payload s.params.chunkSize
      enqueue (serialize (newTransmission pks false)) { s with orig := some pks }

/-- One transport write of a symbol (R232). -/
def writeSymbol (w : Nibble) (s : State) : State :=
  emit (.write (txByte w)) { s with txLastWrite := w, txCnt := 0 }

/-- R232, the write slot: the next value to write is the pending second write, or the head of the queue. -/
def writeNext (s : State) : State :=
  match s.params.strobeEn, s.txPending, s.txq with
  | true, some p, _ => writeSymbol p { s with txPending := none }
  | true, none, sym :: q =>
    let (w, p) := strobeExpand sym s.txLastWrite
    writeSymbol w { s with txq := q, txPending := some p }
  | false, _, sym :: q => writeSymbol sym { s with txq := q }
  | _, _, [] => s

/-- R232: the transmit phase. -/
def txPhase (txr : Bool) (s : State) : State :=
  let s := { s with txCnt := min (s.txCnt + 1) s.params.interSymbolDelay }
  if s.txCnt = s.params.interSymbolDelay ∧ txr = true ∧ (s.txPending.isSome ∨ s.txq ≠ []) then writeNext s
  else s

/-- R242: an Enquiry is answered with the named Packets of the original Transmission. -/
def handleEnquiry (pk : List Recovered) (s : State) : State :=
  match reply s.orig (requestedIds pk) with
  | none => s
  | some rep =>
    let s := enqueue (serialize rep) s
    { s with diag := { s.diag with repliesSent := s.diag.repliesSent + 1 } }

/-- R244: one recovered Packet fills its slot, or is discarded. -/
def fillSlot (s : State) (r : Recovered) : State :=
  if 1 ≤ r.id.toNat ∧ r.id.toNat ≤ s.xferTotal.toNat then
    { s with ctab := s.ctab.fill r.id.toNat r.data }
  else { s with diag := { s.diag with pktsDiscarded := s.diag.pktsDiscarded + 1 } }

/-- R244 and R245: fill the slots, then leave WaitingForResponse. -/
def acceptPackets (pk : List Recovered) (s : State) : State :=
  { pk.foldl fillSlot s with arqState := .normal }

/-- R243 to R245: a data Transmission opens a transfer if none is open, or raises FATAL; then its Packets fill the
table. -/
def handleData (tp : U16) (pk : List Recovered) (s : State) : State :=
  if s.xferActive then acceptPackets pk s
  else if tp = sentinel16 then raiseFatal .totalReserved s
  else if s.params.maxPacketsRx < tp.toNat then raiseFatal .totalTooLarge s
  else acceptPackets pk { s with xferActive := true, xferTotal := tp, ctab := [] }

/-- R247: the transfer is complete: emit the payload and close the transfer. -/
def complete (s : State) : State :=
  let s := emit (.payload (s.ctab.payload s.xferTotal.toNat)) s
  { s with ctab := [], xferActive := false, xferTotal := 0, arqState := .normal, enq := none }

/-- R248: build an Enquiry for the missing ids, keep its pairs and queue them. -/
def issueEnquiry (missing : List Nat) (s : State) : State :=
  let pairs := serialize (enquiry missing s.params.chunkSize)
  let s := enqueue pairs { s with enq := some pairs }
  { s with diag := { s.diag with enqSent := s.diag.enqSent + 1 }, arqState := .waitingForResponse }

/-- R246: the gap check, with a transfer open. -/
def gapCheck (s : State) : State :=
  let missing := s.ctab.missing s.xferTotal.toNat
  if missing.isEmpty then complete s else issueEnquiry missing s

/-- R249: the timeout resend. With no stored Enquiry, which R51 rules out, nothing is queued (log 10). -/
def timeoutResend (s : State) : State :=
  let s := enqueue (s.enq.getD []) s
  { s with diag := { s.diag with enqResent := s.diag.enqResent + 1 }, timer := 0 }

/-- R239, the part after a frame has parsed well: use its Packets, then the gap check while a transfer is open. A
FATAL raised on the way ends the event. -/
def useFrame (isEnq : Bool) (tp : U16) (pk : List Recovered) (s : State) : State × Bool :=
  let s := if isEnq then handleEnquiry pk s else handleData tp pk s
  if s.fatalCause.isSome then (s, false)
  else if s.xferActive then (gapCheck s, true)
  else (s, true)

/-- R239: process a recognized frame; the flag says that it decoded. -/
def processFrame (frame : List Nibble) (s : State) : State × Bool :=
  let (d, r) := deserialize frame s.diag
  let s := { s with diag := d }
  match r with
  | .fatal c => (raiseFatal c s, false)
  | .loss c => (loss c s, false)
  | .ok isEnq tp pk => useFrame isEnq tp pk (success s)

/-- R156: run the synchronizer after a symbol was appended. -/
def runSync (s : State) : State × Bool :=
  match sync s.rxbuf with
  | some (start, e) => processFrame (extractFrame s.rxbuf start e) { s with rxbuf := [] }
  | none => if s.params.rxbufCap ≤ s.rxbuf.length then (overflow s, false) else (s, false)

/-- R131: accept a symbol whose clock bit has changed. -/
def acceptSymbol (v : Nibble) (s : State) : State :=
  { s with
    rxClock := clockBit v
    rxbuf := s.rxbuf ++ [v]
    diag := { s.diag with rxSymbols := s.diag.rxSymbols + 1 } }

/-- R131, R233: the receive phase; the flag says that a frame decoded. -/
def rxPhase (rxv : Bool) (rxb : Byte) (s : State) : State × Bool :=
  let v := rxSymbol rxb
  if rxv = true ∧ clockBit v ≠ s.rxClock then runSync (acceptSymbol v s) else (s, false)

/-- R234: the timer phase. -/
def timerPhase (decoded : Bool) (s : State) : State :=
  if decoded then s
  else
    let s := { s with timer := min (s.timer + 1) s.params.timeout }
    if s.arqState = .waitingForResponse ∧ s.timer = s.params.timeout then timeoutResend s else s

/-- R231, R279: the three phases of a CYCLE in order; a FATAL raised in the receive phase skips the timer phase. -/
def runCycle (txr rxv : Bool) (rxb : Byte) (s : State) : State :=
  let (s, decoded) := rxPhase rxv rxb (txPhase txr s)
  if s.fatalCause.isSome then s else timerPhase decoded s

/-- CYCLE (R231). -/
def execCycle (txr rxv : Bool) (rxb : Byte) (s : State) : Host.Outcome State Fault Refusal :=
  unlessFatal s (runCycle txr rxv rxb s)

end Sys2Proof.Machine
end

