-- ==== Sys2Proof/Machine/Dispatch.lean ====
section
/-! DEFINITION. The dispatch of an instruction to its meaning, one arm per constructor (spec/30_encoding.md R98). -/

namespace Sys2Proof.Machine

def exec (i : Instr) (s : State) : Host.Outcome State Fault Refusal :=
  match i with
  | .nop => Sys2Proof.Machine.execNop s
  | .cycle txr rxv rxb => Sys2Proof.Machine.execCycle txr rxv rxb s
  | .send payload => Sys2Proof.Machine.execSend payload s
  | .reset => Sys2Proof.Machine.execReset s
  | .encByte byte ctrl clk => Sys2Proof.Machine.execEncByte byte ctrl clk s
  | .decTriplet s0 s1 s2 => Sys2Proof.Machine.execDecTriplet s0 s1 s2 s
  | .strobeExpand sym prev => Sys2Proof.Machine.execStrobeExpand sym prev s

end Sys2Proof.Machine
end

