-- ==== Sys2Proof/Machine/Step.lean ====
section
/-! DEFINITION. One step of the machine: take one offered event, decode it and run it (spec/00_scope.md R6). -/

namespace Sys2Proof.Machine

/-- One step. An instantiation outside the legal ranges is refused (R9, log 7). With no event offered the block waits:
nothing changes (R291, log 3). -/
def step (s : State) : Host.Outcome State Fault Refusal :=
  if s.params.legal then
    match takeEvent s with
    | none => .next s
    | some (e, s') =>
      match decode e with
      | .ok i => exec i s'
      | .error (.reservedCode code) => reservedEvent code s'
  else .refused .illegalParameters

/-- The state with a table word offered as the next event, its payload empty (log 3). -/
def State.withFetchWord (s : State) (nbits w : Nat) : State := offerEvent (tableEvent nbits w) s

end Sys2Proof.Machine
end

