-- ==== Sys2Proof/Safety.lean ====
section
/-! DEFINITION. What a sound state and a safe run are, in the terms claims use: the invariants of spec/10_state.md R51
with the bounds of R22 and R33, and runs over lists of events. -/

namespace Sys2Proof.Machine

/-- Consecutive symbols differ in bit 3 (R80, R129, R160). -/
def alternates : List Nibble → Bool
  | a :: b :: rest => (clockBit a != clockBit b) && alternates (b :: rest)
  | _ => true

/-- A stored original Transmission (R35, R46): dense ids from 1, every Packet as R181 builds it from a chunk of 1 to
CHUNK_SIZE bytes, and no more Packets than R61 gives room for. -/
def origSound (p : Params) (pks : List Packet) : Prop :=
  pks.length ≤ ceilDiv p.payloadMax p.chunkSize ∧
  ∀ k q, pks[k]? = some q →
    q = newPacket q.data (BitVec.ofNat 16 (k + 1)) ∧ 1 ≤ q.data.length ∧ q.data.length ≤ p.chunkSize

/-- The invariants every event keeps (R51), with the bounds of the state record (R22, R27, R33, R34, R61) and the
alternation of the receive buffer (R160). The transmit clauses are R51 item 5 in a form that a step keeps: the last
write and the queue together alternate, and the queue ends opposite to `tx_clock`; a pending second write equals the
first (R130). -/
structure State.Inv (s : State) : Prop where
  txCnt_le : s.txCnt ≤ s.params.interSymbolDelay
  timer_le : s.timer ≤ s.params.timeout
  txq_le : s.txq.length ≤ s.params.txqCap
  rxbuf_le : s.rxbuf.length ≤ s.params.rxbufCap
  rxbuf_alternates : alternates s.rxbuf = true
  rxbuf_last : ∀ v, s.rxbuf.getLast? = some v → clockBit v = s.rxClock
  idle_empty : s.xferActive = false → s.ctab = [] ∧ s.xferTotal = 0
  waiting_iff_active : s.arqState = .waitingForResponse ↔ s.xferActive = true
  waiting_enq : s.arqState = .waitingForResponse → s.enq.isSome = true
  pending_strobe : s.params.strobeEn = false → s.txPending = none
  pending_eq : ∀ p, s.txPending = some p → p = s.txLastWrite
  tx_alternates : alternates (s.txLastWrite :: s.txq) = true
  tx_clock : ((s.txLastWrite :: s.txq).getLast?).map clockBit = some (!s.txClock)
  total_le : s.xferTotal.toNat ≤ s.params.maxPacketsRx
  ctab_wf : s.ctab.wf = true
  ctab_slots : ∀ slot ∈ s.ctab, 1 ≤ slot.1 ∧ slot.1 ≤ s.xferTotal.toNat ∧ slot.2.length ≤ 250
  orig_sound : ∀ pks, s.orig = some pks → origSound s.params pks

/-- Run instructions one after another, stopping at the first that gives no next state. -/
def execAll : List Instr → State → Host.Outcome State Fault Refusal
  | [], s => .next s
  | i :: is, s =>
    match exec i s with
    | .next t => execAll is t
    | .fault f => .fault f
    | .refused r => .refused r

/-- The CYCLEs that offer a list of symbols to the receiver, one each, with the transport not ready for a write. -/
def receiveAll (syms : List Nibble) : List Instr := syms.map (fun v => .cycle false true (txByte v))

/-- The symbols a block sends for a Transmission from clock state `c` (R88, R128). -/
def frameSymbols (t : Transmission) (c : Bool) : List Nibble := (encodeStream (serialize t) c).1

/-- The symbols among outputs, in order: the nibbles of the transport writes. -/
def writtenSymbols (out : List Output) : List Nibble :=
  out.filterMap (fun o => match o with | .write b => some (rxSymbol b) | .payload _ => none | .halted _ => none)

end Sys2Proof.Machine
end

