-- ==== Sys2Proof/Certificates/Slice0/Obligations.lean ====
section
/-! DEFINITION. The statements for the provers. Each docstring names the rule of spec/ it formalises. -/

open Sys2Proof Sys2Proof.Machine

/-! ### Encoding of the events -/

/-- R98, R92 to R95: decoding the encoding of an instruction gives it back, for all seven events and every value of
their operands. -/
def Obligations.DecodeOfEncodeIsIdentity : Prop :=
  ∀ i : Instr, decode (encode i) = .ok i

/-- R97, R98, R91: an event whose reserved operand bits are 0, and which carries a payload only for SEND, decodes to an
instruction whose encoding is that event. -/
def Obligations.EncodeOfDecodeIsIdentity : Prop :=
  ∀ e : Event, e.wf = true → ∃ i, decode e = .ok i ∧ encode i = e

/-- R97: two words with the same code whose operands agree on the bits that are not reserved decode alike. -/
def Obligations.ReservedOperandBitsAreIgnored : Prop :=
  ∀ (w w' : Word) (payload : List Byte),
    w.extractLsb' 24 8 = w'.extractLsb' 24 8 →
    w.extractLsb' 0 24 &&& operandMask (w.extractLsb' 24 8) =
      w'.extractLsb' 0 24 &&& operandMask (w.extractLsb' 24 8) →
    decode ⟨w, payload⟩ = decode ⟨w', payload⟩

/-- R98 and the event words of 95_test_vectors.md: eight words and what they stand for. -/
def Obligations.OpcodeMapWords : Prop :=
  decode ⟨0x00000000, []⟩ = .ok .nop ∧
  decode ⟨0x01000200, []⟩ = .ok (.cycle true false 0x00) ∧
  decode ⟨0x0100030D, []⟩ = .ok (.cycle true true 0x0D) ∧
  decode ⟨0x02000000, [0x48, 0x69]⟩ = .ok (.send [0x48, 0x69]) ∧
  decode ⟨0x03000000, []⟩ = .ok .reset ∧
  decode ⟨0x10FFFD16, []⟩ = .ok (.encByte 0x16 true false) ∧
  decode ⟨0x1100085D, []⟩ = .ok (.decTriplet 0x8 0x5 0xD) ∧
  decode ⟨0x12000088, []⟩ = .ok (.strobeExpand 0x8 0x8)

/-- R96: a code other than the seven is reserved, and a block that is not FATAL refuses it (the treatment the rule gives
a model). -/
def Obligations.ReservedCodesAreRefused : Prop :=
  ∀ (s : State) (e : Event) (rest : List Event),
    s.params.legal = true → s.fatalCause = none → s.inbox = e :: rest →
    e.word.extractLsb' 24 8 ∉ ([0x00, 0x01, 0x02, 0x03, 0x10, 0x11, 0x12] : List Byte) →
    step s = .refused (.reservedCode (e.word.extractLsb' 24 8))

/-! ### The step -/

/-- R6, R71: a step takes the oldest offered event and runs the instruction it decodes to. That offered events stand in
`inbox` is the model's own (log 3). -/
def Obligations.StepRunsTheDecodedInstruction : Prop :=
  ∀ (s : State) (e : Event) (rest : List Event) (i : Instr),
    s.params.legal = true → s.inbox = e :: rest → decode e = .ok i →
    step s = exec i { s with inbox := rest }

/-- R9, R8, I-7: an instantiation outside the legal ranges is refused. -/
def Obligations.IllegalInstantiationIsRefused : Prop :=
  ∀ s : State,
    ¬ ((1 ≤ s.params.chunkSize ∧ s.params.chunkSize ≤ 100) ∧ 1 ≤ s.params.interSymbolDelay ∧ 1 ≤ s.params.timeout ∧
        27 ≤ s.params.rxbufCap ∧ 27 ≤ s.params.txqCap ∧
        (1 ≤ s.params.maxPacketsRx ∧ s.params.maxPacketsRx ≤ 65534) ∧
        (s.params.payloadMax + s.params.chunkSize - 1) / s.params.chunkSize ≤ 65534) →
    step s = .refused .illegalParameters

/-- R50 (no event changes a parameter), R106 (outputs are appended in order) and R6 (one event a step). The lists `inbox`
and `out` are the model's own (logs 3, 4); that a RESET keeps both is the model's choice (log 5). -/
def Obligations.StepKeepsParametersAndEmittedOutputs : Prop :=
  ∀ s t : State, step s = .next t →
    t.params = s.params ∧ s.out <+: t.out ∧ t.inbox = s.inbox.tail

/-- R276: while FATAL, every event but RESET changes nothing and emits nothing; a reserved code among them. The event is
taken from the model's own list `inbox` (log 3). -/
def Obligations.FatalStopsEveryEventButReset : Prop :=
  (∀ (s : State) (i : Instr), s.fatalCause ≠ none → i ≠ .reset → exec i s = .next s) ∧
  (∀ (s : State) (e : Event) (rest : List Event),
    s.params.legal = true → s.fatalCause ≠ none → s.inbox = e :: rest → decode e ≠ .ok .reset →
    step s = .next { s with inbox := rest })

/-- R274, R275, R277, R37: a block that runs enters FATAL only in a CYCLE that reads a byte, and the last output is then
the notice with the same cause; a block in FATAL leaves it only by RESET. -/
def Obligations.OnlyReceivingEntersFatalAndOnlyResetLeaves : Prop :=
  ∀ (s t : State) (i : Instr), exec i s = .next t →
    (∀ c, s.fatalCause = none → t.fatalCause = some c →
      (∃ txr rxb, i = .cycle txr true rxb) ∧ t.out.getLast? = some (.halted c)) ∧
    (s.fatalCause ≠ none → t.fatalCause ≠ s.fatalCause → i = .reset)

/-! ### NOP, RESET and the reset values -/

/-- R230. -/
def Obligations.NopChangesNothing : Prop :=
  (∀ (w : Word) (payload : List Byte), w.extractLsb' 24 8 = 0x00 → decode ⟨w, payload⟩ = .ok .nop) ∧
  (∀ s : State, exec .nop s = .next s)

/-- R236, R277, R291: RESET completes in every state, FATAL or not, with every element at its value of R49 and no output.
That the parameters, the events still offered and the outputs already emitted stay is the model's choice (log 5). -/
def Obligations.ResetRestoresEveryElement : Prop :=
  (∀ (w : Word) (payload : List Byte), w.extractLsb' 24 8 = 0x03 → decode ⟨w, payload⟩ = .ok .reset) ∧
  ∀ s : State, ∃ t, exec .reset s = .next t ∧
    t.txClock = true ∧ t.txLastWrite = 0x0 ∧ t.txPending = none ∧ t.txq = [] ∧ t.txCnt = 0 ∧
    t.rxClock = false ∧ t.rxbuf = [] ∧ t.arqState = .normal ∧ t.xferActive = false ∧ t.xferTotal = 0 ∧
    t.ctab = [] ∧ t.timer = 0 ∧ t.orig = none ∧ t.enq = none ∧ t.fatalCause = none ∧ t.badcmd = false ∧
    t.result = 0x00000000 ∧ t.lastLoss = none ∧ t.diag = ⟨0, 0, 0, 0, 0, 0, 0, 0, 0, 0⟩ ∧
    t.status = 0x00000100 ∧ t.params = s.params ∧ t.inbox = s.inbox ∧ t.out = s.out

/-- R49, R290: the state after power-on. Its parameters are the model's choice (log 2), and the statement says nothing of
them. -/
def Obligations.PowerOnValues : Prop :=
  State.reset.txClock = true ∧ State.reset.txLastWrite = 0x0 ∧ State.reset.txPending = none ∧
  State.reset.txq = [] ∧ State.reset.txCnt = 0 ∧ State.reset.rxClock = false ∧ State.reset.rxbuf = [] ∧
  State.reset.arqState = .normal ∧ State.reset.xferActive = false ∧ State.reset.xferTotal = 0 ∧
  (∀ k, State.reset.ctab.get k = none) ∧ State.reset.timer = 0 ∧ State.reset.orig = none ∧ State.reset.enq = none ∧
  State.reset.fatalCause = none ∧ State.reset.badcmd = false ∧ State.reset.result = 0x00000000 ∧
  State.reset.lastLoss = none ∧ State.reset.diag = ⟨0, 0, 0, 0, 0, 0, 0, 0, 0, 0⟩

/-- R45: every field of STATUS, and its reserved bits, with the cause codes of R274 and R40. -/
def Obligations.StatusFields : Prop :=
  (fatalCode none = 0 ∧ fatalCode (some .headerAbsent) = 1 ∧ fatalCode (some .reservedId) = 2 ∧
    fatalCode (some .totalReserved) = 3 ∧ fatalCode (some .totalTooLarge) = 4) ∧
  (lossCode none = 0 ∧ lossCode (some .overflow) = 1 ∧ lossCode (some .headerLength) = 2 ∧
    lossCode (some .headerParity) = 3) ∧
  ∀ s : State,
    s.status.getLsbD 0 = s.fatalCause.isSome ∧
    s.status.extractLsb' 1 3 = fatalCode s.fatalCause ∧
    s.status.getLsbD 4 = decide (s.arqState = .waitingForResponse) ∧
    s.status.getLsbD 5 = s.xferActive ∧
    s.status.getLsbD 6 = s.orig.isSome ∧
    s.status.getLsbD 7 = s.enq.isSome ∧
    s.status.getLsbD 8 = s.txClock ∧
    s.status.getLsbD 9 = s.rxClock ∧
    s.status.getLsbD 10 = s.badcmd ∧
    s.status.getLsbD 11 = s.txPending.isSome ∧
    s.status.extractLsb' 12 2 = lossCode s.lastLoss ∧
    s.status.extractLsb' 14 18 = 0

/-! ### The codec commands -/

/-- R125: the operand fields, the value written, and that nothing else changes. -/
def Obligations.EncByteWritesOnlyResult : Prop :=
  (∀ (w : Word) (payload : List Byte), w.extractLsb' 24 8 = 0x10 →
    decode ⟨w, payload⟩ = .ok (.encByte (w.extractLsb' 0 8) (w.getLsbD 8) (w.getLsbD 9))) ∧
  (∀ (s : State) (b : Byte) (f c : Bool), s.fatalCause = none →
    exec (.encByte b f c) s = .next { s with result :=
      (0#19 ++ BitVec.ofBool (!c) ++ (BitVec.ofBool c ++ b.extractLsb' 5 3) ++
        (BitVec.ofBool (!c) ++ b.extractLsb' 2 3) ++ (BitVec.ofBool c ++ (b.extractLsb' 0 2 ++ BitVec.ofBool f))) }) ∧
  (∀ (s : State) (b : Byte) (f c : Bool), s.fatalCause ≠ none → exec (.encByte b f c) s = .next s)

/-- R126. -/
def Obligations.DecTripletWritesOnlyResult : Prop :=
  (∀ (w : Word) (payload : List Byte), w.extractLsb' 24 8 = 0x11 →
    decode ⟨w, payload⟩ = .ok (.decTriplet (w.extractLsb' 8 4) (w.extractLsb' 4 4) (w.extractLsb' 0 4))) ∧
  (∀ (s : State) (s0 s1 s2 : Nibble), s.fatalCause = none →
    exec (.decTriplet s0 s1 s2) s = .next { s with result :=
      (0#23 ++ BitVec.ofBool (s2.getLsbD 0) ++ (s0.extractLsb' 0 3 ++ s1.extractLsb' 0 3 ++ s2.extractLsb' 1 2)) }) ∧
  (∀ (s : State) (s0 s1 s2 : Nibble), s.fatalCause ≠ none → exec (.decTriplet s0 s1 s2) s = .next s)

/-- R127. -/
def Obligations.StrobeExpandWritesOnlyResult : Prop :=
  (∀ (w : Word) (payload : List Byte), w.extractLsb' 24 8 = 0x12 →
    decode ⟨w, payload⟩ = .ok (.strobeExpand (w.extractLsb' 0 4) (w.extractLsb' 4 4))) ∧
  (∀ (s : State) (sym prev : Nibble), s.fatalCause = none →
    exec (.strobeExpand sym prev) s = .next { s with result :=
      (0#24 ++ (BitVec.ofBool (!prev.getLsbD 3) ++ sym.extractLsb' 0 3) ++ sym) }) ∧
  (∀ (s : State) (sym prev : Nibble), s.fatalCause ≠ none → exec (.strobeExpand sym prev) s = .next s)

/-- R123: encoding and decoding a byte and flag, in both phases; the phases differ in bit 3 of each symbol only. -/
def Obligations.TripletRoundTrip : Prop :=
  ∀ (b : Byte) (f : Bool),
    (∀ c, decodeTriplet (encodeByte b f c).1 = (b, f)) ∧
    (encodeByte b f true).1.s0 = (encodeByte b f false).1.s0 ^^^ 0x8 ∧
    (encodeByte b f true).1.s1 = (encodeByte b f false).1.s1 ^^^ 0x8 ∧
    (encodeByte b f true).1.s2 = (encodeByte b f false).1.s2 ^^^ 0x8

/-- R129, R128: the symbols of any stream alternate in bit 3, begin with the clock state they were given, and leave a
clock state opposite to their last symbol. -/
def Obligations.EncodedStreamsAlternate : Prop :=
  ∀ (ps : List Pair) (c : Bool),
    alternates (encodeStream ps c).1 = true ∧
    (∀ v, (encodeStream ps c).1.head? = some v → clockBit v = c) ∧
    (∀ v, (encodeStream ps c).1.getLast? = some v → clockBit v = !(encodeStream ps c).2)

/-- R132, R133, R123: a stream decodes to the pairs it encodes, with one trailing zero byte trimmed; an incomplete last
group is dropped. -/
def Obligations.StreamRoundTrip : Prop :=
  ∀ (ps : List Pair) (c : Bool) (extra : List Nibble), extra.length < 3 →
    decodeStream ((encodeStream ps c).1 ++ extra) =
      if (ps.getLast?).map (fun p => p.1) = some 0x00 then ps.dropLast else ps

/-! ### CYCLE: the phases -/

/-- R231, R279: a running block completes every CYCLE: transmit phase, receive phase, and the timer phase unless FATAL
was raised. -/
def Obligations.CycleCompletesInThreePhases : Prop :=
  (∀ (w : Word) (payload : List Byte), w.extractLsb' 24 8 = 0x01 →
    decode ⟨w, payload⟩ = .ok (.cycle (w.getLsbD 9) (w.getLsbD 8) (w.extractLsb' 0 8))) ∧
  ∀ (s : State) (txr rxv : Bool) (rxb : Byte), s.fatalCause = none →
    ∃ t, exec (.cycle txr rxv rxb) s = .next t ∧
      ((rxPhase rxv rxb (txPhase txr s)).1.fatalCause ≠ none → t = (rxPhase rxv rxb (txPhase txr s)).1) ∧
      ((rxPhase rxv rxb (txPhase txr s)).1.fatalCause = none →
        t = timerPhase (rxPhase rxv rxb (txPhase txr s)).2 (rxPhase rxv rxb (txPhase txr s)).1)

/-- R232, R124: what the transmit phase does, in each of its cases. -/
def Obligations.TransmitPhaseWritesOneSymbolWhenDue : Prop :=
  ∀ (s : State) (txr : Bool),
    (¬ (s.params.interSymbolDelay ≤ s.txCnt + 1 ∧ txr = true ∧ (s.txPending ≠ none ∨ s.txq ≠ [])) →
      txPhase txr s = { s with txCnt := min (s.txCnt + 1) s.params.interSymbolDelay }) ∧
    (s.params.interSymbolDelay ≤ s.txCnt + 1 → txr = true →
      (∀ p, s.params.strobeEn = true → s.txPending = some p →
        txPhase txr s = { s with
          txPending := none, txLastWrite := p, txCnt := 0, out := s.out ++ [.write (0#4 ++ p)] }) ∧
      (∀ sym q, s.params.strobeEn = true → s.txPending = none → s.txq = sym :: q →
        txPhase txr s = { s with
          txq := q, txPending := some sym,
          txLastWrite := BitVec.ofBool (!s.txLastWrite.getLsbD 3) ++ sym.extractLsb' 0 3, txCnt := 0,
          out := s.out ++ [.write (0#4 ++ (BitVec.ofBool (!s.txLastWrite.getLsbD 3) ++ sym.extractLsb' 0 3))] }) ∧
      (∀ sym q, s.params.strobeEn = false → s.txq = sym :: q →
        txPhase txr s = { s with
          txq := q, txLastWrite := sym, txCnt := 0, out := s.out ++ [.write (0#4 ++ sym)] }))

/-- R131, R155, R156, R157: what the receive phase does: nothing without a clock change; else the symbol is accepted and
the synchronizer runs once. -/
def Obligations.ReceivePhaseAcceptsOnClockChange : Prop :=
  ∀ (s : State) (rxb : Byte),
    rxPhase false rxb s = (s, false) ∧
    (rxb.getLsbD 3 = s.rxClock → rxPhase true rxb s = (s, false)) ∧
    (rxb.getLsbD 3 ≠ s.rxClock →
      ∀ s', s' = { s with
          rxClock := rxb.getLsbD 3, rxbuf := s.rxbuf ++ [rxb.extractLsb' 0 4],
          diag := { s.diag with rxSymbols := s.diag.rxSymbols + 1 } } →
        (∀ st e, sync s'.rxbuf = some (st, e) →
          rxPhase true rxb s = processFrame ((s'.rxbuf.drop st).take (e + 3 - st)) { s' with rxbuf := [] }) ∧
        (sync s'.rxbuf = none → s'.rxbuf.length < s.params.rxbufCap → rxPhase true rxb s = (s', false)) ∧
        (sync s'.rxbuf = none → s.params.rxbufCap ≤ s'.rxbuf.length →
          rxPhase true rxb s = ({ s' with
            rxbuf := [], diag := { s'.diag with frameLosses := s'.diag.frameLosses + 1 },
            lastLoss := some .overflow }, false)))

/-- R234, R249, R237: what the timer phase does: nothing after a decoded frame; else it counts, and resends the stored
Enquiry when the count reaches TIMEOUT while waiting. -/
def Obligations.TimerPhaseResendsOnTimeout : Prop :=
  ∀ s : State,
    timerPhase true s = s ∧
    (¬ (s.arqState = .waitingForResponse ∧ s.params.timeout ≤ s.timer + 1) →
      timerPhase false s = { s with timer := min (s.timer + 1) s.params.timeout }) ∧
    (∀ pairs, s.arqState = .waitingForResponse → s.params.timeout ≤ s.timer + 1 → s.enq = some pairs →
      (s.txq.length + 3 * pairs.length ≤ s.params.txqCap →
        timerPhase false s = { s with
          txq := s.txq ++ (encodeStream pairs s.txClock).1, txClock := (encodeStream pairs s.txClock).2, timer := 0,
          diag := { s.diag with enqResent := s.diag.enqResent + 1 } }) ∧
      (s.params.txqCap < s.txq.length + 3 * pairs.length →
        timerPhase false s = { s with
          timer := 0,
          diag := { s.diag with enqResent := s.diag.enqResent + 1, txDrops := s.diag.txDrops + 1 } }))

/-- R231, R106, R81: a CYCLE emits at most one Write (bits 7:4 zero), then at most one Payload, then at most one Halted;
no other event emits anything. -/
def Obligations.OutputsComeInOrder : Prop :=
  ∀ (s t : State) (i : Instr), exec i s = .next t →
    ((∀ txr rxv rxb, i ≠ .cycle txr rxv rxb) → t.out = s.out) ∧
    ∃ ws ps hs, t.out = s.out ++ ws ++ ps ++ hs ∧
      (ws = [] ∨ ∃ v : Nibble, ws = [.write (0#4 ++ v)]) ∧
      (ps = [] ∨ ∃ bytes, ps = [.payload bytes]) ∧
      (hs = [] ∨ ∃ c, hs = [.halted c])

/-- The frame of CYCLE (R231 to R250, R35, R38, R39): it never changes `orig`, `badcmd`, `result`, the parameters or the
events still offered. -/
def Obligations.CycleFrame : Prop :=
  ∀ (s t : State) (txr rxv : Bool) (rxb : Byte), exec (.cycle txr rxv rxb) s = .next t →
    t.orig = s.orig ∧ t.badcmd = s.badcmd ∧ t.result = s.result ∧ t.params = s.params ∧ t.inbox = s.inbox

/-- The frame of a CYCLE that reads nothing (R72, R233, R271): the receive side, the completion table, the transfer, the
stored Enquiry, FATAL and the status fields stay, and so does every counter but `enq_resent` and `tx_drops`. -/
def Obligations.CycleWithoutReadFrame : Prop :=
  ∀ (s t : State) (txr : Bool) (rxb : Byte), exec (.cycle txr false rxb) s = .next t →
    t.rxClock = s.rxClock ∧ t.rxbuf = s.rxbuf ∧ t.arqState = s.arqState ∧ t.xferActive = s.xferActive ∧
    t.xferTotal = s.xferTotal ∧ t.ctab = s.ctab ∧ t.enq = s.enq ∧ t.fatalCause = s.fatalCause ∧
    t.lastLoss = s.lastLoss ∧
    t.diag = { s.diag with enqResent := t.diag.enqResent, txDrops := t.diag.txDrops }

/-- The frame of a CYCLE whose transport takes no write (R232, R271): nothing leaves the transmit queue, and the last
write and a pending second write stay. -/
def Obligations.CycleWithoutWriteFrame : Prop :=
  ∀ (s t : State) (rxv : Bool) (rxb : Byte), exec (.cycle false rxv rxb) s = .next t →
    s.txq <+: t.txq ∧ t.txLastWrite = s.txLastWrite ∧ t.txPending = s.txPending ∧
    (∀ b, .write b ∈ t.out → .write b ∈ s.out)

/-- R74, R26: without strobing, the symbols written so far followed by those still queued only ever grow at the end: no
event but RESET drops, repeats or reorders a queued symbol. -/
def Obligations.QueuedSymbolsAreWrittenInOrder : Prop :=
  ∀ (s t : State) (i : Instr), s.params.strobeEn = false → i ≠ .reset → exec i s = .next t →
    writtenSymbols s.out ++ s.txq <+: writtenSymbols t.out ++ t.txq

/-- R130, R135: with strobing, in a state of the invariant (which keeps the stream alternating), every queued symbol is
written twice in a row. -/
def Obligations.StrobedSymbolsAreWrittenTwice : Prop :=
  ∀ (s t : State) (i : Instr), s.Inv → s.params.strobeEn = true → i ≠ .reset → exec i s = .next t →
    writtenSymbols s.out ++ s.txPending.toList ++ s.txq.flatMap (fun v => [v, v]) <+:
      writtenSymbols t.out ++ t.txPending.toList ++ t.txq.flatMap (fun v => [v, v])

/-! ### SEND -/

/-- R235, R237: SEND in each of its cases: FATAL, rejected, queued whole, dropped whole. -/
def Obligations.SendEffect : Prop :=
  (∀ (w : Word) (payload : List Byte), w.extractLsb' 24 8 = 0x02 → decode ⟨w, payload⟩ = .ok (.send payload)) ∧
  ∀ (s : State) (B : List Byte),
    (s.fatalCause ≠ none → exec (.send B) s = .next s) ∧
    (s.fatalCause = none →
      (s.params.payloadMax < B.length ∨ 0xFFFE < (B.length + s.params.chunkSize - 1) / s.params.chunkSize →
        exec (.send B) s = .next { s with badcmd := true }) ∧
      (B.length ≤ s.params.payloadMax → (B.length + s.params.chunkSize - 1) / s.params.chunkSize ≤ 0xFFFE →
        ∀ pks pairs, pks = dataPackets B s.params.chunkSize → pairs = serialize (newTransmission pks false) →
          (s.txq.length + 3 * pairs.length ≤ s.params.txqCap →
            exec (.send B) s = .next { s with
              orig := some pks, txq := s.txq ++ (encodeStream pairs s.txClock).1,
              txClock := (encodeStream pairs s.txClock).2 }) ∧
          (s.params.txqCap < s.txq.length + 3 * pairs.length →
            exec (.send B) s = .next { s with
              orig := some pks, diag := { s.diag with txDrops := s.diag.txDrops + 1 } })))

/-- R200, R201: the Packets of a payload carry its consecutive chunks, with ids 1..N. -/
def Obligations.PacketsCarryConsecutiveChunks : Prop :=
  ∀ (B : List Byte) (C : Nat), 1 ≤ C →
    (dataPackets B C).length = (B.length + C - 1) / C ∧
    (dataPackets B C).flatMap (fun p => p.data) = B ∧
    ∀ k p, (dataPackets B C)[k]? = some p →
      p = newPacket ((B.drop (k * C)).take C) (BitVec.ofNat 16 (k + 1)) ∧
      p.data.length = min C (B.length - k * C) ∧ 1 ≤ p.data.length ∧
      ((B.length + C - 1) / C ≤ 0xFFFE → p.id.toNat = k + 1 ∧ p.id.toNat < 0xFFFF)

/-- R181, R180, R87: the fields of a new Packet, its five header bytes, and its parity over header and data. -/
def Obligations.NewPacketFields : Prop :=
  ∀ (chunk : List Byte) (id : U16), chunk.length ≤ 100 →
    (newPacket chunk id).size.toNat = chunk.length ∧ (newPacket chunk id).id = id ∧
    (newPacket chunk id).eccSize.toNat = 3 * chunk.length / 2 ∧ (newPacket chunk id).data = chunk ∧
    packetHeader (newPacket chunk id) =
      [0x00, BitVec.ofNat 8 chunk.length, id.extractLsb' 8 8, id.extractLsb' 0 8,
        BitVec.ofNat 8 (3 * chunk.length / 2)] ∧
    (newPacket chunk id).ecc = rsEncode (packetHeader (newPacket chunk id) ++ chunk) (3 * chunk.length / 2)

/-- R204, R88: in a serialized Transmission the flagged pairs are SOT, then SOH and SOTX for each Packet, then EOT. -/
def Obligations.ControlFlagsOfAFrame : Prop :=
  ∀ t : Transmission,
    (serialize t).filter (fun p => p.2) =
      (0x16, true) :: t.packets.flatMap (fun _ => [(0x01, true), (0x02, true)]) ++ [(0x04, true)]

/-- R216: the length of a data frame in symbols. -/
def Obligations.DataFrameLength : Prop :=
  ∀ (B : List Byte) (C : Nat) (c : Bool), 1 ≤ C →
    (frameSymbols (newTransmission (dataPackets B C) false) c).length =
      3 * (9 + B.length / C * (7 + C + 3 * C / 2) +
        if 0 < B.length % C then 7 + B.length % C + 3 * (B.length % C) / 2 else 0)

/-! ### The Frame Synchronizer -/

/-- R150 to R154: the synchronizer answers the first Start of the buffer and the last End aligned to it, or that the
frame is incomplete. -/
def Obligations.SyncFindsFirstStartAndLastEnd : Prop :=
  ∀ (buf : List Nibble),
    let win := fun i => (buf.drop i).take 3
    let start := fun i => win i = [0x0, 0xD, 0x5] ∨ win i = [0x8, 0x5, 0xD]
    let fin := fun s j => j + 3 ≤ buf.length ∧ s + 3 ≤ j ∧ (j - s) % 3 = 0 ∧
      (win j = [0x0, 0x9, 0x1] ∨ win j = [0x8, 0x1, 0x9])
    ∀ s e, sync buf = some (s, e) ↔
      6 ≤ buf.length ∧ s + 3 ≤ buf.length ∧ start s ∧ (∀ i, i < s → ¬ start i) ∧ fin s e ∧
        ∀ j, fin s j → j ≤ e

/-- R159: a frame recognized by the append of a symbol ends with that symbol. -/
def Obligations.FrameEndsAtTheTail : Prop :=
  ∀ (buf : List Nibble) (v : Nibble) (s e : Nat),
    sync buf = none → sync (buf ++ [v]) = some (s, e) → e + 3 = (buf ++ [v]).length

/-- R162: noise before a frame, with no Start window beginning in it, does not change the frame that is extracted. -/
def Obligations.LeadingNoiseChangesNothing : Prop :=
  ∀ (noise : List Nibble) (t : Transmission) (c : Bool),
    (∀ i, i < noise.length → isStart (noise ++ frameSymbols t c) i = false) →
    sync (noise ++ frameSymbols t c) = some (noise.length, noise.length + (frameSymbols t c).length - 3) ∧
    extractFrame (noise ++ frameSymbols t c) noise.length (noise.length + (frameSymbols t c).length - 3) =
      frameSymbols t c

/-- R158, R84: the chunks of any list of pairs hold its pairs in order, none is empty, every pair with flag 1 begins a chunk
whatever its byte, and only the first chunk can begin with flag 0; so a header-less first chunk stands exactly where the
pairs begin with flag 0. R163: the chunks of an uncorrupted frame. -/
def Obligations.ChunksOfAFrame : Prop :=
  (∀ pairs : List Pair,
    (splitData pairs).flatten = pairs ∧
    (∀ chunk ∈ splitData pairs, chunk ≠ [] ∧ ∀ p ∈ chunk.tail, p.2 = false) ∧
    (∀ chunk ∈ (splitData pairs).tail, ∃ b, chunk.head? = some (b, true))) ∧
  ∀ (t : Transmission) (c : Bool),
    splitData (decodeStream (frameSymbols t c)) =
      ((0x16, true) :: plain (transmissionHeader t)) ::
        t.packets.flatMap (fun p =>
          [(0x01, true) :: plain (packetHeader p), (0x02, true) :: plain (p.data ++ p.ecc)]) ++
        [[(0x04, true)]]

/-! ### The Reed-Solomon code -/

/-- R171: the inverse of every nonzero field element, and the order of α. -/
def Obligations.FieldInverses : Prop :=
  (∀ a : Byte, a ≠ 0 → gmul a (ginv a) = 1) ∧ gpow alpha 255 = 1 ∧ ∀ k, 0 < k → k < 255 → gpow alpha k ≠ 1

/-- R173: the shift register leaves the remainder of m(x)·x^P divided by g_P(x), and the systematic codeword is divisible
by g_P(x). -/
def Obligations.ParityMakesACodeword : Prop :=
  ∀ (msg : List Byte) (P : Nat),
    (rsEncode msg P).length = P ∧
    rsEncode msg P = polyRem (msg ++ List.replicate P 0) P ∧
    isCodeword (msg ++ rsEncode msg P) P = true

/-- R172, R173: the codewords for g_P are the words whose polynomial vanishes at α^0 to α^(P-1). -/
def Obligations.CodewordsVanishAtTheRoots : Prop :=
  ∀ (c : List Byte) (P : Nat), P ≤ 255 →
    (isCodeword c P = true ↔ ∀ j, j < P → polyEval c (gpow alpha j) = 0)

/-- R175, R176: `rs_decode` answers a word and a count exactly when the word is a codeword of the same length within
floor(P / 2) of the received word, and the count is the distance. So it answers at most one, and Unrecoverable when there
is none. -/
def Obligations.DecodingIsBoundedDistance : Prop :=
  ∀ (r c : List Byte) (P n : Nat),
    rsDecode r P = some (c, n) ↔
      r.length ≤ 255 ∧ c.length = r.length ∧ isCodeword c P = true ∧ hamming c r = n ∧ n ≤ P / 2

/-- R186: up to t errors anywhere in a Packet's codeword are corrected, and counted. -/
def Obligations.PacketErrorsAreCorrected : Prop :=
  ∀ (chunk : List Byte) (id : U16) (hdr data ecc cw : List Byte), chunk.length ≤ 100 →
    cw = packetHeader (newPacket chunk id) ++ chunk ++ (newPacket chunk id).ecc →
    hdr.length = 5 → data.length = chunk.length → ecc.length = 3 * chunk.length / 2 →
    hamming cw (hdr ++ data ++ ecc) ≤ 3 * chunk.length / 2 / 2 →
    correctPacket hdr data ecc = some (cw, hamming cw (hdr ++ data ++ ecc))

/-- R183: the parity of a Transmission header, with the rows of the rule's table. -/
def Obligations.HeaderParityTable : Prop :=
  (∀ tp : U16, headerParity tp = rsEncode [tp.extractLsb' 8 8, tp.extractLsb' 0 8] 4) ∧
  headerParity 0x0000 = [0x00, 0x00, 0x00, 0x00] ∧
  headerParity 0x0001 = [0x0F, 0x36, 0x78, 0x40] ∧
  headerParity 0x0002 = [0x1E, 0x6C, 0xF0, 0x80] ∧
  headerParity 0x0003 = [0x11, 0x5A, 0x88, 0xC0] ∧
  headerParity 0x0100 = [0x63, 0x57, 0xD2, 0xE7] ∧
  headerParity 0xFFFE = [0xD8, 0x6E, 0xC4, 0x73]

/-! ### Parsing a frame -/

/-- R205, R206: the header checks of a frame, in order. -/
def Obligations.HeaderChecksOfAFrame : Prop :=
  ∀ (frame : List Nibble) (d : Diag),
    (splitData (decodeStream frame) = [] → deserialize frame d = (d, .fatal .headerAbsent)) ∧
    (∀ h cs, splitData (decodeStream frame) = h :: cs →
      (h.head? ≠ some (0x16, true) → deserialize frame d = (d, .fatal .headerAbsent)) ∧
      (h.head? = some (0x16, true) → h.length ≠ 8 → deserialize frame d = (d, .loss .headerLength)) ∧
      (∀ p0 p1 p2 p3 p4 p5 p6 p7, h.head? = some (0x16, true) → h = [p0, p1, p2, p3, p4, p5, p6, p7] →
        (rsDecode [p2.1, p3.1, p4.1, p5.1, p6.1, p7.1] 4 = none →
          deserialize frame d = (d, .loss .headerParity)) ∧
        (∀ c n, rsDecode [p2.1, p3.1, p4.1, p5.1, p6.1, p7.1] 4 = some (c, n) →
          (∀ d', walkChunks cs d [] = (d', none) → deserialize frame d = (d', .fatal .reservedId)) ∧
          (∀ d' pk, walkChunks cs d [] = (d', some pk) →
            deserialize frame d = (d', .ok (p1.1.getLsbD 0) (c.getD 0 0 ++ c.getD 1 0) pk)))))

/-- R208, R209: which of the three outcomes a header chunk and a body chunk have. `passes` is every check of R208 before the
id. A Packet is recovered exactly when they pass and the corrected id is not 0xFFFF; its id, data and error count are then
those of the corrected codeword. The reserved id is reported exactly when they pass and the corrected id is 0xFFFF. In every
other case the pair fails. -/
def Obligations.PacketChecks : Prop :=
  ∀ hc bc : Chunk,
    let passes := fun (h0 h1 h2 h3 h4 : Byte) (c : List Byte) (n : Nat) =>
      hc.tail.map (fun p => p.1) = [h0, h1, h2, h3, h4] ∧
      bc.tail.length = (h0 ++ h1 : U16).toNat + h4.toNat ∧
      5 + (h0 ++ h1 : U16).toNat + h4.toNat ≤ 255 ∧
      rsDecode ([h0, h1, h2, h3, h4] ++ bc.tail.map (fun p => p.1)) h4.toNat = some (c, n) ∧
      (c.getD 0 0 ++ c.getD 1 0 : U16) = h0 ++ h1 ∧ c.getD 4 0 = h4
    (∀ r : Recovered, parsePacket hc bc = .recovered r ↔
      ∃ h0 h1 h2 h3 h4 c n, passes h0 h1 h2 h3 h4 c n ∧ (c.getD 2 0 ++ c.getD 3 0 : U16) ≠ 0xFFFF ∧
        r = ⟨c.getD 2 0 ++ c.getD 3 0, (c.drop 5).take (h0 ++ h1 : U16).toNat, n⟩) ∧
    (parsePacket hc bc = .reservedId ↔
      ∃ h0 h1 h2 h3 h4 c n, passes h0 h1 h2 h3 h4 c n ∧ (c.getD 2 0 ++ c.getD 3 0 : U16) = 0xFFFF) ∧
    (parsePacket hc bc = .failed ↔ ¬ ∃ h0 h1 h2 h3 h4 c n, passes h0 h1 h2 h3 h4 c n)

/-- R207, R208, R209: one step of the chunk walk: a pair that fails counts and is passed over, one that gives a Packet
counts its errors, id 0xFFFF ends the walk with the counters as they are, and any other chunk is skipped uncounted. -/
def Obligations.ChunkWalkSteps : Prop :=
  (∀ d pk, walkChunks [] d pk = (d, some pk)) ∧
  (∀ c d pk, walkChunks [c] d pk = (d, some pk)) ∧
  ∀ (hc bc : Chunk) (rest : List Chunk) (d : Diag) (pk : List Recovered),
    (¬ (hc.head? = some (0x01, true) ∧ bc.head? = some (0x02, true)) →
      walkChunks (hc :: bc :: rest) d pk = walkChunks (bc :: rest) d pk) ∧
    (hc.head? = some (0x01, true) → bc.head? = some (0x02, true) →
      (parsePacket hc bc = .failed →
        walkChunks (hc :: bc :: rest) d pk =
          walkChunks rest { d with pktsUnrecoverable := d.pktsUnrecoverable + 1 } pk) ∧
      (parsePacket hc bc = .reservedId → walkChunks (hc :: bc :: rest) d pk = (d, none)) ∧
      (∀ r, parsePacket hc bc = .recovered r →
        walkChunks (hc :: bc :: rest) d pk =
          walkChunks rest { d with errorsCorrected := d.errorsCorrected + BitVec.ofNat 32 r.nerr } (pk ++ [r])))

/-- R215: the data Transmission of any payload, encoded from either clock state and parsed with no errors, gives back
Packets 1..N with the chunks of the payload and no error counted. -/
def Obligations.DataFrameRoundTrip : Prop :=
  ∀ (B : List Byte) (C : Nat) (c : Bool) (d : Diag), 1 ≤ C → C ≤ 100 → (B.length + C - 1) / C ≤ 0xFFFE →
    ∃ pk, deserialize (frameSymbols (newTransmission (dataPackets B C) false) c) d =
        (d, .ok false (BitVec.ofNat 16 ((B.length + C - 1) / C)) pk) ∧
      pk.length = (B.length + C - 1) / C ∧
      pk.flatMap (fun r => r.data) = B ∧
      ∀ k r, pk[k]? = some r →
        r.id = BitVec.ofNat 16 (k + 1) ∧ r.data = (B.drop (k * C)).take C ∧ r.nerr = 0

/-- R210, R64, R89: the Enquiry for a list of missing ids has ceil(len / per) Packets, per = max(1, floor(C / 2)), and the
k-th carries its group of ids, each as its low byte and then its high byte, under the id k + 1. R211: sent and parsed with
no errors, it requests exactly those ids, in that order. -/
def Obligations.EnquiryRoundTrip : Prop :=
  ∀ (missing : List Nat) (C : Nat),
    (let per := max 1 (C / 2)
     (enquiry missing C).isEnquiry = true ∧
     (enquiry missing C).packets.length = (missing.length + per - 1) / per ∧
     (enquiry missing C).totalPackets = BitVec.ofNat 16 ((missing.length + per - 1) / per) ∧
     (enquiry missing C).hecc = headerParity (enquiry missing C).totalPackets ∧
     ∀ k p, (enquiry missing C).packets[k]? = some p →
       p = newPacket (((missing.drop (k * per)).take per).flatMap (fun i =>
         [(BitVec.ofNat 16 i).extractLsb' 0 8, (BitVec.ofNat 16 i).extractLsb' 8 8])) (BitVec.ofNat 16 (k + 1))) ∧
    ∀ (c : Bool) (d : Diag), 1 ≤ C → C ≤ 100 → missing.length ≤ 0xFFFE → (∀ k ∈ missing, k ≤ 0xFFFE) →
      ∃ tp pk, deserialize (frameSymbols (enquiry missing C) c) d = (d, .ok true tp pk) ∧
        requestedIds pk = missing.map (BitVec.ofNat 16)

/-! ### The ARQ Controller -/

/-- R239, R240, R241, R275: what a recognized frame does to the state, by the outcome of its parse. -/
def Obligations.FrameOutcomes : Prop :=
  ∀ (s : State) (frame : List Nibble) (d : Diag),
    (∀ c, deserialize frame s.diag = (d, .fatal c) →
      processFrame frame s =
        ({ s with diag := d, fatalCause := some c, out := s.out ++ [.halted c] }, false)) ∧
    (∀ c, deserialize frame s.diag = (d, .loss c) →
      processFrame frame s =
        ({ s with diag := { d with frameLosses := d.frameLosses + 1 }, lastLoss := some c }, false)) ∧
    (∀ isEnq tp pk s1 s2, deserialize frame s.diag = (d, .ok isEnq tp pk) →
      s1 = { s with diag := { d with framesOk := d.framesOk + 1 }, timer := 0 } →
      s2 = (if isEnq then handleEnquiry pk s1 else handleData tp pk s1) →
      (s2.fatalCause ≠ none → processFrame frame s = (s2, false)) ∧
      (s2.fatalCause = none → s2.xferActive = false → processFrame frame s = (s2, true)) ∧
      (s2.fatalCause = none → s2.xferActive = true → processFrame frame s = (gapCheck s2, true)))

/-- R243: a data frame with no transfer open raises FATAL 3 or 4, or opens a transfer on an empty table; with one open its
total_packets is ignored. R244, R245: then its Packets are taken in order and the state is Normal. -/
def Obligations.DataFrameOpensATransfer : Prop :=
  ∀ (s : State) (tp : U16) (pk : List Recovered),
    (s.xferActive = false → tp = 0xFFFF →
      handleData tp pk s =
        { s with fatalCause := some .totalReserved, out := s.out ++ [.halted .totalReserved] }) ∧
    (s.xferActive = false → tp ≠ 0xFFFF → s.params.maxPacketsRx < tp.toNat →
      handleData tp pk s =
        { s with fatalCause := some .totalTooLarge, out := s.out ++ [.halted .totalTooLarge] }) ∧
    (s.xferActive = false → tp ≠ 0xFFFF → tp.toNat ≤ s.params.maxPacketsRx →
      handleData tp pk s =
        { pk.foldl fillSlot { s with xferActive := true, xferTotal := tp, ctab := [] } with arqState := .normal }) ∧
    (s.xferActive = true → handleData tp pk s = { pk.foldl fillSlot s with arqState := .normal })

/-- R244, R76: a recovered Packet fills its slot if the slot is Empty and the id is in 1..N; a Filled slot keeps its first
copy; an id outside 1..N is counted and changes no slot. The canonical form of the table is the model's (log 8). -/
def Obligations.FirstCopyWins : Prop :=
  ∀ (s : State) (r : Recovered), s.ctab.wf = true →
    (¬ (1 ≤ r.id.toNat ∧ r.id.toNat ≤ s.xferTotal.toNat) →
      fillSlot s r = { s with diag := { s.diag with pktsDiscarded := s.diag.pktsDiscarded + 1 } }) ∧
    (1 ≤ r.id.toNat → r.id.toNat ≤ s.xferTotal.toNat →
      fillSlot s r = { s with ctab := (fillSlot s r).ctab } ∧ (fillSlot s r).ctab.wf = true ∧
      (∀ k, k ≠ r.id.toNat → (fillSlot s r).ctab.get k = s.ctab.get k) ∧
      (s.ctab.get r.id.toNat = none → (fillSlot s r).ctab.get r.id.toNat = some r.data) ∧
      (∀ old, s.ctab.get r.id.toNat = some old → (fillSlot s r).ctab = s.ctab))

/-- R76: the state after filling does not depend on the order in which Packets with different ids arrive. The canonical
form of the table is the model's (log 8). -/
def Obligations.ArrivalOrderDoesNotMatter : Prop :=
  ∀ (s : State) (pk pk' : List Recovered), s.ctab.wf = true → pk.Perm pk' →
    pk.Pairwise (fun a b => a.id ≠ b.id) →
    pk.foldl fillSlot s = pk'.foldl fillSlot s

/-- R246, R247, R250: with no Empty slot in 1..N the gap check emits the slots' data in ascending order of id and closes
the transfer. -/
def Obligations.CompleteTransferEmitsThePayload : Prop :=
  ∀ (s : State) (d : Nat → List Byte),
    (∀ k, 1 ≤ k → k ≤ s.xferTotal.toNat → s.ctab.get k = some (d k)) →
    gapCheck s = { s with
      out := s.out ++ [.payload ((List.range s.xferTotal.toNat).flatMap (fun k => d (k + 1)))],
      ctab := [], xferActive := false, xferTotal := 0, arqState := .normal, enq := none }

/-- R246, R248, R250, R237: with Empty slots the gap check stores and queues an Enquiry for exactly those ids, in
ascending order, and waits. -/
def Obligations.GapsAreEnquired : Prop :=
  ∀ (s : State) (missing : List Nat) (pairs : List Pair),
    missing.Pairwise (· < ·) →
    (∀ k, k ∈ missing ↔ 1 ≤ k ∧ k ≤ s.xferTotal.toNat ∧ s.ctab.get k = none) →
    missing ≠ [] → pairs = serialize (enquiry missing s.params.chunkSize) →
    (s.txq.length + 3 * pairs.length ≤ s.params.txqCap →
      gapCheck s = { s with
        enq := some pairs, arqState := .waitingForResponse, txq := s.txq ++ (encodeStream pairs s.txClock).1,
        txClock := (encodeStream pairs s.txClock).2, diag := { s.diag with enqSent := s.diag.enqSent + 1 } }) ∧
    (s.params.txqCap < s.txq.length + 3 * pairs.length →
      gapCheck s = { s with
        enq := some pairs, arqState := .waitingForResponse,
        diag := { s.diag with enqSent := s.diag.enqSent + 1, txDrops := s.diag.txDrops + 1 } })

/-- R211: each Packet of a received Enquiry requests the little-endian ids of its data, an odd trailing byte not used. R242,
R212, R237: the Enquiry is answered with the stored Packets it names, in their order and unchanged; with no match or no
original nothing happens. -/
def Obligations.EnquiriesAreAnsweredFromTheOriginal : Prop :=
  (∀ pk : List Recovered,
    requestedIds pk = pk.flatMap (fun r =>
      (List.range (r.data.length / 2)).map (fun k => r.data.getD (2 * k + 1) 0 ++ r.data.getD (2 * k) 0))) ∧
  ∀ (s : State) (pk : List Recovered),
    (s.orig = none → handleEnquiry pk s = s) ∧
    (∀ pks rep, s.orig = some pks → rep = pks.filter (fun p => decide (p.id ∈ requestedIds pk)) →
      (rep = [] → handleEnquiry pk s = s) ∧
      (∀ pairs, rep ≠ [] →
        pairs = serialize ⟨false, BitVec.ofNat 16 rep.length, headerParity (BitVec.ofNat 16 rep.length), rep⟩ →
        (s.txq.length + 3 * pairs.length ≤ s.params.txqCap →
          handleEnquiry pk s = { s with
            txq := s.txq ++ (encodeStream pairs s.txClock).1, txClock := (encodeStream pairs s.txClock).2,
            diag := { s.diag with repliesSent := s.diag.repliesSent + 1 } }) ∧
        (s.params.txqCap < s.txq.length + 3 * pairs.length →
          handleEnquiry pk s = { s with
            diag := { s.diag with repliesSent := s.diag.repliesSent + 1, txDrops := s.diag.txDrops + 1 } })))

/-- R215, R256, R247: a receiver with no transfer open and an empty buffer, fed the symbols of a data frame one a CYCLE,
completes every CYCLE and emits exactly the payload, whatever the payload, the sender's CHUNK_SIZE and the clock phase, if
the frame fits its buffer and its table. -/
def Obligations.ReceiverDeliversThePayload : Prop :=
  ∀ (s : State) (B : List Byte) (C : Nat) (c : Bool), 1 ≤ C → C ≤ 100 →
    (B.length + C - 1) / C ≤ 0xFFFE → (B.length + C - 1) / C ≤ s.params.maxPacketsRx →
    (frameSymbols (newTransmission (dataPackets B C) false) c).length ≤ s.params.rxbufCap →
    s.fatalCause = none → s.xferActive = false → s.rxbuf = [] → s.rxClock = !c →
    ∃ t, execAll (receiveAll (frameSymbols (newTransmission (dataPackets B C) false) c)) s = .next t ∧
      t.out = s.out ++ [.payload B] ∧ t.xferActive = false ∧ t.rxbuf = [] ∧ t.fatalCause = none ∧ t.timer = 0 ∧
      t.diag.framesOk = s.diag.framesOk + 1 ∧ t.diag.pktsUnrecoverable = s.diag.pktsUnrecoverable ∧
      t.diag.frameLosses = s.diag.frameLosses

/-! ### Invariants -/

/-- R51, R254, R22: every step from a state of the invariant gives a state of the invariant. -/
def Obligations.StepKeepsTheInvariant : Prop :=
  ∀ s t : State, s.Inv → step s = .next t → t.Inv

/-- R51: the invariant holds after reset, for every instantiation and whatever is offered or was emitted. -/
def Obligations.InvariantHoldsAfterReset : Prop :=
  ∀ (p : Params) (inbox : List Event) (out : List Output), (State.resetWith p inbox out).Inv
end

