-- ==== Sys2Proof/Laws/State.lean ====
section
/-! SUPPORT. One lemma per field for each update of the state, true by definition, so that no proof unfolds a record
update. -/

namespace Sys2Proof.Machine

/-! ### emit -/

@[simp] theorem emit_params (o : Output) (s : State) : (emit o s).params = s.params := rfl
@[simp] theorem emit_txClock (o : Output) (s : State) : (emit o s).txClock = s.txClock := rfl
@[simp] theorem emit_txLastWrite (o : Output) (s : State) : (emit o s).txLastWrite = s.txLastWrite := rfl
@[simp] theorem emit_txPending (o : Output) (s : State) : (emit o s).txPending = s.txPending := rfl
@[simp] theorem emit_txq (o : Output) (s : State) : (emit o s).txq = s.txq := rfl
@[simp] theorem emit_txCnt (o : Output) (s : State) : (emit o s).txCnt = s.txCnt := rfl
@[simp] theorem emit_rxClock (o : Output) (s : State) : (emit o s).rxClock = s.rxClock := rfl
@[simp] theorem emit_rxbuf (o : Output) (s : State) : (emit o s).rxbuf = s.rxbuf := rfl
@[simp] theorem emit_arqState (o : Output) (s : State) : (emit o s).arqState = s.arqState := rfl
@[simp] theorem emit_xferActive (o : Output) (s : State) : (emit o s).xferActive = s.xferActive := rfl
@[simp] theorem emit_xferTotal (o : Output) (s : State) : (emit o s).xferTotal = s.xferTotal := rfl
@[simp] theorem emit_ctab (o : Output) (s : State) : (emit o s).ctab = s.ctab := rfl
@[simp] theorem emit_timer (o : Output) (s : State) : (emit o s).timer = s.timer := rfl
@[simp] theorem emit_orig (o : Output) (s : State) : (emit o s).orig = s.orig := rfl
@[simp] theorem emit_enq (o : Output) (s : State) : (emit o s).enq = s.enq := rfl
@[simp] theorem emit_fatalCause (o : Output) (s : State) : (emit o s).fatalCause = s.fatalCause := rfl
@[simp] theorem emit_badcmd (o : Output) (s : State) : (emit o s).badcmd = s.badcmd := rfl
@[simp] theorem emit_result (o : Output) (s : State) : (emit o s).result = s.result := rfl
@[simp] theorem emit_lastLoss (o : Output) (s : State) : (emit o s).lastLoss = s.lastLoss := rfl
@[simp] theorem emit_diag (o : Output) (s : State) : (emit o s).diag = s.diag := rfl
@[simp] theorem emit_inbox (o : Output) (s : State) : (emit o s).inbox = s.inbox := rfl
@[simp] theorem emit_out (o : Output) (s : State) : (emit o s).out = s.out ++ [o] := rfl

/-! ### raiseFatal -/

@[simp] theorem raiseFatal_params (c : FatalCause) (s : State) : (raiseFatal c s).params = s.params := rfl
@[simp] theorem raiseFatal_txClock (c : FatalCause) (s : State) : (raiseFatal c s).txClock = s.txClock := rfl
@[simp] theorem raiseFatal_txLastWrite (c : FatalCause) (s : State) : (raiseFatal c s).txLastWrite = s.txLastWrite := rfl
@[simp] theorem raiseFatal_txPending (c : FatalCause) (s : State) : (raiseFatal c s).txPending = s.txPending := rfl
@[simp] theorem raiseFatal_txq (c : FatalCause) (s : State) : (raiseFatal c s).txq = s.txq := rfl
@[simp] theorem raiseFatal_txCnt (c : FatalCause) (s : State) : (raiseFatal c s).txCnt = s.txCnt := rfl
@[simp] theorem raiseFatal_rxClock (c : FatalCause) (s : State) : (raiseFatal c s).rxClock = s.rxClock := rfl
@[simp] theorem raiseFatal_rxbuf (c : FatalCause) (s : State) : (raiseFatal c s).rxbuf = s.rxbuf := rfl
@[simp] theorem raiseFatal_arqState (c : FatalCause) (s : State) : (raiseFatal c s).arqState = s.arqState := rfl
@[simp] theorem raiseFatal_xferActive (c : FatalCause) (s : State) : (raiseFatal c s).xferActive = s.xferActive := rfl
@[simp] theorem raiseFatal_xferTotal (c : FatalCause) (s : State) : (raiseFatal c s).xferTotal = s.xferTotal := rfl
@[simp] theorem raiseFatal_ctab (c : FatalCause) (s : State) : (raiseFatal c s).ctab = s.ctab := rfl
@[simp] theorem raiseFatal_timer (c : FatalCause) (s : State) : (raiseFatal c s).timer = s.timer := rfl
@[simp] theorem raiseFatal_orig (c : FatalCause) (s : State) : (raiseFatal c s).orig = s.orig := rfl
@[simp] theorem raiseFatal_enq (c : FatalCause) (s : State) : (raiseFatal c s).enq = s.enq := rfl
@[simp] theorem raiseFatal_fatalCause (c : FatalCause) (s : State) : (raiseFatal c s).fatalCause = some c := rfl
@[simp] theorem raiseFatal_badcmd (c : FatalCause) (s : State) : (raiseFatal c s).badcmd = s.badcmd := rfl
@[simp] theorem raiseFatal_result (c : FatalCause) (s : State) : (raiseFatal c s).result = s.result := rfl
@[simp] theorem raiseFatal_lastLoss (c : FatalCause) (s : State) : (raiseFatal c s).lastLoss = s.lastLoss := rfl
@[simp] theorem raiseFatal_diag (c : FatalCause) (s : State) : (raiseFatal c s).diag = s.diag := rfl
@[simp] theorem raiseFatal_inbox (c : FatalCause) (s : State) : (raiseFatal c s).inbox = s.inbox := rfl
@[simp] theorem raiseFatal_out (c : FatalCause) (s : State) : (raiseFatal c s).out = s.out ++ [.halted c] := rfl

/-! ### loss -/

@[simp] theorem loss_params (c : LossCause) (s : State) : (loss c s).params = s.params := rfl
@[simp] theorem loss_txClock (c : LossCause) (s : State) : (loss c s).txClock = s.txClock := rfl
@[simp] theorem loss_txLastWrite (c : LossCause) (s : State) : (loss c s).txLastWrite = s.txLastWrite := rfl
@[simp] theorem loss_txPending (c : LossCause) (s : State) : (loss c s).txPending = s.txPending := rfl
@[simp] theorem loss_txq (c : LossCause) (s : State) : (loss c s).txq = s.txq := rfl
@[simp] theorem loss_txCnt (c : LossCause) (s : State) : (loss c s).txCnt = s.txCnt := rfl
@[simp] theorem loss_rxClock (c : LossCause) (s : State) : (loss c s).rxClock = s.rxClock := rfl
@[simp] theorem loss_rxbuf (c : LossCause) (s : State) : (loss c s).rxbuf = s.rxbuf := rfl
@[simp] theorem loss_arqState (c : LossCause) (s : State) : (loss c s).arqState = s.arqState := rfl
@[simp] theorem loss_xferActive (c : LossCause) (s : State) : (loss c s).xferActive = s.xferActive := rfl
@[simp] theorem loss_xferTotal (c : LossCause) (s : State) : (loss c s).xferTotal = s.xferTotal := rfl
@[simp] theorem loss_ctab (c : LossCause) (s : State) : (loss c s).ctab = s.ctab := rfl
@[simp] theorem loss_timer (c : LossCause) (s : State) : (loss c s).timer = s.timer := rfl
@[simp] theorem loss_orig (c : LossCause) (s : State) : (loss c s).orig = s.orig := rfl
@[simp] theorem loss_enq (c : LossCause) (s : State) : (loss c s).enq = s.enq := rfl
@[simp] theorem loss_fatalCause (c : LossCause) (s : State) : (loss c s).fatalCause = s.fatalCause := rfl
@[simp] theorem loss_badcmd (c : LossCause) (s : State) : (loss c s).badcmd = s.badcmd := rfl
@[simp] theorem loss_result (c : LossCause) (s : State) : (loss c s).result = s.result := rfl
@[simp] theorem loss_lastLoss (c : LossCause) (s : State) : (loss c s).lastLoss = some c := rfl
@[simp] theorem loss_diag (c : LossCause) (s : State) : (loss c s).diag = { s.diag with frameLosses := s.diag.frameLosses + 1 } := rfl
@[simp] theorem loss_inbox (c : LossCause) (s : State) : (loss c s).inbox = s.inbox := rfl
@[simp] theorem loss_out (c : LossCause) (s : State) : (loss c s).out = s.out := rfl

/-! ### success -/

@[simp] theorem success_params (s : State) : (success s).params = s.params := rfl
@[simp] theorem success_txClock (s : State) : (success s).txClock = s.txClock := rfl
@[simp] theorem success_txLastWrite (s : State) : (success s).txLastWrite = s.txLastWrite := rfl
@[simp] theorem success_txPending (s : State) : (success s).txPending = s.txPending := rfl
@[simp] theorem success_txq (s : State) : (success s).txq = s.txq := rfl
@[simp] theorem success_txCnt (s : State) : (success s).txCnt = s.txCnt := rfl
@[simp] theorem success_rxClock (s : State) : (success s).rxClock = s.rxClock := rfl
@[simp] theorem success_rxbuf (s : State) : (success s).rxbuf = s.rxbuf := rfl
@[simp] theorem success_arqState (s : State) : (success s).arqState = s.arqState := rfl
@[simp] theorem success_xferActive (s : State) : (success s).xferActive = s.xferActive := rfl
@[simp] theorem success_xferTotal (s : State) : (success s).xferTotal = s.xferTotal := rfl
@[simp] theorem success_ctab (s : State) : (success s).ctab = s.ctab := rfl
@[simp] theorem success_timer (s : State) : (success s).timer = 0 := rfl
@[simp] theorem success_orig (s : State) : (success s).orig = s.orig := rfl
@[simp] theorem success_enq (s : State) : (success s).enq = s.enq := rfl
@[simp] theorem success_fatalCause (s : State) : (success s).fatalCause = s.fatalCause := rfl
@[simp] theorem success_badcmd (s : State) : (success s).badcmd = s.badcmd := rfl
@[simp] theorem success_result (s : State) : (success s).result = s.result := rfl
@[simp] theorem success_lastLoss (s : State) : (success s).lastLoss = s.lastLoss := rfl
@[simp] theorem success_diag (s : State) : (success s).diag = { s.diag with framesOk := s.diag.framesOk + 1 } := rfl
@[simp] theorem success_inbox (s : State) : (success s).inbox = s.inbox := rfl
@[simp] theorem success_out (s : State) : (success s).out = s.out := rfl

/-! ### setResult -/

@[simp] theorem setResult_params (v : Word) (s : State) : (setResult v s).params = s.params := rfl
@[simp] theorem setResult_txClock (v : Word) (s : State) : (setResult v s).txClock = s.txClock := rfl
@[simp] theorem setResult_txLastWrite (v : Word) (s : State) : (setResult v s).txLastWrite = s.txLastWrite := rfl
@[simp] theorem setResult_txPending (v : Word) (s : State) : (setResult v s).txPending = s.txPending := rfl
@[simp] theorem setResult_txq (v : Word) (s : State) : (setResult v s).txq = s.txq := rfl
@[simp] theorem setResult_txCnt (v : Word) (s : State) : (setResult v s).txCnt = s.txCnt := rfl
@[simp] theorem setResult_rxClock (v : Word) (s : State) : (setResult v s).rxClock = s.rxClock := rfl
@[simp] theorem setResult_rxbuf (v : Word) (s : State) : (setResult v s).rxbuf = s.rxbuf := rfl
@[simp] theorem setResult_arqState (v : Word) (s : State) : (setResult v s).arqState = s.arqState := rfl
@[simp] theorem setResult_xferActive (v : Word) (s : State) : (setResult v s).xferActive = s.xferActive := rfl
@[simp] theorem setResult_xferTotal (v : Word) (s : State) : (setResult v s).xferTotal = s.xferTotal := rfl
@[simp] theorem setResult_ctab (v : Word) (s : State) : (setResult v s).ctab = s.ctab := rfl
@[simp] theorem setResult_timer (v : Word) (s : State) : (setResult v s).timer = s.timer := rfl
@[simp] theorem setResult_orig (v : Word) (s : State) : (setResult v s).orig = s.orig := rfl
@[simp] theorem setResult_enq (v : Word) (s : State) : (setResult v s).enq = s.enq := rfl
@[simp] theorem setResult_fatalCause (v : Word) (s : State) : (setResult v s).fatalCause = s.fatalCause := rfl
@[simp] theorem setResult_badcmd (v : Word) (s : State) : (setResult v s).badcmd = s.badcmd := rfl
@[simp] theorem setResult_result (v : Word) (s : State) : (setResult v s).result = v := rfl
@[simp] theorem setResult_lastLoss (v : Word) (s : State) : (setResult v s).lastLoss = s.lastLoss := rfl
@[simp] theorem setResult_diag (v : Word) (s : State) : (setResult v s).diag = s.diag := rfl
@[simp] theorem setResult_inbox (v : Word) (s : State) : (setResult v s).inbox = s.inbox := rfl
@[simp] theorem setResult_out (v : Word) (s : State) : (setResult v s).out = s.out := rfl

/-! ### offerEvent -/

@[simp] theorem offerEvent_params (e : Event) (s : State) : (offerEvent e s).params = s.params := rfl
@[simp] theorem offerEvent_txClock (e : Event) (s : State) : (offerEvent e s).txClock = s.txClock := rfl
@[simp] theorem offerEvent_txLastWrite (e : Event) (s : State) : (offerEvent e s).txLastWrite = s.txLastWrite := rfl
@[simp] theorem offerEvent_txPending (e : Event) (s : State) : (offerEvent e s).txPending = s.txPending := rfl
@[simp] theorem offerEvent_txq (e : Event) (s : State) : (offerEvent e s).txq = s.txq := rfl
@[simp] theorem offerEvent_txCnt (e : Event) (s : State) : (offerEvent e s).txCnt = s.txCnt := rfl
@[simp] theorem offerEvent_rxClock (e : Event) (s : State) : (offerEvent e s).rxClock = s.rxClock := rfl
@[simp] theorem offerEvent_rxbuf (e : Event) (s : State) : (offerEvent e s).rxbuf = s.rxbuf := rfl
@[simp] theorem offerEvent_arqState (e : Event) (s : State) : (offerEvent e s).arqState = s.arqState := rfl
@[simp] theorem offerEvent_xferActive (e : Event) (s : State) : (offerEvent e s).xferActive = s.xferActive := rfl
@[simp] theorem offerEvent_xferTotal (e : Event) (s : State) : (offerEvent e s).xferTotal = s.xferTotal := rfl
@[simp] theorem offerEvent_ctab (e : Event) (s : State) : (offerEvent e s).ctab = s.ctab := rfl
@[simp] theorem offerEvent_timer (e : Event) (s : State) : (offerEvent e s).timer = s.timer := rfl
@[simp] theorem offerEvent_orig (e : Event) (s : State) : (offerEvent e s).orig = s.orig := rfl
@[simp] theorem offerEvent_enq (e : Event) (s : State) : (offerEvent e s).enq = s.enq := rfl
@[simp] theorem offerEvent_fatalCause (e : Event) (s : State) : (offerEvent e s).fatalCause = s.fatalCause := rfl
@[simp] theorem offerEvent_badcmd (e : Event) (s : State) : (offerEvent e s).badcmd = s.badcmd := rfl
@[simp] theorem offerEvent_result (e : Event) (s : State) : (offerEvent e s).result = s.result := rfl
@[simp] theorem offerEvent_lastLoss (e : Event) (s : State) : (offerEvent e s).lastLoss = s.lastLoss := rfl
@[simp] theorem offerEvent_diag (e : Event) (s : State) : (offerEvent e s).diag = s.diag := rfl
@[simp] theorem offerEvent_inbox (e : Event) (s : State) : (offerEvent e s).inbox = e :: s.inbox := rfl
@[simp] theorem offerEvent_out (e : Event) (s : State) : (offerEvent e s).out = s.out := rfl

/-! ### writeSymbol -/

@[simp] theorem writeSymbol_params (w : Nibble) (s : State) : (writeSymbol w s).params = s.params := rfl
@[simp] theorem writeSymbol_txClock (w : Nibble) (s : State) : (writeSymbol w s).txClock = s.txClock := rfl
@[simp] theorem writeSymbol_txLastWrite (w : Nibble) (s : State) : (writeSymbol w s).txLastWrite = w := rfl
@[simp] theorem writeSymbol_txPending (w : Nibble) (s : State) : (writeSymbol w s).txPending = s.txPending := rfl
@[simp] theorem writeSymbol_txq (w : Nibble) (s : State) : (writeSymbol w s).txq = s.txq := rfl
@[simp] theorem writeSymbol_txCnt (w : Nibble) (s : State) : (writeSymbol w s).txCnt = 0 := rfl
@[simp] theorem writeSymbol_rxClock (w : Nibble) (s : State) : (writeSymbol w s).rxClock = s.rxClock := rfl
@[simp] theorem writeSymbol_rxbuf (w : Nibble) (s : State) : (writeSymbol w s).rxbuf = s.rxbuf := rfl
@[simp] theorem writeSymbol_arqState (w : Nibble) (s : State) : (writeSymbol w s).arqState = s.arqState := rfl
@[simp] theorem writeSymbol_xferActive (w : Nibble) (s : State) : (writeSymbol w s).xferActive = s.xferActive := rfl
@[simp] theorem writeSymbol_xferTotal (w : Nibble) (s : State) : (writeSymbol w s).xferTotal = s.xferTotal := rfl
@[simp] theorem writeSymbol_ctab (w : Nibble) (s : State) : (writeSymbol w s).ctab = s.ctab := rfl
@[simp] theorem writeSymbol_timer (w : Nibble) (s : State) : (writeSymbol w s).timer = s.timer := rfl
@[simp] theorem writeSymbol_orig (w : Nibble) (s : State) : (writeSymbol w s).orig = s.orig := rfl
@[simp] theorem writeSymbol_enq (w : Nibble) (s : State) : (writeSymbol w s).enq = s.enq := rfl
@[simp] theorem writeSymbol_fatalCause (w : Nibble) (s : State) : (writeSymbol w s).fatalCause = s.fatalCause := rfl
@[simp] theorem writeSymbol_badcmd (w : Nibble) (s : State) : (writeSymbol w s).badcmd = s.badcmd := rfl
@[simp] theorem writeSymbol_result (w : Nibble) (s : State) : (writeSymbol w s).result = s.result := rfl
@[simp] theorem writeSymbol_lastLoss (w : Nibble) (s : State) : (writeSymbol w s).lastLoss = s.lastLoss := rfl
@[simp] theorem writeSymbol_diag (w : Nibble) (s : State) : (writeSymbol w s).diag = s.diag := rfl
@[simp] theorem writeSymbol_inbox (w : Nibble) (s : State) : (writeSymbol w s).inbox = s.inbox := rfl
@[simp] theorem writeSymbol_out (w : Nibble) (s : State) : (writeSymbol w s).out = s.out ++ [.write (txByte w)] := rfl

/-! ### acceptSymbol -/

@[simp] theorem acceptSymbol_params (v : Nibble) (s : State) : (acceptSymbol v s).params = s.params := rfl
@[simp] theorem acceptSymbol_txClock (v : Nibble) (s : State) : (acceptSymbol v s).txClock = s.txClock := rfl
@[simp] theorem acceptSymbol_txLastWrite (v : Nibble) (s : State) : (acceptSymbol v s).txLastWrite = s.txLastWrite := rfl
@[simp] theorem acceptSymbol_txPending (v : Nibble) (s : State) : (acceptSymbol v s).txPending = s.txPending := rfl
@[simp] theorem acceptSymbol_txq (v : Nibble) (s : State) : (acceptSymbol v s).txq = s.txq := rfl
@[simp] theorem acceptSymbol_txCnt (v : Nibble) (s : State) : (acceptSymbol v s).txCnt = s.txCnt := rfl
@[simp] theorem acceptSymbol_rxClock (v : Nibble) (s : State) : (acceptSymbol v s).rxClock = clockBit v := rfl
@[simp] theorem acceptSymbol_rxbuf (v : Nibble) (s : State) : (acceptSymbol v s).rxbuf = s.rxbuf ++ [v] := rfl
@[simp] theorem acceptSymbol_arqState (v : Nibble) (s : State) : (acceptSymbol v s).arqState = s.arqState := rfl
@[simp] theorem acceptSymbol_xferActive (v : Nibble) (s : State) : (acceptSymbol v s).xferActive = s.xferActive := rfl
@[simp] theorem acceptSymbol_xferTotal (v : Nibble) (s : State) : (acceptSymbol v s).xferTotal = s.xferTotal := rfl
@[simp] theorem acceptSymbol_ctab (v : Nibble) (s : State) : (acceptSymbol v s).ctab = s.ctab := rfl
@[simp] theorem acceptSymbol_timer (v : Nibble) (s : State) : (acceptSymbol v s).timer = s.timer := rfl
@[simp] theorem acceptSymbol_orig (v : Nibble) (s : State) : (acceptSymbol v s).orig = s.orig := rfl
@[simp] theorem acceptSymbol_enq (v : Nibble) (s : State) : (acceptSymbol v s).enq = s.enq := rfl
@[simp] theorem acceptSymbol_fatalCause (v : Nibble) (s : State) : (acceptSymbol v s).fatalCause = s.fatalCause := rfl
@[simp] theorem acceptSymbol_badcmd (v : Nibble) (s : State) : (acceptSymbol v s).badcmd = s.badcmd := rfl
@[simp] theorem acceptSymbol_result (v : Nibble) (s : State) : (acceptSymbol v s).result = s.result := rfl
@[simp] theorem acceptSymbol_lastLoss (v : Nibble) (s : State) : (acceptSymbol v s).lastLoss = s.lastLoss := rfl
@[simp] theorem acceptSymbol_diag (v : Nibble) (s : State) : (acceptSymbol v s).diag = { s.diag with rxSymbols := s.diag.rxSymbols + 1 } := rfl
@[simp] theorem acceptSymbol_inbox (v : Nibble) (s : State) : (acceptSymbol v s).inbox = s.inbox := rfl
@[simp] theorem acceptSymbol_out (v : Nibble) (s : State) : (acceptSymbol v s).out = s.out := rfl

/-! ### overflow -/

@[simp] theorem overflow_params (s : State) : (overflow s).params = s.params := rfl
@[simp] theorem overflow_txClock (s : State) : (overflow s).txClock = s.txClock := rfl
@[simp] theorem overflow_txLastWrite (s : State) : (overflow s).txLastWrite = s.txLastWrite := rfl
@[simp] theorem overflow_txPending (s : State) : (overflow s).txPending = s.txPending := rfl
@[simp] theorem overflow_txq (s : State) : (overflow s).txq = s.txq := rfl
@[simp] theorem overflow_txCnt (s : State) : (overflow s).txCnt = s.txCnt := rfl
@[simp] theorem overflow_rxClock (s : State) : (overflow s).rxClock = s.rxClock := rfl
@[simp] theorem overflow_rxbuf (s : State) : (overflow s).rxbuf = [] := rfl
@[simp] theorem overflow_arqState (s : State) : (overflow s).arqState = s.arqState := rfl
@[simp] theorem overflow_xferActive (s : State) : (overflow s).xferActive = s.xferActive := rfl
@[simp] theorem overflow_xferTotal (s : State) : (overflow s).xferTotal = s.xferTotal := rfl
@[simp] theorem overflow_ctab (s : State) : (overflow s).ctab = s.ctab := rfl
@[simp] theorem overflow_timer (s : State) : (overflow s).timer = s.timer := rfl
@[simp] theorem overflow_orig (s : State) : (overflow s).orig = s.orig := rfl
@[simp] theorem overflow_enq (s : State) : (overflow s).enq = s.enq := rfl
@[simp] theorem overflow_fatalCause (s : State) : (overflow s).fatalCause = s.fatalCause := rfl
@[simp] theorem overflow_badcmd (s : State) : (overflow s).badcmd = s.badcmd := rfl
@[simp] theorem overflow_result (s : State) : (overflow s).result = s.result := rfl
@[simp] theorem overflow_lastLoss (s : State) : (overflow s).lastLoss = some .overflow := rfl
@[simp] theorem overflow_diag (s : State) : (overflow s).diag = { s.diag with frameLosses := s.diag.frameLosses + 1 } := rfl
@[simp] theorem overflow_inbox (s : State) : (overflow s).inbox = s.inbox := rfl
@[simp] theorem overflow_out (s : State) : (overflow s).out = s.out := rfl

/-! ### complete -/

@[simp] theorem complete_params (s : State) : (complete s).params = s.params := rfl
@[simp] theorem complete_txClock (s : State) : (complete s).txClock = s.txClock := rfl
@[simp] theorem complete_txLastWrite (s : State) : (complete s).txLastWrite = s.txLastWrite := rfl
@[simp] theorem complete_txPending (s : State) : (complete s).txPending = s.txPending := rfl
@[simp] theorem complete_txq (s : State) : (complete s).txq = s.txq := rfl
@[simp] theorem complete_txCnt (s : State) : (complete s).txCnt = s.txCnt := rfl
@[simp] theorem complete_rxClock (s : State) : (complete s).rxClock = s.rxClock := rfl
@[simp] theorem complete_rxbuf (s : State) : (complete s).rxbuf = s.rxbuf := rfl
@[simp] theorem complete_arqState (s : State) : (complete s).arqState = .normal := rfl
@[simp] theorem complete_xferActive (s : State) : (complete s).xferActive = false := rfl
@[simp] theorem complete_xferTotal (s : State) : (complete s).xferTotal = 0 := rfl
@[simp] theorem complete_ctab (s : State) : (complete s).ctab = [] := rfl
@[simp] theorem complete_timer (s : State) : (complete s).timer = s.timer := rfl
@[simp] theorem complete_orig (s : State) : (complete s).orig = s.orig := rfl
@[simp] theorem complete_enq (s : State) : (complete s).enq = none := rfl
@[simp] theorem complete_fatalCause (s : State) : (complete s).fatalCause = s.fatalCause := rfl
@[simp] theorem complete_badcmd (s : State) : (complete s).badcmd = s.badcmd := rfl
@[simp] theorem complete_result (s : State) : (complete s).result = s.result := rfl
@[simp] theorem complete_lastLoss (s : State) : (complete s).lastLoss = s.lastLoss := rfl
@[simp] theorem complete_diag (s : State) : (complete s).diag = s.diag := rfl
@[simp] theorem complete_inbox (s : State) : (complete s).inbox = s.inbox := rfl
@[simp] theorem complete_out (s : State) : (complete s).out = s.out ++ [.payload (s.ctab.payload s.xferTotal.toNat)] := rfl

/-! ### resetBlock -/

@[simp] theorem resetBlock_params (s : State) : (resetBlock s).params = s.params := rfl
@[simp] theorem resetBlock_txClock (s : State) : (resetBlock s).txClock = true := rfl
@[simp] theorem resetBlock_txLastWrite (s : State) : (resetBlock s).txLastWrite = 0 := rfl
@[simp] theorem resetBlock_txPending (s : State) : (resetBlock s).txPending = none := rfl
@[simp] theorem resetBlock_txq (s : State) : (resetBlock s).txq = [] := rfl
@[simp] theorem resetBlock_txCnt (s : State) : (resetBlock s).txCnt = 0 := rfl
@[simp] theorem resetBlock_rxClock (s : State) : (resetBlock s).rxClock = false := rfl
@[simp] theorem resetBlock_rxbuf (s : State) : (resetBlock s).rxbuf = [] := rfl
@[simp] theorem resetBlock_arqState (s : State) : (resetBlock s).arqState = .normal := rfl
@[simp] theorem resetBlock_xferActive (s : State) : (resetBlock s).xferActive = false := rfl
@[simp] theorem resetBlock_xferTotal (s : State) : (resetBlock s).xferTotal = 0 := rfl
@[simp] theorem resetBlock_ctab (s : State) : (resetBlock s).ctab = [] := rfl
@[simp] theorem resetBlock_timer (s : State) : (resetBlock s).timer = 0 := rfl
@[simp] theorem resetBlock_orig (s : State) : (resetBlock s).orig = none := rfl
@[simp] theorem resetBlock_enq (s : State) : (resetBlock s).enq = none := rfl
@[simp] theorem resetBlock_fatalCause (s : State) : (resetBlock s).fatalCause = none := rfl
@[simp] theorem resetBlock_badcmd (s : State) : (resetBlock s).badcmd = false := rfl
@[simp] theorem resetBlock_result (s : State) : (resetBlock s).result = 0 := rfl
@[simp] theorem resetBlock_lastLoss (s : State) : (resetBlock s).lastLoss = none := rfl
@[simp] theorem resetBlock_diag (s : State) : (resetBlock s).diag = Diag.zero := rfl
@[simp] theorem resetBlock_inbox (s : State) : (resetBlock s).inbox = s.inbox := rfl
@[simp] theorem resetBlock_out (s : State) : (resetBlock s).out = s.out := rfl

/-! ### enqueue: everything but the queue, its clock and the drop counter stays -/

@[simp] theorem enqueue_params (ps : List Pair) (s : State) : (enqueue ps s).params = s.params := by
  unfold enqueue; split <;> rfl
@[simp] theorem enqueue_txLastWrite (ps : List Pair) (s : State) : (enqueue ps s).txLastWrite = s.txLastWrite := by
  unfold enqueue; split <;> rfl
@[simp] theorem enqueue_txPending (ps : List Pair) (s : State) : (enqueue ps s).txPending = s.txPending := by
  unfold enqueue; split <;> rfl
@[simp] theorem enqueue_txCnt (ps : List Pair) (s : State) : (enqueue ps s).txCnt = s.txCnt := by
  unfold enqueue; split <;> rfl
@[simp] theorem enqueue_rxClock (ps : List Pair) (s : State) : (enqueue ps s).rxClock = s.rxClock := by
  unfold enqueue; split <;> rfl
@[simp] theorem enqueue_rxbuf (ps : List Pair) (s : State) : (enqueue ps s).rxbuf = s.rxbuf := by
  unfold enqueue; split <;> rfl
@[simp] theorem enqueue_arqState (ps : List Pair) (s : State) : (enqueue ps s).arqState = s.arqState := by
  unfold enqueue; split <;> rfl
@[simp] theorem enqueue_xferActive (ps : List Pair) (s : State) : (enqueue ps s).xferActive = s.xferActive := by
  unfold enqueue; split <;> rfl
@[simp] theorem enqueue_xferTotal (ps : List Pair) (s : State) : (enqueue ps s).xferTotal = s.xferTotal := by
  unfold enqueue; split <;> rfl
@[simp] theorem enqueue_ctab (ps : List Pair) (s : State) : (enqueue ps s).ctab = s.ctab := by
  unfold enqueue; split <;> rfl
@[simp] theorem enqueue_timer (ps : List Pair) (s : State) : (enqueue ps s).timer = s.timer := by
  unfold enqueue; split <;> rfl
@[simp] theorem enqueue_orig (ps : List Pair) (s : State) : (enqueue ps s).orig = s.orig := by
  unfold enqueue; split <;> rfl
@[simp] theorem enqueue_enq (ps : List Pair) (s : State) : (enqueue ps s).enq = s.enq := by
  unfold enqueue; split <;> rfl
@[simp] theorem enqueue_fatalCause (ps : List Pair) (s : State) : (enqueue ps s).fatalCause = s.fatalCause := by
  unfold enqueue; split <;> rfl
@[simp] theorem enqueue_badcmd (ps : List Pair) (s : State) : (enqueue ps s).badcmd = s.badcmd := by
  unfold enqueue; split <;> rfl
@[simp] theorem enqueue_result (ps : List Pair) (s : State) : (enqueue ps s).result = s.result := by
  unfold enqueue; split <;> rfl
@[simp] theorem enqueue_lastLoss (ps : List Pair) (s : State) : (enqueue ps s).lastLoss = s.lastLoss := by
  unfold enqueue; split <;> rfl
@[simp] theorem enqueue_inbox (ps : List Pair) (s : State) : (enqueue ps s).inbox = s.inbox := by
  unfold enqueue; split <;> rfl
@[simp] theorem enqueue_out (ps : List Pair) (s : State) : (enqueue ps s).out = s.out := by
  unfold enqueue; split <;> rfl

/-- Everything `enqueue` can do (R237): queue the whole encoding, or count a drop. -/
theorem enqueue_cases (ps : List Pair) (s : State) :
    (s.txq.length + 3 * ps.length ≤ s.params.txqCap ∧
      enqueue ps s = { s with txq := s.txq ++ (encodeStream ps s.txClock).1, txClock := (encodeStream ps s.txClock).2 }) ∨
    (s.params.txqCap < s.txq.length + 3 * ps.length ∧
      enqueue ps s = { s with diag := { s.diag with txDrops := s.diag.txDrops + 1 } }) := by
  unfold enqueue
  split
  · exact .inr ⟨‹_›, rfl⟩
  · exact .inl ⟨by omega, rfl⟩

/-- `unlessFatal` answers a next state in every case (R276). -/
theorem unlessFatal_running (s t : State) (h : s.fatalCause = none) : unlessFatal s t = .next t := by
  simp [unlessFatal, h]

theorem unlessFatal_fatal (s t : State) (h : s.fatalCause ≠ none) : unlessFatal s t = .next s := by
  simp [unlessFatal, Option.isSome_iff_ne_none.mpr h]

end Sys2Proof.Machine
end

