-- ==== Sys2Proof/Laws/Codec.lean ====
section
/-! SUPPORT. The small lemmas of symbols, triplets, streams and their clock bits. -/

namespace Sys2Proof.Machine

@[simp] theorem clockBit_symbolOf (c : Bool) (p : BitVec 3) : clockBit (symbolOf c p) = c := by
  revert c p; decide

@[simp] theorem payloadBits_symbolOf (c : Bool) (p : BitVec 3) : payloadBits (symbolOf c p) = p := by
  revert c p; decide

theorem symbolOf_clock_payload (v : Nibble) : symbolOf (clockBit v) (payloadBits v) = v := by
  revert v; decide

@[simp] theorem rxSymbol_txByte (v : Nibble) : rxSymbol (txByte v) = v := by
  revert v; decide

/-- Reading a triplet drops the clock phase and nothing else (R121, R123). -/
theorem decodeTriplet_of_encodeByte (b : Byte) (f c : Bool) : decodeTriplet (encodeByte b f c).1 = (b, f) := by
  revert b f c; decide

@[simp] theorem encodeByte_clock (b : Byte) (f c : Bool) : (encodeByte b f c).2 = !c := rfl

@[simp] theorem clockBit_s0 (b : Byte) (f c : Bool) : clockBit (encodeByte b f c).1.s0 = c := by
  simp [encodeByte]

@[simp] theorem clockBit_s1 (b : Byte) (f c : Bool) : clockBit (encodeByte b f c).1.s1 = !c := by
  simp [encodeByte]

@[simp] theorem clockBit_s2 (b : Byte) (f c : Bool) : clockBit (encodeByte b f c).1.s2 = c := by
  simp [encodeByte]

@[simp] theorem encodeStream_nil (c : Bool) : encodeStream [] c = ([], c) := rfl

theorem encodeStream_cons (p : Pair) (ps : List Pair) (c : Bool) :
    encodeStream (p :: ps) c =
      ((encodeByte p.1 p.2 c).1.s0 :: (encodeByte p.1 p.2 c).1.s1 :: (encodeByte p.1 p.2 c).1.s2 ::
        (encodeStream ps (!c)).1, (encodeStream ps (!c)).2) := rfl

@[simp] theorem encodeStream_length (ps : List Pair) (c : Bool) : (encodeStream ps c).1.length = 3 * ps.length := by
  induction ps generalizing c with
  | nil => rfl
  | cons p ps ih => simp [encodeStream_cons, ih]; omega

theorem encodeStream_append (ps qs : List Pair) (c : Bool) :
    encodeStream (ps ++ qs) c =
      ((encodeStream ps c).1 ++ (encodeStream qs (encodeStream ps c).2).1,
        (encodeStream qs (encodeStream ps c).2).2) := by
  induction ps generalizing c with
  | nil => rfl
  | cons p ps ih => simp [encodeStream_cons, ih]

/-- A stream put behind a symbol of the opposite clock alternates, and ends opposite to its new clock state (R129). -/
theorem encodeStream_continues (v : Nibble) (ps : List Pair) (c : Bool) (h : clockBit v = !c) :
    alternates (v :: (encodeStream ps c).1) = true ∧
      ((v :: (encodeStream ps c).1).getLast?).map clockBit = some (!(encodeStream ps c).2) := by
  induction ps generalizing v c with
  | nil => simp [alternates, h]
  | cons p ps ih =>
    have := ih (encodeByte p.1 p.2 c).1.s2 (!c) (by simp)
    simp [encodeStream_cons, alternates, h, this]

/-- Two lists that alternate, joined at symbols of different clock, alternate. -/
theorem alternates_append (xs : List Nibble) (v : Nibble) (ys : List Nibble) :
    alternates (xs ++ v :: ys) = (alternates (xs ++ [v]) && alternates (v :: ys)) := by
  induction xs with
  | nil => cases ys <;> simp [alternates]
  | cons x xs ih =>
    cases xs with
    | nil => cases ys <;> simp [alternates]
    | cons x' xs => simp only [List.cons_append, alternates] at ih ⊢; rw [ih, Bool.and_assoc]

theorem alternates_tail {v : Nibble} {vs : List Nibble} (h : alternates (v :: vs) = true) : alternates vs = true := by
  cases vs with
  | nil => rfl
  | cons w ws => simp only [alternates, Bool.and_eq_true] at h; exact h.2

/-- Appending one symbol keeps a list alternating exactly when its clock differs from the last one's. -/
theorem alternates_snoc (vs : List Nibble) (v : Nibble) :
    alternates (vs ++ [v]) = true ↔ alternates vs = true ∧ ∀ w, vs.getLast? = some w → clockBit w ≠ clockBit v := by
  rcases List.eq_nil_or_concat vs with rfl | ⟨us, u, rfl⟩
  · simp [alternates]
  · rw [List.concat_eq_append, List.append_assoc, List.singleton_append, alternates_append]
    simp [alternates]

end Sys2Proof.Machine
end

