-- ==== Sys2Proof/Laws/Ctab.lean ====
section
/-! SUPPORT. The completion table: every operation keeps its canonical form. -/

namespace Sys2Proof.Machine

theorem Ctab.wf_iff (t : Ctab) : t.wf = true ↔ t.Pairwise (fun a b => a.1 < b.1) := by simp [Ctab.wf]

/-- The empty table is canonical. -/
theorem Ctab.wf_nil : Ctab.wf [] = true := by decide

/-- A slot of a filled table is a slot it had, or the new one. -/
theorem Ctab.mem_fill {t : Ctab} {k : Nat} {d : List Byte} {x : Nat × List Byte} (h : x ∈ t.fill k d) :
    x ∈ t ∨ x = (k, d) := by
  induction t with
  | nil => simpa [Ctab.fill] using h
  | cons a t ih =>
    obtain ⟨j, e⟩ := a
    simp only [Ctab.fill] at h
    split at h
    · simpa [or_comm, or_assoc, or_left_comm] using h
    · split at h
      · exact .inl h
      · rcases List.mem_cons.mp h with h | h
        · exact .inl (h ▸ List.mem_cons_self)
        · exact (ih h).imp (List.mem_cons_of_mem _) id

/-- Filling a slot keeps the canonical form. -/
theorem Ctab.wf_fill {t : Ctab} (h : t.wf = true) (k : Nat) (d : List Byte) : (t.fill k d).wf = true := by
  rw [wf_iff] at h ⊢
  induction t with
  | nil => simp [Ctab.fill]
  | cons a t ih =>
    obtain ⟨j, e⟩ := a
    have h' := List.pairwise_cons.mp h
    simp only [Ctab.fill]
    split
    · refine List.pairwise_cons.mpr ⟨fun b hb => ?_, h⟩
      rcases List.mem_cons.mp hb with rfl | hb
      · assumption
      · exact Nat.lt_trans ‹k < j› (h'.1 b hb)
    · split
      · exact h
      · refine List.pairwise_cons.mpr ⟨fun b hb => ?_, ih h'.2⟩
        rcases mem_fill hb with hb | rfl
        · exact h'.1 b hb
        · simp; omega

/-- Slots below every listed one are Empty. -/
theorem Ctab.get_eq_none {t : Ctab} {k : Nat} (h : ∀ x ∈ t, x.1 ≠ k) : t.get k = none := by
  induction t with
  | nil => rfl
  | cons a t ih =>
    obtain ⟨j, e⟩ := a
    have hj : j ≠ k := h (j, e) List.mem_cons_self
    simp only [Ctab.get, if_neg hj]
    exact ih fun x hx => h x (List.mem_cons_of_mem _ hx)

@[simp] theorem Ctab.get_nil (k : Nat) : Ctab.get [] k = none := rfl

/-- A listed slot is Filled with what is listed. -/
theorem Ctab.get_eq_some_iff {t : Ctab} (hw : t.wf = true) (k : Nat) (d : List Byte) :
    t.get k = some d ↔ (k, d) ∈ t := by
  rw [wf_iff] at hw
  induction t with
  | nil => simp
  | cons a t ih =>
    obtain ⟨j, e⟩ := a
    have hw' := List.pairwise_cons.mp hw
    by_cases hj : j = k
    · subst hj
      simp only [Ctab.get, if_pos, List.mem_cons, Prod.mk.injEq, true_and, Option.some.injEq]
      constructor
      · exact fun h => .inl h.symm
      · rintro (rfl | h)
        · rfl
        · exact absurd (hw'.1 _ h) (by simp)
    · simp only [Ctab.get, if_neg hj, List.mem_cons, Prod.mk.injEq]
      rw [ih hw'.2]
      exact ⟨.inr, fun h => h.elim (fun h => absurd h.1.symm hj) id⟩

theorem Ctab.mem_missing {t : Ctab} {N k : Nat} : k ∈ t.missing N ↔ (1 ≤ k ∧ k ≤ N) ∧ t.get k = none := by
  simp [Ctab.missing, List.mem_range'_1]
  omega

end Sys2Proof.Machine
end

