-- ==== Sys2Proof/Laws/Invariant.lean ====
section
/-! SUPPORT. Every shared operation and every phase keeps the invariant of `Safety.lean`. -/

namespace Sys2Proof.Machine

variable {s : State}

theorem raiseFatal_inv (c : FatalCause) (h : s.Inv) : (raiseFatal c s).Inv := { h with }

theorem loss_inv (c : LossCause) (h : s.Inv) : (loss c s).Inv := { h with }

theorem success_inv (h : s.Inv) : (success s).Inv := { h with timer_le := Nat.zero_le _ }

theorem setResult_inv (v : Word) (h : s.Inv) : (setResult v s).Inv := { h with }

theorem diag_inv (d : Diag) (h : s.Inv) : State.Inv { s with diag := d } := { h with }

theorem timer_inv {n : Nat} (h : s.Inv) (hn : n ≤ s.params.timeout) : State.Inv { s with timer := n } :=
  { h with timer_le := hn }

theorem txCnt_inv {n : Nat} (h : s.Inv) (hn : n ≤ s.params.interSymbolDelay) : State.Inv { s with txCnt := n } :=
  { h with txCnt_le := hn }

theorem enqueue_inv (ps : List Pair) (h : s.Inv) : (enqueue ps s).Inv := by
  rcases enqueue_cases ps s with ⟨hfit, e⟩ | ⟨-, e⟩
  · rw [e]
    have key : alternates (s.txLastWrite :: (s.txq ++ (encodeStream ps s.txClock).1)) = true ∧
        ((s.txLastWrite :: (s.txq ++ (encodeStream ps s.txClock).1)).getLast?).map clockBit =
          some (!(encodeStream ps s.txClock).2) := by
      rcases List.eq_nil_or_concat s.txq with hq | ⟨us, u, hq⟩
      · rw [hq, List.nil_append]
        exact encodeStream_continues _ _ _ (by simpa [hq] using h.tx_clock)
      · rw [List.concat_eq_append] at hq
        have hu : clockBit u = !s.txClock := by simpa [hq, List.getLast?_cons] using h.tx_clock
        have hs := encodeStream_continues u ps s.txClock hu
        have ha : alternates ((s.txLastWrite :: us) ++ [u]) = true := by simpa [hq] using h.tx_alternates
        constructor
        · have := alternates_append (s.txLastWrite :: us) u (encodeStream ps s.txClock).1
          simp only [List.cons_append] at this ha
          rw [hq, List.append_assoc, List.singleton_append, this, ha, hs.1]; rfl
        · rw [hq, ← hs.2]
          simp [List.getLast?_cons, List.getLast?_append]
    exact { h with
      txq_le := by simp only [List.length_append, encodeStream_length]; exact hfit
      tx_alternates := key.1
      tx_clock := key.2 }
  · rw [e]; exact { h with }

/-- The state a reset leaves satisfies the invariant, whatever the parameters. -/
theorem resetBlock_inv (s : State) : (resetBlock s).Inv where
  txCnt_le := Nat.zero_le _
  timer_le := Nat.zero_le _
  txq_le := Nat.zero_le _
  rxbuf_le := Nat.zero_le _
  rxbuf_alternates := rfl
  rxbuf_last := by simp
  idle_empty := by simp
  waiting_iff_active := by simp
  waiting_enq := by simp
  pending_strobe := by simp
  pending_eq := by simp
  tx_alternates := rfl
  tx_clock := by simp; decide
  total_le := Nat.zero_le _
  ctab_wf := by simp [Ctab.wf_nil]
  ctab_slots := by simp
  orig_sound := by simp

/-! ### The transmit phase -/

theorem writeNext_inv (h : s.Inv) : (writeNext s).Inv := by
  unfold writeNext
  split
  · rename_i p _ hp
    have hpw : p = s.txLastWrite := h.pending_eq p hp
    exact { h with
      txCnt_le := Nat.zero_le _
      pending_strobe := fun _ => rfl
      pending_eq := by simp
      tx_alternates := by simpa [hpw] using h.tx_alternates
      tx_clock := by simpa [hpw] using h.tx_clock }
  · rename_i sym q hst _ hq
    have ha := h.tx_alternates
    have hc := h.tx_clock
    have hl := h.txq_le
    rw [hq] at ha hc hl
    have hne : clockBit s.txLastWrite ≠ clockBit sym := by
      simp only [alternates, Bool.and_eq_true, bne_iff_ne] at ha; exact ha.1
    have hw : symbolOf (!clockBit s.txLastWrite) (payloadBits sym) = sym := by
      rw [← Bool.eq_not.mpr hne.symm]; exact symbolOf_clock_payload sym
    simp only [strobeExpand, hw]
    exact { h with
      txCnt_le := Nat.zero_le _
      txq_le := by simp at hl ⊢; omega
      pending_strobe := by simp [hst]
      pending_eq := by simp
      tx_alternates := by simpa using alternates_tail ha
      tx_clock := by simpa [List.getLast?_cons_cons] using hc }
  · rename_i sym q hst hq
    have ha := h.tx_alternates
    have hc := h.tx_clock
    have hl := h.txq_le
    rw [hq] at ha hc hl
    have hp := h.pending_strobe hst
    exact { h with
      txCnt_le := Nat.zero_le _
      txq_le := by simp at hl ⊢; omega
      pending_eq := by simp [hp]
      tx_alternates := by simpa using alternates_tail ha
      tx_clock := by simpa [List.getLast?_cons_cons] using hc }
  · exact h

theorem txPhase_inv (txr : Bool) (h : s.Inv) : (txPhase txr s).Inv := by
  unfold txPhase
  have h' : State.Inv { s with txCnt := min (s.txCnt + 1) s.params.interSymbolDelay } :=
    txCnt_inv h (Nat.min_le_right _ _)
  dsimp only
  split
  · exact writeNext_inv h'
  · exact h'

/-! ### Frames -/

theorem handleEnquiry_inv (pk : List Recovered) (h : s.Inv) : (handleEnquiry pk s).Inv := by
  unfold handleEnquiry
  split
  · exact h
  · exact diag_inv _ (enqueue_inv _ h)

theorem complete_inv {e : List Pair} (h : State.Inv { s with arqState := .waitingForResponse, enq := some e }) :
    (complete s).Inv := by
  exact { h with
    idle_empty := by simp
    waiting_iff_active := by simp
    waiting_enq := by simp
    total_le := Nat.zero_le _
    ctab_wf := Ctab.wf_nil
    ctab_slots := by simp }

theorem issueEnquiry_inv (missing : List Nat) {e : List Pair}
    (h : State.Inv { s with arqState := .waitingForResponse, enq := some e }) : (issueEnquiry missing s).Inv := by
  have h' : State.Inv { s with arqState := .waitingForResponse, enq := some (serialize (enquiry missing s.params.chunkSize)) } :=
    { h with waiting_enq := fun _ => rfl }
  have h'' := diag_inv { (enqueue (serialize (enquiry missing s.params.chunkSize)) { s with enq := some (serialize (enquiry missing s.params.chunkSize)) }).diag with enqSent := (enqueue (serialize (enquiry missing s.params.chunkSize)) { s with enq := some (serialize (enquiry missing s.params.chunkSize)) }).diag.enqSent + 1 } (enqueue_inv (serialize (enquiry missing s.params.chunkSize)) h')
  unfold issueEnquiry
  unfold enqueue at h'' ⊢
  dsimp only at h'' ⊢
  split <;> simp_all

theorem gapCheck_inv {e : List Pair} (h : State.Inv { s with arqState := .waitingForResponse, enq := some e }) :
    (gapCheck s).Inv := by
  unfold gapCheck
  dsimp only
  split
  · exact complete_inv h
  · exact issueEnquiry_inv _ h

theorem fillSlot_inv (r : Recovered) (hr : r.data.length ≤ 250) (ha : s.xferActive = true) (h : s.Inv) :
    (fillSlot s r).Inv ∧ (fillSlot s r).xferActive = true := by
  unfold fillSlot
  split
  · rename_i hid
    refine ⟨{ h with
      idle_empty := by simp [ha]
      ctab_wf := Ctab.wf_fill h.ctab_wf _ _
      ctab_slots := fun x hx => ?_ }, ha⟩
    rcases Ctab.mem_fill hx with hx | rfl
    · exact h.ctab_slots x hx
    · exact ⟨hid.1, hid.2, hr⟩
  · exact ⟨{ h with }, ha⟩

theorem foldl_fillSlot_inv (pk : List Recovered) (hpk : ∀ r ∈ pk, r.data.length ≤ 250) (ha : s.xferActive = true)
    (h : s.Inv) : (pk.foldl fillSlot s).Inv ∧ (pk.foldl fillSlot s).xferActive = true := by
  induction pk generalizing s with
  | nil => exact ⟨h, ha⟩
  | cons r pk ih =>
    have := fillSlot_inv r (hpk r List.mem_cons_self) ha h
    exact ih (fun r hr => hpk r (List.mem_cons_of_mem _ hr)) this.2 this.1

/-- Each bound of the data a frame's walk can recover: a Packet carries at most 250 data bytes (R179). -/
theorem parsePacket_data_le {hc bc : Chunk} {r : Recovered} (h : parsePacket hc bc = .recovered r) :
    r.data.length ≤ 250 := by
  unfold parsePacket at h
  dsimp only at h
  repeat' split at h
  all_goals first
    | (cases h; done)
    | (injection h with h; subst h; simp; omega)

theorem walkChunks_data_le (cs : List Chunk) (d : Diag) (pk pk' : List Recovered)
    (hpk : ∀ r ∈ pk, r.data.length ≤ 250) (h : (walkChunks cs d pk).2 = some pk') :
    ∀ r ∈ pk', r.data.length ≤ 250 := by
  induction cs, d, pk using walkChunks.induct generalizing pk' with
  | case1 hc bc rest d pk hh hp ih => rw [walkChunks, if_pos hh, hp] at h; exact ih pk' hpk h
  | case2 hc bc rest d pk hh hp => rw [walkChunks, if_pos hh, hp] at h; cases h
  | case3 hc bc rest d pk hh r hp ih =>
    rw [walkChunks, if_pos hh, hp] at h
    refine ih pk' (fun r' hr' => ?_) h
    rcases List.mem_append.mp hr' with hr' | hr'
    · exact hpk r' hr'
    · rw [List.mem_singleton.mp hr']; exact parsePacket_data_le hp
  | case4 hc bc rest d pk hh ih => rw [walkChunks, if_neg hh] at h; exact ih pk' hpk h
  | case5 cs d pk hcs =>
    rw [walkChunks] at h
    · simp only [Option.some.injEq] at h; exact h ▸ hpk
    · exact hcs

theorem deserialize_data_le {frame : List Nibble} {d d' : Diag} {e : Bool} {tp : U16} {pk : List Recovered}
    (h : deserialize frame d = (d', .ok e tp pk)) : ∀ r ∈ pk, r.data.length ≤ 250 := by
  unfold deserialize at h
  split at h
  · simp at h
  · split at h
    · simp at h
    · split at h
      · split at h
        · simp at h
        · rename_i cs _ _ _ _ _ _ _ _ _ _ _ _ _ _
          split at h
          · simp at h
          · rename_i pk' hw
            simp only [Prod.mk.injEq, Parsed.ok.injEq] at h
            obtain ⟨-, -, -, rfl⟩ := h
            exact walkChunks_data_le _ d [] _ (by simp) (by rw [hw])
      · simp at h

theorem acceptPackets_inv (pk : List Recovered) (hpk : ∀ r ∈ pk, r.data.length ≤ 250) (ha : s.xferActive = true)
    {e : List Pair} (h : State.Inv { s with arqState := .waitingForResponse, enq := some e }) :
    State.Inv { acceptPackets pk s with arqState := .waitingForResponse, enq := some e } := by
  have key : ∀ (pk : List Recovered) (s : State),
      pk.foldl fillSlot { s with arqState := .waitingForResponse, enq := some e } =
        { pk.foldl fillSlot s with arqState := .waitingForResponse, enq := some e } := by
    intro pk
    induction pk with
    | nil => intro s; rfl
    | cons r pk ih =>
      intro s
      have : fillSlot { s with arqState := .waitingForResponse, enq := some e } r =
          { fillSlot s r with arqState := .waitingForResponse, enq := some e } := by
        unfold fillSlot; dsimp only; split <;> rfl
      rw [List.foldl_cons, List.foldl_cons, this, ih]
  have := (foldl_fillSlot_inv pk hpk (s := { s with arqState := .waitingForResponse, enq := some e }) ha h).1
  rwa [key] at this

theorem foldl_fillSlot_xferActive (pk : List Recovered) (s : State) :
    (pk.foldl fillSlot s).xferActive = s.xferActive := by
  induction pk generalizing s with
  | nil => rfl
  | cons r pk ih => rw [List.foldl_cons, ih]; unfold fillSlot; split <;> rfl

theorem foldl_fillSlot_fatalCause (pk : List Recovered) (s : State) :
    (pk.foldl fillSlot s).fatalCause = s.fatalCause := by
  induction pk generalizing s with
  | nil => rfl
  | cons r pk ih => rw [List.foldl_cons, ih]; unfold fillSlot; split <;> rfl

/-- Everything `handleData` can do (R243 to R245): raise FATAL with the state kept, or accept the Packets with a
transfer open. -/
theorem handleData_cases (tp : U16) (pk : List Recovered) (s : State) :
    (s.xferActive = true ∧ handleData tp pk s = acceptPackets pk s) ∨
    (s.xferActive = false ∧ tp = sentinel16 ∧ handleData tp pk s = raiseFatal .totalReserved s) ∨
    (s.xferActive = false ∧ tp ≠ sentinel16 ∧ s.params.maxPacketsRx < tp.toNat ∧
      handleData tp pk s = raiseFatal .totalTooLarge s) ∨
    (s.xferActive = false ∧ tp ≠ sentinel16 ∧ tp.toNat ≤ s.params.maxPacketsRx ∧
      handleData tp pk s = acceptPackets pk { s with xferActive := true, xferTotal := tp, ctab := [] }) := by
  unfold handleData
  by_cases ha : s.xferActive = true
  · simp [ha]
  · by_cases ht : tp = sentinel16
    · simp [ha, ht]
    · by_cases hm : s.params.maxPacketsRx < tp.toNat
      · simp [ha, ht, hm]
      · simp [ha, ht, hm]; omega

/-- `useFrame` on an Enquiry (R239). -/
theorem useFrame_enquiry (tp : U16) (pk : List Recovered) (s : State) :
    useFrame true tp pk s =
      if (handleEnquiry pk s).fatalCause.isSome then (handleEnquiry pk s, false)
      else if (handleEnquiry pk s).xferActive then (gapCheck (handleEnquiry pk s), true)
      else (handleEnquiry pk s, true) := rfl

/-- `useFrame` on a data frame (R239). -/
theorem useFrame_data (tp : U16) (pk : List Recovered) (s : State) :
    useFrame false tp pk s =
      if (handleData tp pk s).fatalCause.isSome then (handleData tp pk s, false)
      else if (handleData tp pk s).xferActive then (gapCheck (handleData tp pk s), true)
      else (handleData tp pk s, true) := rfl

/-- Accepting Packets with a transfer open, then the gap check. -/
theorem accept_gapCheck_inv (pk : List Recovered) (hpk : ∀ r ∈ pk, r.data.length ≤ 250) {e : List Pair}
    (h : State.Inv { s with arqState := .waitingForResponse, enq := some e }) : (gapCheck (acceptPackets pk s)).Inv :=
  gapCheck_inv (acceptPackets_inv (s := s) pk hpk (h.waiting_iff_active.mp rfl) h)

theorem useFrame_inv (isEnq : Bool) (tp : U16) (pk : List Recovered) (hpk : ∀ r ∈ pk, r.data.length ≤ 250)
    (h : s.Inv) (hf : s.fatalCause = none) : (useFrame isEnq tp pk s).1.Inv := by
  have waiting : ∀ t : State, t.Inv → t.xferActive = true →
      ∃ e, State.Inv { t with arqState := .waitingForResponse, enq := some e } := by
    intro t ht ha
    have hw := ht.waiting_iff_active.mpr ha
    obtain ⟨e, he⟩ := Option.isSome_iff_exists.mp (ht.waiting_enq hw)
    exact ⟨e, by rw [← hw, ← he]; exact ht⟩
  cases isEnq with
  | true =>
    have h' := handleEnquiry_inv pk h
    rw [useFrame_enquiry]
    split
    · exact h'
    · split
      · rename_i hx
        obtain ⟨e, he⟩ := waiting _ h' hx
        exact gapCheck_inv he
      · exact h'
  | false =>
    have accept : ∀ t : State, t.fatalCause = none → t.xferActive = true →
        (∃ e, State.Inv { t with arqState := .waitingForResponse, enq := some e }) →
        handleData tp pk s = acceptPackets pk t → (useFrame false tp pk s).1.Inv := by
      intro t htf hta ⟨e, ht⟩ heq
      have hx : (acceptPackets pk t).xferActive = true := by rw [← hta]; exact foldl_fillSlot_xferActive pk t
      have hn : (acceptPackets pk t).fatalCause = none := by rw [← htf]; exact foldl_fillSlot_fatalCause pk t
      rw [useFrame_data, heq, hx, hn]
      exact accept_gapCheck_inv pk hpk ht
    rcases handleData_cases tp pk s with ⟨ha, e⟩ | ⟨-, -, e⟩ | ⟨-, -, -, e⟩ | ⟨ha, -, hm, e⟩
    · exact accept s hf ha (waiting s h ha) e
    · rw [useFrame_data, e]; exact raiseFatal_inv _ h
    · rw [useFrame_data, e]; exact raiseFatal_inv _ h
    · refine accept { s with xferActive := true, xferTotal := tp, ctab := [] } hf rfl ⟨[], ?_⟩ e
      exact { h with
        idle_empty := by simp
        waiting_iff_active := by simp
        waiting_enq := by simp
        total_le := hm
        ctab_wf := Ctab.wf_nil
        ctab_slots := by simp }

theorem processFrame_inv (frame : List Nibble) (h : s.Inv) (hf : s.fatalCause = none) :
    (processFrame frame s).1.Inv := by
  unfold processFrame
  rcases hd : deserialize frame s.diag with ⟨d, r⟩
  cases r with
  | fatal c => exact raiseFatal_inv _ (diag_inv _ h)
  | loss c => exact loss_inv _ (diag_inv _ h)
  | ok e tp pk =>
    exact useFrame_inv e tp pk (deserialize_data_le hd) (success_inv (diag_inv _ h)) hf

/-! ### The receive and timer phases -/

theorem rxPhase_inv (rxv : Bool) (rxb : Byte) (h : s.Inv) (hf : s.fatalCause = none) : (rxPhase rxv rxb s).1.Inv := by
  unfold rxPhase
  dsimp only
  split
  · rename_i hv
    have hclear : State.Inv { acceptSymbol (rxSymbol rxb) s with rxbuf := [] } :=
      { h with rxbuf_le := Nat.zero_le _, rxbuf_alternates := rfl, rxbuf_last := by simp }
    unfold runSync
    split
    · exact processFrame_inv _ hclear hf
    · split
      · exact loss_inv _ hclear
      · rename_i hlt
        exact { h with
          rxbuf_le := by simp at hlt ⊢; omega
          rxbuf_alternates := by
            refine (alternates_snoc _ _).mpr ⟨h.rxbuf_alternates, fun w hw => ?_⟩
            rw [h.rxbuf_last w hw]; exact hv.2.symm
          rxbuf_last := by simp }
  · exact h

theorem timeoutResend_inv (h : s.Inv) : (timeoutResend s).Inv :=
  { enqueue_inv (s.enq.getD []) h with timer_le := Nat.zero_le _ }

theorem timerPhase_inv (decoded : Bool) (h : s.Inv) : (timerPhase decoded s).Inv := by
  unfold timerPhase
  split
  · exact h
  · have h' : State.Inv { s with timer := min (s.timer + 1) s.params.timeout } := timer_inv h (Nat.min_le_right _ _)
    dsimp only
    split
    · exact timeoutResend_inv h'
    · exact h'

theorem writeNext_fatalCause (s : State) : (writeNext s).fatalCause = s.fatalCause := by
  unfold writeNext; split <;> rfl

theorem txPhase_fatalCause (txr : Bool) (s : State) : (txPhase txr s).fatalCause = s.fatalCause := by
  unfold txPhase; dsimp only; split
  · exact writeNext_fatalCause _
  · rfl

theorem runCycle_inv (txr rxv : Bool) (rxb : Byte) (h : s.Inv) (hf : s.fatalCause = none) :
    (runCycle txr rxv rxb s).Inv := by
  unfold runCycle
  have h1 := rxPhase_inv rxv rxb (txPhase_inv txr h) (by rw [txPhase_fatalCause]; exact hf)
  dsimp only
  split
  · exact h1
  · exact timerPhase_inv _ h1

end Sys2Proof.Machine
end

