-- ==== Sys2Proof/Laws/Arq.lean ====
section
/-! SUPPORT. What each shared operation of the ARQ Controller and of the step can answer, said once, as a case list. -/

namespace Sys2Proof.Machine

variable {s : State}

theorem takeEvent_cases (s : State) :
    (s.inbox = [] ∧ takeEvent s = none) ∨
    (∃ e rest, s.inbox = e :: rest ∧ takeEvent s = some (e, { s with inbox := rest })) := by
  rcases h : s.inbox with - | ⟨e, rest⟩ <;> simp [takeEvent, h]

@[simp] theorem takeEvent_offerEvent (e : Event) (s : State) : takeEvent (offerEvent e s) = some (e, s) := rfl

theorem reservedEvent_cases (code : Byte) (s : State) :
    (s.fatalCause ≠ none ∧ reservedEvent code s = .next s) ∨
    (s.fatalCause = none ∧ reservedEvent code s = .refused (.reservedCode code)) := by
  rcases h : s.fatalCause with - | c <;> simp [reservedEvent, h]

/-- Running an event either leaves a FATAL block as it is or applies the event's effect (R276). -/
theorem unlessFatal_cases (s t : State) :
    (s.fatalCause ≠ none ∧ unlessFatal s t = .next s) ∨ (s.fatalCause = none ∧ unlessFatal s t = .next t) := by
  by_cases h : s.fatalCause = none
  · exact .inr ⟨h, unlessFatal_running s t h⟩
  · exact .inl ⟨h, unlessFatal_fatal s t h⟩

/-- The state in which a running block is left by each instruction. -/
def effect : Instr → State → State
  | .nop, s => s
  | .cycle txr rxv rxb, s => runCycle txr rxv rxb s
  | .send payload, s =>
    if sendRejected s.params payload then { s with badcmd := true }
    else enqueue (serialize (newTransmission (dataPackets payload s.params.chunkSize) false))
      { s with orig := some (dataPackets payload s.params.chunkSize) }
  | .reset, s => resetBlock s
  | .encByte b f c, s => setResult (encByteResult (encodeByte b f c).1 (encodeByte b f c).2) s
  | .decTriplet s0 s1 s2, s => setResult (decTripletResult (decodeTriplet ⟨s0, s1, s2⟩)) s
  | .strobeExpand sym prev, s => setResult (strobeExpandResult (Machine.strobeExpand sym prev)) s

/-- Every instruction answers a next state: its effect, unless FATAL makes it do nothing. -/
theorem exec_cases (i : Instr) (s : State) :
    exec i s = .next (effect i s) ∨ (s.fatalCause ≠ none ∧ i ≠ .reset ∧ exec i s = .next s) := by
  cases i
  case reset => exact .inl rfl
  all_goals
    by_cases h : s.fatalCause = none
    · exact .inl (unlessFatal_running _ _ h)
    · exact .inr ⟨h, by simp, unlessFatal_fatal _ _ h⟩

/-- The write slot (R232): a pending second write, the first write of a strobed symbol, or a whole symbol. -/
theorem writeNext_cases (s : State) :
    (∃ p, s.params.strobeEn = true ∧ s.txPending = some p ∧
      writeNext s = writeSymbol p { s with txPending := none }) ∨
    (∃ sym q, s.params.strobeEn = true ∧ s.txPending = none ∧ s.txq = sym :: q ∧
      writeNext s = writeSymbol (strobeExpand sym s.txLastWrite).1
        { s with txq := q, txPending := some (strobeExpand sym s.txLastWrite).2 }) ∨
    (∃ sym q, s.params.strobeEn = false ∧ s.txq = sym :: q ∧
      writeNext s = writeSymbol sym { s with txq := q }) ∨
    (s.txq = [] ∧ (s.params.strobeEn = true → s.txPending = none) ∧ writeNext s = s) := by
  rcases h : s.params.strobeEn with - | - <;> rcases hp : s.txPending with - | p <;>
    rcases hq : s.txq with - | ⟨v, q⟩ <;> simp [writeNext, h, hp, hq]

/-- The transmit phase counts, and then writes or not (R232). -/
theorem txPhase_cases (txr : Bool) (s : State) :
    txPhase txr s = { s with txCnt := min (s.txCnt + 1) s.params.interSymbolDelay } ∨
    (txr = true ∧
      txPhase txr s = writeNext { s with txCnt := min (s.txCnt + 1) s.params.interSymbolDelay }) := by
  unfold txPhase
  dsimp only
  split
  · exact .inr ⟨by tauto, rfl⟩
  · exact .inl rfl

/-- The synchronizer's run: a frame, an overflow, or nothing (R156). -/
theorem runSync_cases (s : State) :
    (∃ st e, sync s.rxbuf = some (st, e) ∧
      runSync s = processFrame (extractFrame s.rxbuf st e) { s with rxbuf := [] }) ∨
    (sync s.rxbuf = none ∧ s.params.rxbufCap ≤ s.rxbuf.length ∧ runSync s = (overflow s, false)) ∨
    (sync s.rxbuf = none ∧ s.rxbuf.length < s.params.rxbufCap ∧ runSync s = (s, false)) := by
  rcases h : sync s.rxbuf with - | ⟨st, e⟩
  · by_cases hc : s.params.rxbufCap ≤ s.rxbuf.length
    · simp [runSync, h, hc]
    · simp [runSync, h, hc]
      omega
  · exact .inl ⟨st, e, rfl, by simp [runSync, h]⟩

/-- A frame's use, by the parse (R239). -/
theorem processFrame_cases (frame : List Nibble) (s : State) :
    (∃ d c, deserialize frame s.diag = (d, .fatal c) ∧
      processFrame frame s = (raiseFatal c { s with diag := d }, false)) ∨
    (∃ d c, deserialize frame s.diag = (d, .loss c) ∧
      processFrame frame s = (loss c { s with diag := d }, false)) ∨
    (∃ d e tp pk, deserialize frame s.diag = (d, .ok e tp pk) ∧
      processFrame frame s = useFrame e tp pk (success { s with diag := d })) := by
  rcases h : deserialize frame s.diag with ⟨d, c | c | ⟨e, tp, pk⟩⟩
  · exact .inl ⟨d, c, rfl, by simp [processFrame, h]⟩
  · exact .inr (.inl ⟨d, c, rfl, by simp [processFrame, h]⟩)
  · exact .inr (.inr ⟨d, e, tp, pk, rfl, by simp [processFrame, h]⟩)

/-- The gap check: complete, or enquire (R246). -/
theorem gapCheck_cases (s : State) :
    (s.ctab.missing s.xferTotal.toNat = [] ∧ gapCheck s = complete s) ∨
    (s.ctab.missing s.xferTotal.toNat ≠ [] ∧
      gapCheck s = issueEnquiry (s.ctab.missing s.xferTotal.toNat) s) := by
  rcases h : s.ctab.missing s.xferTotal.toNat with - | ⟨k, ks⟩ <;> simp [gapCheck, h]

/-- The timer phase: nothing, a count, or a count and a resend (R234). -/
theorem timerPhase_cases (decoded : Bool) (s : State) :
    (decoded = true ∧ timerPhase decoded s = s) ∨
    (decoded = false ∧ timerPhase decoded s = { s with timer := min (s.timer + 1) s.params.timeout }) ∨
    (decoded = false ∧ s.arqState = .waitingForResponse ∧ timerPhase decoded s =
      timeoutResend { s with timer := min (s.timer + 1) s.params.timeout }) := by
  unfold timerPhase
  cases decoded
  · rw [if_neg Bool.false_ne_true]
    dsimp only
    split
    · exact .inr (.inr ⟨rfl, by tauto, rfl⟩)
    · exact .inr (.inl ⟨rfl, rfl⟩)
  · exact .inl ⟨rfl, rfl⟩

end Sys2Proof.Machine
end

