-- ==== Sys2Proof/Laws/Gf.lean ====
section
/-! SUPPORT. The laws of the field GF(2^8): the product is additive in each argument, commutative and associative. -/

namespace Sys2Proof.Machine

theorem byte_xor_left_comm (a b c : Byte) : a ^^^ (b ^^^ c) = b ^^^ (a ^^^ c) := by
  rw [← BitVec.xor_assoc, BitVec.xor_comm a b, BitVec.xor_assoc]

theorem byte_eq_bits (a : Byte) :
    a = (List.range 8).foldr (fun i x => (if a.getLsbD i then (1#8 <<< i) else 0#8) ^^^ x) 0#8 := by
  revert a; decide

/-- A property of bytes that holds of 0 and of each single bit, and that exclusive or keeps, holds of every byte. -/
theorem byte_xor_induction {P : Byte → Prop} (h0 : P 0#8) (hx : ∀ a b, P a → P b → P (a ^^^ b))
    (hb : ∀ i, i < 8 → P (1#8 <<< i)) (a : Byte) : P a := by
  rw [byte_eq_bits a]
  suffices ∀ l : List Nat, (∀ i ∈ l, i < 8) →
      P (l.foldr (fun i x => (if a.getLsbD i then (1#8 <<< i) else 0#8) ^^^ x) 0#8) from
    this _ fun i hi => List.mem_range.mp hi
  intro l hl
  induction l with
  | nil => exact h0
  | cons i l ih =>
    rw [List.foldr_cons]
    refine hx _ _ ?_ (ih fun j hj => hl j (List.mem_cons_of_mem _ hj))
    split
    · exact hb i (hl i List.mem_cons_self)
    · exact h0

theorem xtime_xor (a b : Byte) : xtime (a ^^^ b) = xtime a ^^^ xtime b := by
  simp only [xtime, BitVec.getLsbD_xor, BitVec.shiftLeft_xor_distrib]
  generalize a <<< 1 = x
  generalize b <<< 1 = y
  cases a.getLsbD 7 <;> cases b.getLsbD 7 <;> simp [BitVec.xor_assoc, BitVec.xor_comm, byte_xor_left_comm]

theorem gmulBits_xor_left (k : Nat) (a a' b : Byte) :
    gmulBits k (a ^^^ a') b = gmulBits k a b ^^^ gmulBits k a' b := by
  induction k generalizing a a' b with
  | zero => simp [gmulBits]
  | succ k ih =>
    simp only [gmulBits, xtime_xor, ih]
    split <;> simp [BitVec.xor_assoc, byte_xor_left_comm a']

theorem gmulBits_xor_right (k : Nat) (a b b' : Byte) :
    gmulBits k a (b ^^^ b') = gmulBits k a b ^^^ gmulBits k a b' := by
  induction k generalizing a b b' with
  | zero => simp [gmulBits]
  | succ k ih =>
    simp only [gmulBits, BitVec.ushiftRight_xor_distrib, ih, BitVec.getLsbD_xor]
    cases b.getLsbD 0 <;> cases b'.getLsbD 0 <;>
      simp [BitVec.xor_assoc, byte_xor_left_comm a (gmulBits _ _ _)]

theorem gmul_xor_left (a a' b : Byte) : gmul (a ^^^ a') b = gmul a b ^^^ gmul a' b := gmulBits_xor_left 8 a a' b

theorem gmul_xor_right (a b b' : Byte) : gmul a (b ^^^ b') = gmul a b ^^^ gmul a b' := gmulBits_xor_right 8 a b b'

@[simp] theorem gmul_zero_left (b : Byte) : gmul 0#8 b = 0#8 := by revert b; decide

@[simp] theorem gmul_zero_right (a : Byte) : gmul a 0#8 = 0#8 := by revert a; decide

@[simp] theorem gmul_one_left (b : Byte) : gmul 1#8 b = b := by revert b; decide

@[simp] theorem gmul_one_right (a : Byte) : gmul a 1#8 = a := by revert a; decide

theorem gmul_comm (a b : Byte) : gmul a b = gmul b a := by
  revert b
  refine byte_xor_induction (P := fun a => ∀ b, gmul a b = gmul b a) (fun b => by simp) ?_ ?_ a
  · intro a a' h h' b
    rw [gmul_xor_left, gmul_xor_right, h, h']
  · intro i hi b
    refine byte_xor_induction (P := fun b => gmul (1#8 <<< i) b = gmul b (1#8 <<< i)) ?_ ?_ ?_ b
    · rw [gmul_zero_left, gmul_zero_right]
    · intro b b' h h'
      rw [gmul_xor_left, gmul_xor_right, h, h']
    · intro j hj
      revert i j
      decide

theorem gmul_assoc (a b c : Byte) : gmul (gmul a b) c = gmul a (gmul b c) := by
  revert b c
  refine byte_xor_induction (P := fun a => ∀ b c, gmul (gmul a b) c = gmul a (gmul b c)) (fun b c => by simp) ?_ ?_ a
  · intro a a' h h' b c
    simp only [gmul_xor_left, h, h']
  intro i hi b
  refine byte_xor_induction (P := fun b => ∀ c, gmul (gmul (1#8 <<< i) b) c = gmul (1#8 <<< i) (gmul b c)) ?_ ?_ ?_ b
  · intro c
    rw [gmul_zero_right, gmul_zero_left, gmul_zero_right]
  · intro b b' h h' c
    simp only [gmul_xor_left, gmul_xor_right, h, h']
  intro j hj c
  refine byte_xor_induction
    (P := fun c => gmul (gmul (1#8 <<< i) (1#8 <<< j)) c = gmul (1#8 <<< i) (gmul (1#8 <<< j) c)) ?_ ?_ ?_ c
  · simp only [gmul_zero_right]
  · intro b b' h h'
    simp only [gmul_xor_right, h, h']
  · intro k hk
    revert i j k
    decide

end Sys2Proof.Machine
end

