-- ==== Sys2Proof/Laws/Fec.lean ====
section
/-! SUPPORT. The small lemmas of polynomials, parity and decoding: lengths, evaluation, and what `rsDecode` can answer. -/

namespace Sys2Proof.Machine

@[simp] theorem genPoly_length (P : Nat) : (genPoly P).length = P + 1 := by
  induction P with
  | zero => rfl
  | succ P ih => simp [genPoly, polyMulRoot, ih]

theorem divStep_length (g rem : List Byte) (fb next : Byte) (h : rem ≠ []) (hg : g.length = rem.length + 1) :
    (divStep g rem fb next).length = rem.length := by
  have := List.length_pos_iff.mpr h
  simp [divStep, hg]
  omega

/-- A remainder of no coefficients stays empty. -/
theorem divStep_nil (fb next : Byte) : divStep (genPoly 0) [] fb next = [] := rfl

theorem divStep_genPoly_length (P : Nat) (rem : List Byte) (fb next : Byte) (h : rem.length = P) :
    (divStep (genPoly P) rem fb next).length = P := by
  subst h
  cases rem with
  | nil => rfl
  | cons a rem => exact divStep_length _ _ _ _ (by simp) (by simp)

@[simp] theorem polyRem_length (c : List Byte) (P : Nat) : (polyRem c P).length = P := by
  suffices ∀ rem : List Byte, rem.length = P →
      (c.foldl (fun rem b => divStep (genPoly P) rem (rem.headD 0) b) rem).length = P from
    this _ (by simp)
  induction c with
  | nil => exact fun rem h => h
  | cons b c ih => exact fun rem h => ih _ (divStep_genPoly_length P rem _ _ h)

@[simp] theorem polyEval_nil (x : Byte) : polyEval [] x = 0 := rfl

theorem polyEval_snoc (c : List Byte) (b x : Byte) : polyEval (c ++ [b]) x = gmul (polyEval c x) x ^^^ b := by
  simp [polyEval]

theorem gpow_add (a : Byte) (m n : Nat) : gpow a (m + n) = gmul (gpow a m) (gpow a n) := by
  induction n with
  | zero => simp [gpow]
  | succ n ih => rw [← Nat.add_assoc, gpow, ih, gmul_assoc, gpow]

@[simp] theorem hamming_nil : hamming [] [] = 0 := rfl

theorem hamming_cons (a b : Byte) (c r : List Byte) :
    hamming (a :: c) (b :: r) = (if a = b then 0 else 1) + hamming c r := by
  by_cases h : a = b
  · simp [hamming, h]
  · have : (a != b) = true := by simpa using h
    simp [hamming, h, this, Nat.add_comm]

theorem hamming_self (c : List Byte) : hamming c c = 0 := by
  induction c with
  | nil => rfl
  | cons a c ih => simp [hamming_cons, ih]

/-- What `rsDecode` answers is a codeword within the radius, with its distance; the part of R175 that needs nothing of
the way to the candidate. -/
theorem rsDecode_sound {r c : List Byte} {P n : Nat} (h : rsDecode r P = some (c, n)) :
    r.length ≤ 255 ∧ isCodeword c P = true ∧ hamming c r = n ∧ n ≤ P / 2 := by
  unfold rsDecode at h
  split at h
  · cases h
  · rename_i hl
    split at h
    · rename_i hP
      subst hP
      cases h
      have : polyRem r 0 = [] := List.eq_nil_of_length_eq_zero (by simp)
      exact ⟨by omega, by simp [isCodeword, this], hamming_self _, Nat.zero_le _⟩
    · split at h
      · cases h
        exact ⟨by omega, ‹_›, hamming_self _, Nat.zero_le _⟩
      · split at h
        · cases h
        · dsimp only at h
          split at h
          · rename_i hc
            cases h
            simp only [Bool.and_eq_true, decide_eq_true_eq] at hc
            exact ⟨by omega, hc.1, rfl, hc.2⟩
          · cases h

/-- A word longer than 255 bytes is unrecoverable (R175). -/
theorem rsDecode_too_long {r : List Byte} {P : Nat} (h : 255 < r.length) : rsDecode r P = none := by
  simp [rsDecode, h]

/-- A codeword decodes to itself with no error (R176). -/
theorem rsDecode_codeword {r : List Byte} {P : Nat} (hl : r.length ≤ 255) (h : isCodeword r P = true) :
    rsDecode r P = some (r, 0) := by
  simp [rsDecode, Nat.not_lt.mpr hl, h]

end Sys2Proof.Machine
end

