-- ==== Sys2Proof/Laws/FrameSync.lean ====
section
/-! SUPPORT. The small lemmas of the two scans, of decoding a frame, and of its chunks. -/

namespace Sys2Proof.Machine

/-- Everything the Start scan can answer (R152): the smallest matching index. -/
theorem scanStart_eq_some_iff (syms : List Nibble) (i s : Nat) :
    scanStart syms i = some s ↔
      ∃ k, s = i + k ∧ k < syms.length ∧ startsWithStart (syms.drop k) = true ∧
        ∀ j, j < k → startsWithStart (syms.drop j) = false := by
  induction syms generalizing i with
  | nil => simp [scanStart]
  | cons v rest ih =>
    rw [scanStart]
    split
    · rename_i h
      constructor
      · rintro ⟨⟩
        exact ⟨0, rfl, by simp, h, by simp⟩
      · rintro ⟨k, rfl, -, -, hk⟩
        rcases k with - | k
        · rfl
        · exact absurd h (by simpa using hk 0 (by omega))
    · rename_i h
      rw [ih]
      constructor
      · rintro ⟨k, rfl, hl, hm, hk⟩
        refine ⟨k + 1, by omega, by simpa using hl, hm, fun j hj => ?_⟩
        rcases j with - | j
        · simpa using h
        · exact hk j (by omega)
      · rintro ⟨k, rfl, hl, hm, hk⟩
        rcases k with - | k
        · exact absurd hm h
        · exact ⟨k, by omega, by simpa using hl, hm, fun j hj => hk (j + 1) (by omega)⟩

/-- The Start scan answers nothing exactly when no window matches (R152). -/
theorem scanStart_eq_none_iff (syms : List Nibble) (i : Nat) :
    scanStart syms i = none ↔ ∀ k, k < syms.length → startsWithStart (syms.drop k) = false := by
  induction syms generalizing i with
  | nil => simp [scanStart]
  | cons v rest ih =>
    rw [scanStart]
    split
    · rename_i h
      simp only [reduceCtorEq, false_iff]
      exact fun hk => absurd h (by simpa using hk 0 (by simp))
    · rename_i h
      rw [ih]
      constructor
      · intro hk k hl
        rcases k with - | k
        · simpa using h
        · exact hk k (by simpa using hl)
      · exact fun hk k hl => hk (k + 1) (by simpa using hl)

/-- The decode of whole triplets undoes the encoding of a stream, and drops an incomplete last group (R123, R132). -/
theorem decodeTriplets_encodeStream (ps : List Pair) (c : Bool) (extra : List Nibble) (h : extra.length < 3) :
    decodeTriplets ((encodeStream ps c).1 ++ extra) = ps := by
  induction ps generalizing c with
  | nil =>
    match extra, h with
    | [], _ => rfl
    | [_], _ => rfl
    | [_, _], _ => rfl
  | cons p ps ih =>
    simp only [encodeStream_cons, List.cons_append, decodeTriplets, ih]
    rw [decodeTriplet_of_encodeByte]

/-- The two ways a pair joins the chunks (R158): it begins a chunk, or it goes to the last one. -/
theorem addToChunks_cases (chunks : List Chunk) (p : Pair) :
    ((p.2 = true ∨ chunks = []) ∧ addToChunks chunks p = chunks ++ [[p]]) ∨
    (∃ done last, p.2 = false ∧ chunks = done ++ [last] ∧ addToChunks chunks p = done ++ [last ++ [p]]) := by
  rcases List.eq_nil_or_concat chunks with rfl | ⟨done, last, rfl⟩
  · exact .inl ⟨.inr rfl, by simp [addToChunks]⟩
  · rw [List.concat_eq_append]
    cases h : p.2
    · exact .inr ⟨done, last, rfl, rfl, by simp [addToChunks, h]⟩
    · exact .inl ⟨.inl rfl, by simp [addToChunks, h]⟩

@[simp] theorem splitData_nil : splitData [] = [] := rfl

theorem splitData_snoc (pairs : List Pair) (p : Pair) :
    splitData (pairs ++ [p]) = addToChunks (splitData pairs) p := by
  simp [splitData]

/-- Pairs with flag 0 go to the chunk that is open (R158). -/
theorem foldl_addToChunks_plain (done : List Chunk) (open_ : Chunk) (bs : List Byte) :
    (plain bs).foldl addToChunks (done ++ [open_]) = done ++ [open_ ++ plain bs] := by
  induction bs generalizing open_ with
  | nil => simp [plain]
  | cons b bs ih =>
    have : addToChunks (done ++ [open_]) (b, false) = done ++ [open_ ++ [(b, false)]] := by simp [addToChunks]
    simp only [plain, List.map_cons, List.foldl_cons] at ih ⊢
    rw [this, ih]
    simp

/-- A flagged pair and the plain bytes after it make one new chunk (R158). -/
theorem foldl_addToChunks_chunk (done : List Chunk) (b : Byte) (bs : List Byte) :
    (ctl b :: plain bs).foldl addToChunks done = done ++ [ctl b :: plain bs] := by
  have : addToChunks done (ctl b) = done ++ [[ctl b]] := by simp [addToChunks, ctl]
  rw [List.foldl_cons, this, foldl_addToChunks_plain]
  rfl

end Sys2Proof.Machine
end

