-- ==== Sys2Proof/Laws/PerInstr.lean ====
section
/-! SUPPORT. Facts of every instruction as syntax, one lemma per constructor: the encoding of an instruction is a
well-formed event (R91, R96, R97, R99). -/

/-- The event that encodes an instruction is well formed. -/
def Sys2Proof.Laws.EncodeWellFormed.Statement (i : Sys2Proof.Instr) : Prop := (Sys2Proof.encode i).wf = true

namespace Sys2Proof.Laws.EncodeWellFormed

/-- The two fields of an event word decide whether an event with no payload is well formed. -/
theorem wf_of_fields {w : Word} (code : Byte) (hc : code ∈ definedCodes) (hw : w.extractLsb' 24 8 = code)
    (ho : ∀ i, i < 24 → w.getLsbD i = true → (operandMask code).getLsbD i = true) :
    Event.wf ⟨w, []⟩ = true := by
  have : w.extractLsb' 0 24 &&& ~~~ operandMask code = 0#24 := by
    apply BitVec.eq_of_getLsbD_eq
    intro i hi
    have := ho i hi
    simp only [BitVec.getLsbD_and, BitVec.getLsbD_extractLsb', BitVec.getLsbD_not, hi, Nat.zero_add, decide_true,
      Bool.true_and, BitVec.getLsbD_zero]
    cases h : w.getLsbD i <;> simp_all
  simp [Event.wf, hw, hc, this]

theorem nop : Statement .nop := by unfold Statement; decide

theorem cycle (txr rxv : Bool) (rxb : Byte) : Statement (.cycle txr rxv rxb) := by
  refine wf_of_fields 0x01 (by decide) ?_ fun i hi h => ?_
  · apply BitVec.eq_of_getLsbD_eq
    intro i hi
    simp only [encodeWord, BitVec.getLsbD_extractLsb', BitVec.getLsbD_append]
    interval_cases i <;> simp
  · simp only [encodeWord, BitVec.getLsbD_append] at h
    interval_cases i <;> first | decide | simp at h

theorem send (payload : List Byte) : Statement (.send payload) := by
  simp [Statement, Event.wf, encode, encodeWord, definedCodes, operandMask]

theorem reset : Statement .reset := by unfold Statement; decide

theorem encByte (byte : Byte) (ctrl clk : Bool) : Statement (.encByte byte ctrl clk) := by
  refine wf_of_fields 0x10 (by decide) ?_ fun i hi h => ?_
  · apply BitVec.eq_of_getLsbD_eq
    intro i hi
    simp only [encodeWord, BitVec.getLsbD_extractLsb', BitVec.getLsbD_append]
    interval_cases i <;> simp
  · simp only [encodeWord, BitVec.getLsbD_append] at h
    interval_cases i <;> first | decide | simp at h

theorem decTriplet (s0 s1 s2 : Nibble) : Statement (.decTriplet s0 s1 s2) := by
  refine wf_of_fields 0x11 (by decide) ?_ fun i hi h => ?_
  · apply BitVec.eq_of_getLsbD_eq
    intro i hi
    simp only [encodeWord, BitVec.getLsbD_extractLsb', BitVec.getLsbD_append]
    interval_cases i <;> simp
  · simp only [encodeWord, BitVec.getLsbD_append] at h
    interval_cases i <;> first | decide | simp at h

theorem strobeExpand (sym prev : Nibble) : Statement (.strobeExpand sym prev) := by
  refine wf_of_fields 0x12 (by decide) ?_ fun i hi h => ?_
  · apply BitVec.eq_of_getLsbD_eq
    intro i hi
    simp only [encodeWord, BitVec.getLsbD_extractLsb', BitVec.getLsbD_append]
    interval_cases i <;> simp
  · simp only [encodeWord, BitVec.getLsbD_append] at h
    interval_cases i <;> first | decide | simp at h

end Sys2Proof.Laws.EncodeWellFormed
end

