-- ==== Sys2Proof/Machine/Assembler.lean ====
section
/-! DEFINITION. The assembler syntax for event sequences (spec/30_encoding.md R104, R105): from text to events. What
R104 leaves open about blanks, case and digits is fixed here (log 16). -/

namespace Sys2Proof.Machine

/-- A token of one line. -/
inductive Token where
  | word (w : List Char)
  | text (t : List Char)
  | comma
  | equals
  | open
  | close
  deriving DecidableEq, Repr

/-- The word read so far, its letters in reverse, as a token. -/
def flushWord (acc : List Char) : List Token := if acc.isEmpty then [] else [.word acc.reverse]

/-- The tokens of one line. `quoted` is the text read so far inside quotation marks, in reverse. `;` starts a comment
(R104). A quotation that does not end is no line. -/
def lexLine : Option (List Char) → List Char → List Char → Option (List Token)
  | none, acc, [] => some (flushWord acc)
  | some _, _, [] => none
  | some q, _, c :: cs =>
    if c = '"' then (lexLine none [] cs).map (fun ts => .text q.reverse :: ts) else lexLine (some (c :: q)) [] cs
  | none, acc, c :: cs =>
    if c = ';' then some (flushWord acc)
    else if c = ' ' ∨ c = '\t' ∨ c = '\r' then (lexLine none [] cs).map (fun ts => flushWord acc ++ ts)
    else if c = ',' then (lexLine none [] cs).map (fun ts => flushWord acc ++ .comma :: ts)
    else if c = '=' then (lexLine none [] cs).map (fun ts => flushWord acc ++ .equals :: ts)
    else if c = '[' then (lexLine none [] cs).map (fun ts => flushWord acc ++ .open :: ts)
    else if c = ']' then (lexLine none [] cs).map (fun ts => flushWord acc ++ .close :: ts)
    else if c = '"' then (lexLine (some []) [] cs).map (fun ts => flushWord acc ++ ts)
    else lexLine none (c :: acc) cs

/-- The value of a digit, of either case. -/
def digitValue (c : Char) : Option Nat :=
  if '0' ≤ c ∧ c ≤ '9' then some (c.toNat - '0'.toNat)
  else if 'a' ≤ c ∧ c ≤ 'f' then some (c.toNat - 'a'.toNat + 10)
  else if 'A' ≤ c ∧ c ≤ 'F' then some (c.toNat - 'A'.toNat + 10)
  else none

/-- Digits in a base, after the value `n` of the digits before them. -/
def digitsFrom (base : Nat) : Nat → List Char → Option Nat
  | n, [] => some n
  | n, c :: cs =>
    match digitValue c with
    | some d => if d < base then digitsFrom base (n * base + d) cs else none
    | none => none

/-- R104: numbers are decimal or `0x` hexadecimal. -/
def number : List Char → Option Nat
  | [] => none
  | ['0', 'x'] => none
  | '0' :: 'x' :: ds => digitsFrom 16 0 ds
  | ds => digitsFrom 10 0 ds

/-- A number that fits a field of `w` bits. -/
def field (w : Nat) (ds : List Char) : Option (BitVec w) :=
  match number ds with
  | some n => if n < 2 ^ w then some (BitVec.ofNat w n) else none
  | none => none

/-- A one-bit operand. -/
def bitField (ds : List Char) : Option Bool := (field 1 ds).map (fun b => b.getLsbD 0)

/-- One or more bytes with commas between them. -/
def byteList : List Token → Option (List Byte)
  | [.word w] => (field 8 w).map (fun b => [b])
  | .word w :: .comma :: rest =>
    match field 8 w, byteList rest with
    | some b, some bs => some (b :: bs)
    | _, _ => none
  | _ => none

/-- The bytes of a quoted ASCII text (R104). -/
def asciiBytes : List Char → Option (List Byte)
  | [] => some []
  | c :: cs =>
    match asciiBytes cs with
    | some bs => if c.toNat < 128 then some (BitVec.ofNat 8 c.toNat :: bs) else none
    | none => none

/-- The payload operand of SEND: a bracketed list or a quoted text. -/
def sendOperand : List Token → Option (List Byte)
  | [.text t] => asciiBytes t
  | [.open, .close] => some []
  | .open :: ts => if ts.getLast? = some .close then byteList ts.dropLast else none
  | _ => none

/-- The operands of a line with the mnemonic `m` (R104, R105). -/
def parseOperands (m : List Char) (ts : List Token) : Option AsmLine :=
  if m = "NOP".toList then (if ts.isEmpty then some (.event .nop) else none)
  else if m = "RESET".toList then (if ts.isEmpty then some (.event .reset) else none)
  else if m = "CYCLE".toList then
    match ts with
    | [.word k1, .equals, .word v1, .comma, .word k2, .equals, .word v2] =>
      if k1 = "rx".toList ∧ k2 = "ready".toList then
        match bitField v2 with
        | none => none
        | some txr =>
          if v1 = ['-'] then some (.event (.cycle txr false 0))
          else (field 8 v1).map (fun rxb => .event (.cycle txr true rxb))
      else none
    | _ => none
  else if m = "SEND".toList then (sendOperand ts).map (fun bs => .event (.send bs))
  else if m = "ENC_BYTE".toList then
    match ts with
    | [.word b, .comma, .word f, .comma, .word c] =>
      match field 8 b, bitField f, bitField c with
      | some b, some f, some c => some (.event (.encByte b f c))
      | _, _, _ => none
    | _ => none
  else if m = "DEC_TRIPLET".toList then
    match ts with
    | [.word a, .comma, .word b, .comma, .word c] =>
      match field 4 a, field 4 b, field 4 c with
      | some a, some b, some c => some (.event (.decTriplet a b c))
      | _, _, _ => none
    | _ => none
  else if m = "STROBE_EXPAND".toList then
    match ts with
    | [.word a, .comma, .word b] =>
      match field 4 a, field 4 b with
      | some a, some b => some (.event (.strobeExpand a b))
      | _, _ => none
    | _ => none
  else if m = "IDLE".toList then
    match ts with
    | [.word n] => (number n).map .idle
    | _ => none
  else if m = "STALL".toList then
    match ts with
    | [.word n] => (number n).map .stall
    | _ => none
  else if m = "RX".toList then
    match ts with
    | [.word v] => (field 8 v).map .rx
    | _ => none
  else if m = "FEED".toList then (byteList ts).map .feed
  else none

/-- One line: nothing, or one event or pseudo-event, as the events it stands for. `none` is no line of the syntax. -/
def assembleLine (line : List Char) : Option (List Event) :=
  match lexLine none [] line with
  | some [] => some []
  | some (.word m :: ts) => (parseOperands m ts).map (fun l => l.expand.map encode)
  | _ => none

/-- Split a text at its line ends; `acc` is the line read so far, in reverse. -/
def linesFrom : List Char → List Char → List (List Char)
  | acc, [] => [acc.reverse]
  | acc, c :: cs => if c = '\n' then acc.reverse :: linesFrom [] cs else linesFrom (c :: acc) cs

/-- R104: the events of a text, one event or pseudo-event a line. -/
def assemble (text : List Char) : Option (List Event) :=
  ((linesFrom [] text).mapM assembleLine).map List.flatten

end Sys2Proof.Machine
end

