-- ==== Sys2Proof/Machine/Link.lean ====
section
/-! DEFINITION. Two instances joined by a channel: the harness the spec uses for two blocks (spec/60_exceptions.md
R284, spec/70_reset_and_hazards.md R293, R305, spec/44_arq.md R256, spec/95_test_vectors.md P6). It stands outside
the block: neither instance holds any of it (log 14). -/

namespace Sys2Proof.Machine

/-- Two instances and the value each one's line holds, which is 0x00 before the first write (R293). -/
structure Link where
  a     : State
  b     : State
  lineA : Byte
  lineB : Byte
  deriving DecidableEq, Repr

/-- The value a line holds after further outputs: the last write, or the old value if there is none (R232, R276). -/
def lineAfter (line : Byte) (new : List Output) : Byte :=
  new.foldl (fun l o => match o with | .write b => b | .payload _ => l | .halted _ => l) line

/-- The outputs `t` has emitted beyond those of `s`. -/
def newOutputs (s t : State) : List Output := t.out.drop s.out.length

/-- Run one event on an instance; an instance that stops keeps its state. -/
def feed (i : Instr) (s : State) : State :=
  match step (offerEvent (encode i) s) with
  | .next t => t
  | .fault _ => s
  | .refused _ => s

/-- One CYCLE on each side, A first, with the transport ready: each side reads the other's line as it stands, through
a channel that may change the value (R284, P6). -/
def Link.cycle (toA toB : Byte → Byte) (l : Link) : Link :=
  let a := feed (.cycle true true (toA l.lineB)) l.a
  let b := feed (.cycle true true (toB l.lineA)) l.b
  { a := a, b := b,
    lineA := lineAfter l.lineA (newOutputs l.a a),
    lineB := lineAfter l.lineB (newOutputs l.b b) }

end Sys2Proof.Machine
end

