-- ==== Sys2Proof/Tests/Slice0.lean ====
section
/-! SUPPORT. The package's own tests, each named. Expected values are those of spec/95_test_vectors.md (named in each
docstring), or words written out from the layouts of spec/30_encoding.md. The second part shows, for each statement with
hypotheses, a concrete state and operands that meet them. -/

namespace Sys2Proof.Tests

open Sys2Proof Sys2Proof.Machine

/-! ### Helpers -/

/-- The default parameters of spec/95_test_vectors.md, with small capacities. -/
def params : Params := ⟨60, 1, 100, false, 2000, 2000, 5, 300⟩

/-- A block right after reset. -/
def s0 : State := State.resetWith params [] []

/-- The same block with an event offered. -/
def offered (w : Word) : State := { s0 with inbox := [⟨w, []⟩] }

/-- A block in FATAL. -/
def sFatal : State := { s0 with fatalCause := some .totalReserved }

/-- The state of an outcome, if there is one. -/
def nextOf : Host.Outcome State Fault Refusal → Option State
  | .next t => some t
  | .fault _ => none
  | .refused _ => none

/-- The refusal of an outcome, if there is one. -/
def refusalOf : Host.Outcome State Fault Refusal → Option Refusal
  | .refused r => some r
  | .next _ => none
  | .fault _ => none

/-- The payload "Hi". -/
def hi : List Byte := [0x48, 0x69]

/-- Vector T1: the 63 symbols of "Hi", all but the last. -/
def hiInit : List Nibble :=
  [0x8, 0x5, 0xD, 0x0, 0x8, 0x0, 0x8, 0x0, 0x8, 0x0, 0x8, 0x2, 0x8, 0x3, 0xE, 0x1, 0xD, 0x4, 0xB, 0x6, 0x8] ++
  [0x2, 0x8, 0x0, 0x8, 0x0, 0xB, 0x0, 0x8, 0x0, 0x8, 0x0, 0xC, 0x0, 0x8, 0x0, 0x8, 0x0, 0xA, 0x0, 0x8, 0x6] ++
  [0x8, 0x0, 0xD, 0x2, 0xA, 0x0, 0xB, 0x2, 0xA, 0x3, 0xD, 0x0, 0xF, 0x7, 0x8, 0x5, 0xA, 0x2, 0x8, 0x1]

/-- Vector T1: the 63 symbols of "Hi". -/
def hiSyms : List Nibble := hiInit ++ [0x9]

/-- Vector E1: the 27 symbols of a frame with total_packets 0xFFFF, all but the last. -/
def e1Init : List Nibble :=
  [0x8, 0x5, 0xD, 0x0, 0x8, 0x0, 0xF, 0x7, 0xE, 0x7, 0xF, 0x6, 0xE, 0x5, 0xE, 0x2, 0xE, 0x0, 0xD, 0x7, 0x8] ++
  [0x1, 0xC, 0x6, 0x8, 0x1]

/-- The symbols of a list of pairs, from clock state 1. -/
def symbols (ps : List Pair) : List Nibble := (encodeStream ps true).1

/-- A pair of a frame: `b` ordinary. -/
def bytes (bs : List Byte) : List Pair := bs.map (fun b => (b, false))

/-- Vector T1: the header chunk of "Hi". -/
def hiHeader : List Pair := (0x16, true) :: bytes [0x00, 0x00, 0x01, 0x0F, 0x36, 0x78, 0x40]

/-- Vector T6, row "id 0xFFFF". -/
def reservedIdPairs : List Pair :=
  hiHeader ++ (0x01, true) :: bytes [0x00, 0x02, 0xFF, 0xFF, 0x03] ++
    (0x02, true) :: bytes [0x48, 0x69, 0x59, 0x85, 0xFC] ++ [(0x04, true)]

/-- Vector T4: the Enquiry for [2]. -/
def enquiryPairs : List Pair :=
  (0x16, true) :: bytes [0x01, 0x00, 0x01, 0x0F, 0x36, 0x78, 0x40] ++
    (0x01, true) :: bytes [0x00, 0x02, 0x00, 0x01, 0x03] ++
    (0x02, true) :: bytes [0x02, 0x00, 0x16, 0xD9, 0xCD] ++ [(0x04, true)]

/-- A transfer of three Packets with Packet 2 received. -/
def sGap : State :=
  { s0 with xferActive := true, xferTotal := 3, ctab := [(2, [0x42])], arqState := .waitingForResponse, enq := some [] }

/-- A strobing block between the two writes of a symbol. -/
def sStrobe : State :=
  { State.resetWith { params with strobeEn := true } [] [] with txLastWrite := 0x8, txPending := some 0x8, txq := [0x5] }

/-! ### WellFormed: each check refuses an ill-formed term -/

theorem test_legal : params.legal = true ∧ Config.atReset.legal = true := by decide
theorem test_chunk_size_low : Params.legal { params with chunkSize := 0 } = false := by decide
theorem test_chunk_size_high : Params.legal { params with chunkSize := 101 } = false := by decide
theorem test_delay_zero : Params.legal { params with interSymbolDelay := 0 } = false := by decide
theorem test_timeout_zero : Params.legal { params with timeout := 0 } = false := by decide
theorem test_rxbuf_cap_low : Params.legal { params with rxbufCap := 26 } = false := by decide
theorem test_txq_cap_low : Params.legal { params with txqCap := 26 } = false := by decide
theorem test_slots_zero : Params.legal { params with maxPacketsRx := 0 } = false := by decide
theorem test_slots_high : Params.legal { params with maxPacketsRx := 65535 } = false := by decide
theorem test_payload_max_high : Params.legal { params with payloadMax := 3932041 } = false := by decide
theorem test_event_reserved_code : Event.wf ⟨0x04000000, []⟩ = false := by decide
theorem test_event_reserved_bit : Event.wf ⟨0x01000400, []⟩ = false := by decide
theorem test_event_stray_payload : Event.wf ⟨0x03000000, [0x00]⟩ = false := by decide
theorem test_event_wf : Event.wf ⟨0x010003FF, []⟩ = true ∧ Event.wf ⟨0x02000000, hi⟩ = true := by decide
theorem test_send_too_long : (Instr.send hi).wf { params with payloadMax := 1 } = false := by decide

/-! ### Decoding: words written out from R91 to R98 -/

theorem test_decode_nop : decodeTableWord 32 0b00000000_000000000000000000000000 = some .nop := by decide
theorem test_decode_cycle :
    decodeTableWord 32 0b00000001_00000000000000_1_0_10110001 = some (.cycle true false 0xB1) := by decide
theorem test_decode_cycle_read :
    decodeTableWord 32 0b00000001_00000000000000_0_1_00001101 = some (.cycle false true 0x0D) := by decide
theorem test_decode_send : decodeTableWord 32 0b00000010_000000000000000000000000 = some (.send []) := by decide
theorem test_decode_send_payload : decode ⟨0x02000000, hi⟩ = .ok (.send hi) := by decide
theorem test_decode_reset : decodeTableWord 32 0b00000011_000000000000000000000000 = some .reset := by decide
theorem test_decode_enc_byte :
    decodeTableWord 32 0b00010000_00000000000000_0_1_00010110 = some (.encByte 0x16 true false) := by decide
theorem test_decode_dec_triplet :
    decodeTableWord 32 0b00010001_000000000000_1000_0101_1101 = some (.decTriplet 0x8 0x5 0xD) := by decide
theorem test_decode_strobe_expand :
    decodeTableWord 32 0b00010010_0000000000000000_1101_0101 = some (.strobeExpand 0x5 0xD) := by decide
theorem test_decode_reserved : ∀ code ∈ [0x04, 0x0F, 0x13, 0xFF], decodeTableWord 32 (code * 2 ^ 24) = none := by decide
theorem test_encode :
    encode (.cycle true true 0x0D) = ⟨0x0100030D, []⟩ ∧ encode (.encByte 0xA5 false true) = ⟨0x100002A5, []⟩ ∧
      encode (.strobeExpand 0xD 0x5) = ⟨0x1200005D, []⟩ ∧ encode (.send hi) = ⟨0x02000000, hi⟩ := by decide

/-- R104 and R105, with the event words of spec/95_test_vectors.md. -/
theorem test_assemble :
    assemble "ENC_BYTE 0x16, 1, 0 ; SOT\nFEED 8, 0x05\nSEND \"Hi\"\nSTALL 1".toList =
      some [⟨0x10000116, []⟩, ⟨0x01000308, []⟩, ⟨0x01000305, []⟩, ⟨0x02000000, hi⟩, ⟨0x01000000, []⟩] := by decide

/-! ### One step per instruction -/

/-- R230: NOP. -/
theorem test_nop : nextOf (step (s0.withFetchWord 32 0x00000000)) = some s0 := by decide

/-- A1: the first CYCLE after SEND "Hi". -/
theorem test_cycle_writes :
    (nextOf (exec (.cycle true false 0x00) { s0 with txq := hiSyms, txClock := false })).map
      (fun t => (t.out, t.txq.length, t.txLastWrite, t.timer)) = some ([.write 0x08], 62, 0x8, 1) := by decide

/-- P3: the last symbol of "Hi" delivers the payload. -/
theorem test_cycle_delivers :
    (nextOf (exec (.cycle true true 0x09) { s0 with rxbuf := hiInit })).map
      (fun t => (t.out, t.rxbuf, t.diag.framesOk, t.status)) =
      some ([.payload hi], [], 1, 0x00000300) := by decide +kernel

/-- T1 and A3: SEND queues exactly the symbols of T1, if they fit. -/
theorem test_send :
    (nextOf (exec (.send hi) { s0 with params := { params with txqCap := 63 } })).map
      (fun t => (t.txq, t.txClock, t.status)) = some (hiSyms, false, 0x00000040) := by decide +kernel

/-- A4: SEND rejected. -/
theorem test_send_rejected :
    (nextOf (exec (.send hi) { s0 with params := { params with payloadMax := 1 } })).map
      (fun t => (t.status, t.orig)) = some (0x00000500, none) := by decide

/-- E5: RESET leaves FATAL. -/
theorem test_reset : nextOf (exec .reset { sFatal with result := 5, txq := [0x8] }) = some s0 := by decide

/-- C2. -/
theorem test_enc_byte : (nextOf (exec (.encByte 0x16 true false) s0)).map (·.result) = some 0x000010D5 := by decide
theorem test_enc_byte_phase : (nextOf (exec (.encByte 0xA5 false true) s0)).map (·.result) = some 0x00000D1A := by decide

/-- C3. -/
theorem test_dec_triplet : (nextOf (exec (.decTriplet 0x2 0xA 0x0) s0)).map (·.result) = some 0x00000048 := by decide
theorem test_dec_triplet_clock : (nextOf (exec (.decTriplet 0x7 0x7 0x7) s0)).map (·.result) = some 0x000001FF := by
  decide

/-- C4. -/
theorem test_strobe : (nextOf (exec (.strobeExpand 0x5 0xD) s0)).map (·.result) = some 0x00000055 := by decide
theorem test_strobe_same : (nextOf (exec (.strobeExpand 0xF 0xF) s0)).map (·.result) = some 0x0000007F := by decide

/-- E6 and E4: a reserved code, running and in FATAL. -/
theorem test_reserved_code : refusalOf (step (offered 0x13000000)) = some (.reservedCode 0x13) := by decide
theorem test_reserved_code_fatal :
    nextOf (step { sFatal with inbox := [⟨0x04000000, []⟩] }) = some sFatal := by decide

/-! ### Shared operations -/

/-- F1. -/
theorem test_gmul : gmul 0x53 0xCA = 0x8F ∧ gmul 0xFF 0xFF = 0xE2 ∧ ginv 0x53 = 0x8C := by decide

/-- F2. -/
theorem test_generator : genPoly 6 = [0x01, 0x3F, 0x01, 0xDA, 0x20, 0xE3, 0x26] := by decide

/-- F3. -/
theorem test_rs_encode : rsEncode [0x00, 0x02, 0x00, 0x01, 0x03, 0x48, 0x69] 3 = [0x74, 0xFC, 0xA9] := by decide

/-- F5 and F10. -/
theorem test_rs_decode :
    rsDecode [0x00, 0xFC, 0x11, 0x5A, 0x88, 0xC1] 4 = some ([0x00, 0x03, 0x11, 0x5A, 0x88, 0xC0], 2) ∧
      rsDecode [0x01, 0x02, 0x10, 0x5A, 0x88, 0xC0] 4 = none ∧
      rsDecode [0x24, 0x6A, 0x11, 0x3D, 0x88, 0xC0] 4 = some ([0x24, 0x6A, 0x11, 0x3D, 0xF7, 0x95], 2) := by
  decide +kernel

/-- Y1. -/
theorem test_sync :
    sync [0x8, 0x5, 0xD, 0x0, 0x9] = none ∧ sync [0x8, 0x5, 0xD, 0x0, 0x8, 0x1, 0x9] = none ∧
      sync [0x0, 0xD, 0x5, 0x8, 0x1, 0x9] = some (0, 3) ∧ sync hiSyms = some (0, 60) := by decide

/-- C6. -/
theorem test_trim :
    decodeStream [0x0, 0x8, 0x0] = [] ∧ decodeStream [0x0, 0x9, 0x1, 0x8] = [(0x04, true)] ∧
      decodeStream [0x8, 0x0, 0x9, 0x0, 0x8, 0x0] = [(0x00, true)] := by decide

/-- Y4: chunks of pairs with and without a header. -/
theorem test_split :
    splitData [(0x41, false), (0x16, true), (0x00, false)] = [[(0x41, false)], [(0x16, true), (0x00, false)]] ∧
      splitData [] = [] ∧ splitData [(0x16, true), (0x04, true)] = [[(0x16, true)], [(0x04, true)]] := by decide

/-- T5: the odd byte 05 is not used. -/
theorem test_requested_ids : requestedIds [⟨1, [0x02, 0x00, 0x05], 0⟩, ⟨2, [0x34, 0x12], 0⟩] = [0x0002, 0x1234] := by
  decide

/-- E1, E3 and Y3: the cause codes in STATUS. -/
theorem test_status_codes :
    State.status { s0 with fatalCause := some .totalReserved, rxClock := true } = 0x00000307 ∧
      State.status { s0 with fatalCause := some .reservedId, rxClock := true } = 0x00000305 ∧
      State.status { s0 with lastLoss := some .headerLength } = 0x00002100 := by decide

/-- T4. -/
theorem test_enquiry : serialize (enquiry [2] 60) = enquiryPairs := by decide +kernel

/-- P6: a line holds its block's last write, and each block reads the other's line, A before B in one CYCLE. -/
theorem test_link :
    (Link.cycle id id ⟨{ s0 with txq := [0x9] }, { s0 with rxClock := false }, 0x01, 0x00⟩).lineA = 0x09 ∧
      (Link.cycle id id ⟨s0, s0, 0x08, 0x00⟩).b.rxbuf = [0x8] := by decide

/-! ### Witnesses: the hypotheses of each statement are met -/

theorem witness_encodeOfDecode : Event.wf ⟨0x100003FF, []⟩ = true ∧ Event.wf ⟨0x02000000, hi⟩ = true := by decide

theorem witness_reservedOperandBits :
    let w : Word := 0x10000116
    let w' : Word := 0x10FFFD16
    w.extractLsb' 24 8 = w'.extractLsb' 24 8 ∧
      w.extractLsb' 0 24 &&& operandMask (w.extractLsb' 24 8) =
        w'.extractLsb' 0 24 &&& operandMask (w.extractLsb' 24 8) := by decide

theorem witness_reservedCodes :
    ∀ w ∈ ([0x04000000, 0x0F000000, 0x13000000, 0xFF000000] : List Word),
      (offered w).params.legal = true ∧ (offered w).fatalCause = none ∧ (offered w).inbox = ⟨w, []⟩ :: [] ∧
        w.extractLsb' 24 8 ∉ ([0x00, 0x01, 0x02, 0x03, 0x10, 0x11, 0x12] : List Byte) := by
  have h : ∀ w ∈ ([0x04000000, 0x0F000000, 0x13000000, 0xFF000000] : List Word),
    w.extractLsb' 24 8 ∉ ([0x00, 0x01, 0x02, 0x03, 0x10, 0x11, 0x12] : List Byte) := by simp
  exact fun w hw => ⟨test_legal.1, rfl, rfl, h w hw⟩

theorem witness_stepRuns :
    (offered 0x0100030D).params.legal = true ∧ (offered 0x0100030D).inbox = ⟨0x0100030D, []⟩ :: [] ∧
      decode ⟨0x0100030D, []⟩ = .ok (.cycle true true 0x0D) := by decide

/-- The condition of R8 and R9, as the statement on illegal instantiations writes it. -/
def inRange (p : Params) : Prop :=
  (1 ≤ p.chunkSize ∧ p.chunkSize ≤ 100) ∧ 1 ≤ p.interSymbolDelay ∧ 1 ≤ p.timeout ∧ 27 ≤ p.rxbufCap ∧
    27 ≤ p.txqCap ∧ (1 ≤ p.maxPacketsRx ∧ p.maxPacketsRx ≤ 65534) ∧
    (p.payloadMax + p.chunkSize - 1) / p.chunkSize ≤ 65534

theorem witness_illegalInstantiation :
    ¬ inRange { params with chunkSize := 101 } ∧ ¬ inRange { params with interSymbolDelay := 0 } ∧
      ¬ inRange { params with timeout := 0 } ∧ ¬ inRange { params with rxbufCap := 26 } ∧
      ¬ inRange { params with txqCap := 26 } ∧ ¬ inRange { params with maxPacketsRx := 65535 } ∧
      ¬ inRange { params with payloadMax := 3932041 } ∧ inRange params := by
  simp [inRange, params]

theorem witness_stepKeepsParameters :
    step (offered 0x10000116) = .next { s0 with result := 0x000010D5 } := rfl

theorem witness_fatalStops :
    (sFatal.fatalCause ≠ none ∧ Instr.nop ≠ .reset) ∧
      ∀ w ∈ ([0x00000000, 0x04000000, 0x10000116] : List Word),
        let s : State := { sFatal with inbox := [⟨w, []⟩] }
        s.params.legal = true ∧ s.fatalCause ≠ none ∧ s.inbox = ⟨w, []⟩ :: [] ∧ decode ⟨w, []⟩ ≠ .ok .reset := by
  have h : ∀ w ∈ ([0x00000000, 0x04000000, 0x10000116] : List Word), decode ⟨w, []⟩ ≠ .ok .reset := by
    simp [decode, eventCode]
  exact ⟨by decide, fun w hw => ⟨test_legal.1, by simp [sFatal], rfl, h w hw⟩⟩

theorem witness_onlyReceivingEntersFatal :
    (∃ t, exec (.cycle true true 0x09) { s0 with rxbuf := e1Init } = .next t ∧ t.fatalCause = some .totalReserved) ∧
      ∃ t, exec .reset sFatal = .next t ∧ t.fatalCause ≠ sFatal.fatalCause :=
  ⟨⟨_, rfl, by decide +kernel⟩, _, rfl, by decide⟩

theorem witness_codeFields :
    (0x00ABCDEF : Word).extractLsb' 24 8 = 0x00 ∧ (0x01ABCDEF : Word).extractLsb' 24 8 = 0x01 ∧
      (0x02ABCDEF : Word).extractLsb' 24 8 = 0x02 ∧ (0x03ABCDEF : Word).extractLsb' 24 8 = 0x03 ∧
      (0x10ABCDEF : Word).extractLsb' 24 8 = 0x10 ∧ (0x11ABCDEF : Word).extractLsb' 24 8 = 0x11 ∧
      (0x12ABCDEF : Word).extractLsb' 24 8 = 0x12 := by decide

/-- For the statements on NOP, RESET and the three codec commands, beside `witness_codeFields`. -/
theorem witness_codecCommands : s0.fatalCause = none ∧ sFatal.fatalCause ≠ none := by decide

theorem witness_encodedStreams :
    (encodeStream [(0x16, true)] true).1.head? = some 0x8 ∧
      (encodeStream [(0x16, true)] true).1.getLast? = some 0xD := by decide

theorem witness_streamRoundTrip :
    ([0x8, 0x1] : List Nibble).length < 3 ∧
      (([(0x16, true), (0x00, false)] : List Pair).getLast?).map (fun p => p.1) = some 0x00 := by decide

theorem witness_cycleCompletes :
    s0.fatalCause = none ∧ (rxPhase false 0x00 (txPhase true s0)).1.fatalCause = none ∧
      (rxPhase true 0x09 (txPhase true { s0 with rxbuf := e1Init })).1.fatalCause = some .totalReserved := by
  decide +kernel

theorem witness_transmitPhase :
    ¬ (s0.params.interSymbolDelay ≤ s0.txCnt + 1 ∧ true = true ∧ (s0.txPending ≠ none ∨ s0.txq ≠ [])) ∧
      (sStrobe.params.interSymbolDelay ≤ sStrobe.txCnt + 1 ∧ sStrobe.params.strobeEn = true ∧
        sStrobe.txPending = some 0x8) ∧
      (let s : State := { sStrobe with txPending := none }
       s.params.interSymbolDelay ≤ s.txCnt + 1 ∧ s.params.strobeEn = true ∧ s.txPending = none ∧
        s.txq = 0x5 :: []) ∧
      (let s : State := { s0 with txq := [0x8] }
       s.params.interSymbolDelay ≤ s.txCnt + 1 ∧ s.params.strobeEn = false ∧ s.txq = 0x8 :: []) := by decide

theorem witness_receivePhase :
    (0x05 : Byte).getLsbD 3 = s0.rxClock ∧ (0x08 : Byte).getLsbD 3 ≠ s0.rxClock ∧
      sync ([0x0, 0xD, 0x5, 0x8, 0x1] ++ [0x9]) = some (0, 3) ∧
      (sync ([] ++ [0x8]) = none ∧ ([] ++ [0x8] : List Nibble).length < s0.params.rxbufCap) ∧
      (sync (hiInit.take 26 ++ [0xC]) = none ∧ (hiInit.take 26 ++ [0xC]).length = 27 ∧
        Params.legal { params with rxbufCap := 27 } = true) := by decide

theorem witness_timerPhase :
    (let s : State := { s0 with timer := 98 }
     ¬ (s.arqState = .waitingForResponse ∧ s.params.timeout ≤ s.timer + 1)) ∧
      (let s : State := { sGap with timer := 99, enq := some [(0x16, true)] }
       s.arqState = .waitingForResponse ∧ s.params.timeout ≤ s.timer + 1 ∧ s.enq = some [(0x16, true)] ∧
        s.txq.length + 3 * [((0x16, true) : Pair)].length ≤ s.params.txqCap) ∧
      (let s : State :=
        { sGap with timer := 100, enq := some [(0x16, true)], params := { params with txqCap := 2 } }
       s.arqState = .waitingForResponse ∧ s.params.timeout ≤ s.timer + 1 ∧
        s.params.txqCap < s.txq.length + 3 * [((0x16, true) : Pair)].length) := by
  decide

theorem witness_outputsComeInOrder :
    (∃ t, exec (.cycle true true 0x09) s0 = .next t) ∧ (∃ t, exec .nop s0 = .next t) ∧
      ∀ txr rxv rxb, Instr.nop ≠ .cycle txr rxv rxb := ⟨⟨_, rfl⟩, ⟨_, rfl⟩, by simp⟩

theorem witness_cycleFrames :
    (∃ t, exec (.cycle true true 0x09) s0 = .next t) ∧ (∃ t, exec (.cycle true false 0x00) s0 = .next t) ∧
      (∃ t, exec (.cycle false true 0x08) s0 = .next t) ∧
      ∃ t b, exec (.cycle false false 0x00) { s0 with out := [.write b] } = .next t ∧ .write b ∈ t.out :=
  ⟨⟨_, rfl⟩, ⟨_, rfl⟩, ⟨_, rfl⟩, _, 0x08, rfl, by decide⟩

theorem witness_queuedSymbols :
    s0.params.strobeEn = false ∧ Instr.send hi ≠ .reset ∧ ∃ t, exec (.send hi) s0 = .next t :=
  ⟨rfl, by decide, _, rfl⟩

theorem sStrobe_inv : sStrobe.Inv where
  txCnt_le := by decide
  timer_le := by decide
  txq_le := by decide
  rxbuf_le := by decide
  rxbuf_alternates := by decide
  rxbuf_last := by simp [sStrobe, State.resetWith]
  idle_empty := by decide
  waiting_iff_active := by decide
  waiting_enq := by decide
  pending_strobe := by decide
  pending_eq := by simp [sStrobe]
  tx_alternates := by decide
  tx_clock := by decide
  total_le := by decide
  ctab_wf := by decide
  ctab_slots := by decide
  orig_sound := by simp [sStrobe, State.resetWith]

theorem witness_strobedSymbols :
    sStrobe.Inv ∧ sStrobe.params.strobeEn = true ∧ Instr.cycle true false 0x00 ≠ .reset ∧
      ∃ t, exec (.cycle true false 0x00) sStrobe = .next t := ⟨sStrobe_inv, rfl, by decide, _, rfl⟩

theorem witness_sendEffect :
    sFatal.fatalCause ≠ none ∧ s0.fatalCause = none ∧
      (let p : Params := { params with payloadMax := 1 }
       p.payloadMax < hi.length) ∧
      (let p : Params := { params with payloadMax := 70000, chunkSize := 1 }
       0xFFFE < ((List.replicate 65535 (0x00 : Byte)).length + p.chunkSize - 1) / p.chunkSize) ∧
      (hi.length ≤ s0.params.payloadMax ∧ (hi.length + s0.params.chunkSize - 1) / s0.params.chunkSize ≤ 0xFFFE ∧
        s0.txq.length + 3 * (serialize (newTransmission (dataPackets hi 60) false)).length ≤ s0.params.txqCap) ∧
      (let s : State := { s0 with params := { params with txqCap := 62 } }
       s.params.txqCap < s.txq.length + 3 * (serialize (newTransmission (dataPackets hi 60) false)).length) := by
  refine ⟨by decide, by decide, by decide, ?_, by decide, by decide⟩
  simp only [List.length_replicate]
  decide

theorem witness_packetsCarryChunks :
    1 ≤ 2 ∧ (dataPackets [0x41, 0x42, 0x43] 2)[1]? = some (newPacket [0x43] 2) ∧
      (([0x41, 0x42, 0x43] : List Byte).length + 2 - 1) / 2 ≤ 0xFFFE := by decide

theorem witness_newPacketFields : (List.replicate 100 (0x00 : Byte)).length ≤ 100 := by simp

theorem witness_dataFrameLength : 1 ≤ 1 := by decide

theorem witness_frameEndsAtTheTail :
    sync [0x8, 0x5, 0xD, 0x0, 0x9] = none ∧ sync ([0x8, 0x5, 0xD, 0x0, 0x9] ++ [0x1]) = some (0, 3) := by decide

/-- The noise of Y6. -/
theorem witness_leadingNoise :
    ∀ i, i < ([0xA, 0x3] : List Nibble).length →
      isStart ([0xA, 0x3] ++ frameSymbols (newTransmission (dataPackets hi 60) false) true) i = false := by decide

theorem witness_fieldInverses : (0x53 : Byte) ≠ 0 ∧ 0 < 254 ∧ 254 < 255 := by decide

theorem witness_codewordsVanish : 255 ≤ 255 ∧ 0 < 255 := by decide

/-- F6, "byte 5 = 49". -/
theorem witness_packetErrors :
    hi.length ≤ 100 ∧
      packetHeader (newPacket hi 1) ++ hi ++ (newPacket hi 1).ecc =
        [0x00, 0x02, 0x00, 0x01, 0x03, 0x48, 0x69, 0x74, 0xFC, 0xA9] ∧
      hamming [0x00, 0x02, 0x00, 0x01, 0x03, 0x48, 0x69, 0x74, 0xFC, 0xA9]
        ([0x00, 0x02, 0x00, 0x01, 0x03] ++ [0x49, 0x69] ++ [0x74, 0xFC, 0xA9]) ≤ 3 * hi.length / 2 / 2 := by decide

/-- T6: a frame for each header check. -/
theorem witness_headerChecks :
    splitData (decodeStream []) = [] ∧
      (splitData (decodeStream (symbols (bytes [0x41, 0x42])))).head? = some (bytes [0x41, 0x42]) ∧
      splitData (decodeStream [0x8, 0x5, 0xD, 0x0, 0x9, 0x1]) = [[(0x16, true)], [(0x04, true)]] ∧
      splitData (decodeStream (symbols (hiHeader ++ [(0x04, true)]))) = [hiHeader, [(0x04, true)]] ∧
      rsDecode [0x01, 0x02, 0x10, 0x36, 0x78, 0x40] 4 = none ∧
      rsDecode [0x00, 0x01, 0x0F, 0x36, 0x78, 0x40] 4 = some ([0x00, 0x01, 0x0F, 0x36, 0x78, 0x40], 0) ∧
      (walkChunks (splitData (decodeStream (symbols reservedIdPairs))).tail Diag.zero []).2 = none ∧
      (walkChunks (splitData (decodeStream hiSyms)).tail Diag.zero []).2 = some [⟨1, hi, 0⟩] := by decide +kernel

/-- F6 and T6: each of the three outcomes of a pair of chunks. -/
theorem witness_packetChecks :
    parsePacket ((0x01, true) :: bytes [0x00, 0x02, 0x00, 0x01, 0x03])
        ((0x02, true) :: bytes [0x49, 0x68, 0x74, 0xFC, 0xA9]) = .failed ∧
      parsePacket ((0x01, true) :: bytes [0x00, 0x02, 0xFF, 0xFF, 0x03])
        ((0x02, true) :: bytes [0x48, 0x69, 0x59, 0x85, 0xFC]) = .reservedId ∧
      parsePacket ((0x01, true) :: bytes [0x00, 0x02, 0x00, 0x01, 0x03])
        ((0x02, true) :: bytes [0x48, 0x69, 0x74, 0xFC, 0xA9]) = .recovered ⟨1, hi, 0⟩ := by decide +kernel

theorem witness_chunkWalk :
    ¬ (([(0x03, true)] : Chunk).head? = some (0x01, true) ∧ ([(0x02, true)] : Chunk).head? = some (0x02, true)) ∧
      parsePacket [(0x01, true)] [(0x02, true)] = .failed ∧
      parsePacket ((0x01, true) :: bytes [0x00, 0x02, 0xFF, 0xFF, 0x03])
        ((0x02, true) :: bytes [0x48, 0x69, 0x59, 0x85, 0xFC]) = .reservedId ∧
      parsePacket ((0x01, true) :: bytes [0x00, 0x02, 0x00, 0x01, 0x03])
        ((0x02, true) :: bytes [0x49, 0x69, 0x74, 0xFC, 0xA9]) = .recovered ⟨1, hi, 1⟩ := by decide +kernel

/-- S6: 130 bytes in chunks of 60, and the empty payload in chunks of 100. -/
theorem witness_dataFrameRoundTrip :
    (1 ≤ 60 ∧ 60 ≤ 100 ∧ ((List.replicate 130 (0x03 : Byte)).length + 60 - 1) / 60 ≤ 0xFFFE) ∧
      (1 ≤ 100 ∧ (([] : List Byte).length + 100 - 1) / 100 ≤ 0xFFFE) := by simp

/-- T4, CHUNK_SIZE 4, and the bounds of the hypotheses. -/
theorem witness_enquiryRoundTrip :
    (enquiry [1, 2, 3, 4, 5] 4).packets[1]? = some (newPacket [0x03, 0x00, 0x04, 0x00] 2) ∧
      (enquiry [1, 2, 3, 4, 5] 4).packets[2]? = some (newPacket [0x05, 0x00] 3) ∧ 1 ≤ 1 ∧ 1 ≤ 100 ∧ [1, 0xFFFE].length ≤ 0xFFFE ∧ ∀ k ∈ [1, 0xFFFE], k ≤ 0xFFFE := by decide +kernel

/-- E1, Y3, and the frames of T1 and T4, for the cases of a parse. -/
theorem witness_frameOutcomes :
    (deserialize (symbols reservedIdPairs) s0.diag).2 = .fatal .reservedId ∧
      (deserialize [0x8, 0x5, 0xD, 0x0, 0x9, 0x1] s0.diag).2 = .loss .headerLength ∧
      (deserialize (e1Init ++ [0x9]) s0.diag).2 = .ok false 0xFFFF [] ∧
      (handleData 0xFFFF [] (success s0)).fatalCause = some .totalReserved ∧
      (deserialize (symbols enquiryPairs) s0.diag).2 = .ok true 0x0001 [⟨1, [0x02, 0x00], 0⟩] ∧
      (handleEnquiry [⟨1, [0x02, 0x00], 0⟩] (success s0)).xferActive = false ∧
      (deserialize hiSyms s0.diag).2 = .ok false 0x0001 [⟨1, hi, 0⟩] ∧
      (handleData 0x0001 [⟨1, hi, 0⟩] (success s0)).xferActive = true ∧
      (handleData 0x0001 [⟨1, hi, 0⟩] (success s0)).fatalCause = none := by decide +kernel

theorem witness_dataFrameOpens :
    s0.xferActive = false ∧ sGap.xferActive = true ∧ (0x0006 : U16) ≠ 0xFFFF ∧
      s0.params.maxPacketsRx < (0x0006 : U16).toNat ∧ (0x0005 : U16) ≠ 0xFFFF ∧
      (0x0005 : U16).toNat ≤ s0.params.maxPacketsRx := by decide

theorem witness_firstCopyWins :
    sGap.ctab.wf = true ∧ ¬ (1 ≤ (0x0000 : U16).toNat ∧ (0x0000 : U16).toNat ≤ sGap.xferTotal.toNat) ∧
      ¬ (1 ≤ (0x0004 : U16).toNat ∧ (0x0004 : U16).toNat ≤ sGap.xferTotal.toNat) ∧
      (1 ≤ (0x0003 : U16).toNat ∧ (0x0003 : U16).toNat ≤ sGap.xferTotal.toNat ∧ sGap.ctab.get 3 = none) ∧
      sGap.ctab.get 2 = some [0x42] := by decide

theorem witness_arrivalOrder :
    let a : Recovered := ⟨1, [0x41], 0⟩
    let b : Recovered := ⟨2, [0x42], 0⟩
    s0.ctab.wf = true ∧ [a, b].Perm [b, a] ∧ [a, b].Pairwise (fun x y => x.id ≠ y.id) := by decide

theorem witness_completeTransfer :
    let s : State := { s0 with xferActive := true, xferTotal := 2, ctab := [(1, [0x48]), (2, [0x69])] }
    ∀ k, 1 ≤ k → k ≤ s.xferTotal.toNat → s.ctab.get k = some (if k = 1 then [0x48] else [0x69]) := by
  intro s k h1 h2
  have h2 : k ≤ 2 := h2
  rcases (by omega : k = 1 ∨ k = 2) with rfl | rfl <;> rfl

theorem witness_gapsAreEnquired :
    [1, 3].Pairwise (· < ·) ∧
      (∀ k, k ∈ [1, 3] ↔ 1 ≤ k ∧ k ≤ sGap.xferTotal.toNat ∧ sGap.ctab.get k = none) ∧ [1, 3] ≠ [] ∧
      sGap.txq.length + 3 * (serialize (enquiry [1, 3] sGap.params.chunkSize)).length ≤ sGap.params.txqCap ∧
      (let s : State := { sGap with params := { params with txqCap := 27 } }
       s.params.txqCap < s.txq.length + 3 * (serialize (enquiry [1, 3] s.params.chunkSize)).length) := by
  refine ⟨by decide, fun k => ?_, by decide, by decide, by decide⟩
  have h : sGap.ctab.missing sGap.xferTotal.toNat = [1, 3] := by decide
  rw [← h, Ctab.mem_missing, and_assoc]

theorem witness_enquiriesAreAnswered :
    s0.orig = none ∧
      (let pks := dataPackets hi 1
       let pk : List Recovered := [⟨1, [0x02, 0x00], 0⟩]
       pks.filter (fun p => decide (p.id ∈ requestedIds pk)) = [newPacket [0x69] 2] ∧
        pks.filter (fun p => decide (p.id ∈ requestedIds [⟨1, [0x07, 0x00], 0⟩])) = [] ∧
        s0.txq.length + 3 * (serialize (newTransmission [newPacket [0x69] 2] false)).length ≤ s0.params.txqCap ∧
        27 < s0.txq.length + 3 * (serialize (newTransmission [newPacket [0x69] 2] false)).length) := by decide

/-- The block of `s0` fed "Hi" in chunks of 60 (P3). -/
theorem witness_receiverDelivers :
    (1 ≤ 60 ∧ 60 ≤ 100) ∧ (hi.length + 60 - 1) / 60 ≤ 0xFFFE ∧ (hi.length + 60 - 1) / 60 ≤ s0.params.maxPacketsRx ∧
      (frameSymbols (newTransmission (dataPackets hi 60) false) true).length ≤ s0.params.rxbufCap ∧
      s0.fatalCause = none ∧ s0.xferActive = false ∧ s0.rxbuf = [] ∧ s0.rxClock = !true := by decide

theorem witness_stepKeepsTheInvariant :
    State.Inv { s0 with inbox := [⟨0x10000116, []⟩] } ∧ ∃ t, step (offered 0x10000116) = .next t :=
  ⟨resetBlock_inv { s0 with inbox := [⟨0x10000116, []⟩] }, _, rfl⟩

end Sys2Proof.Tests
end

section
/-! SUPPORT. What one step answers, case by case (spec/00_scope.md R6, R9), and the statements on it. -/

namespace Sys2Proof.Machine

/-! ### The legal ranges -/

/-- The Boolean check of R8 and R9 as one proposition. -/
theorem legal_iff (p : Params) :
    p.legal = true ↔
      (1 ≤ p.chunkSize ∧ p.chunkSize ≤ 100) ∧ 1 ≤ p.interSymbolDelay ∧ 1 ≤ p.timeout ∧
        27 ≤ p.rxbufCap ∧ 27 ≤ p.txqCap ∧ (1 ≤ p.maxPacketsRx ∧ p.maxPacketsRx ≤ 65534) ∧
        ceilDiv p.payloadMax p.chunkSize ≤ 65534 := by
  simp only [Params.legal, Bool.and_eq_true, decide_eq_true_eq, and_assoc]

/-! ### The cases of a step -/

theorem takeEvent_of_inbox_cons {s : State} {e : Event} {rest : List Event} (h : s.inbox = e :: rest) :
    takeEvent s = some (e, { s with inbox := rest }) := by
  simp [takeEvent, h]

theorem step_of_not_legal {s : State} (h : ¬ s.params.legal = true) : step s = .refused .illegalParameters :=
  if_neg h

theorem step_of_decode_ok {s : State} {e : Event} {rest : List Event} {i : Instr} (hlegal : s.params.legal = true)
    (hinbox : s.inbox = e :: rest) (hdec : decode e = .ok i) : step s = exec i { s with inbox := rest } := by
  simp only [step, hlegal, takeEvent_of_inbox_cons hinbox, hdec, if_true]

/-! ### The statements -/

/-- Settles O6: the step takes the head of `inbox` and dispatches on what it decodes to. -/
theorem stepRunsTheDecodedInstruction : Obligations.StepRunsTheDecodedInstruction :=
  fun _ _ _ _ hlegal hinbox hdec => step_of_decode_ok hlegal hinbox hdec

/-- Settles O7: the ranges of the statement are the ones `Params.legal` checks, and the step checks them first. -/
theorem illegalInstantiationIsRefused : Obligations.IllegalInstantiationIsRefused := by
  intro s hrange
  have hlegal : ¬ s.params.legal = true := mt (legal_iff s.params).mp hrange
  exact step_of_not_legal hlegal

end Sys2Proof.Machine
end

section
/-! SUPPORT. What a step that answers a next state can be, and the statements on the state record: the invariant
(spec/10_state.md R51), what every step keeps (R50, R106), the reset values (R49) and STATUS (R45). -/

namespace Sys2Proof.Machine

variable {s t u : State}

/-! ### The cases of a step that answers a next state -/

/-- An instruction that answers a next state has found the block in FATAL and done nothing, or has had its effect
(R276, R277). -/
theorem exec_next_cases {i : Instr} (h : exec i s = .next t) :
    (s.fatalCause ≠ none ∧ i ≠ .reset ∧ t = s) ∨ ((s.fatalCause = none ∨ i = .reset) ∧ t = effect i s) := by
  by_cases hi : i = .reset
  · subst hi
    exact .inr ⟨.inr rfl, (Host.Outcome.next.inj h).symm⟩
  · have hgated : exec i s = unlessFatal s (effect i s) := by
      cases i
      case reset => exact absurd rfl hi
      all_goals rfl
    rw [hgated] at h
    rcases unlessFatal_cases s (effect i s) with ⟨hf, e⟩ | ⟨hf, e⟩ <;> rw [e] at h
    · exact .inl ⟨hf, hi, (Host.Outcome.next.inj h).symm⟩
    · exact .inr ⟨.inl hf, (Host.Outcome.next.inj h).symm⟩

/-- With nothing offered the block waits (R291). -/
theorem step_of_inbox_nil (hlegal : s.params.legal = true) (hin : s.inbox = []) : step s = .next s := by
  simp [step, hlegal, takeEvent, hin]

theorem step_of_decode_error {e : Event} {rest : List Event} {code : Byte} (hlegal : s.params.legal = true)
    (hin : s.inbox = e :: rest) (hdec : decode e = .error (.reservedCode code)) :
    step s = reservedEvent code { s with inbox := rest } := by
  simp [step, hlegal, takeEvent_of_inbox_cons hin, hdec]

/-- Everything a step with a next state can do: wait with nothing offered, drop the oldest event while FATAL, or take it
and apply the effect of the instruction it decodes to. -/
theorem step_next_cases (h : step s = .next t) :
    s.params.legal = true ∧
      ((s.inbox = [] ∧ t = s) ∨
        ∃ e rest, s.inbox = e :: rest ∧
          ((s.fatalCause ≠ none ∧ decode e ≠ .ok .reset ∧ t = { s with inbox := rest }) ∨
            ∃ i, decode e = .ok i ∧ (s.fatalCause = none ∨ i = .reset) ∧ t = effect i { s with inbox := rest })) := by
  have hlegal : s.params.legal = true := by
    by_contra hillegal
    rw [step_of_not_legal hillegal] at h
    cases h
  refine ⟨hlegal, ?_⟩
  rcases hin : s.inbox with - | ⟨e, rest⟩
  · rw [step_of_inbox_nil hlegal hin] at h
    exact .inl ⟨rfl, (Host.Outcome.next.inj h).symm⟩
  · refine .inr ⟨e, rest, rfl, ?_⟩
    rcases hdec : decode e with ⟨⟨code⟩⟩ | i
    · rw [step_of_decode_error hlegal hin hdec] at h
      rcases reservedEvent_cases code { s with inbox := rest } with ⟨hf, heq⟩ | ⟨-, heq⟩ <;> rw [heq] at h
      · exact .inl ⟨hf, by simp, (Host.Outcome.next.inj h).symm⟩
      · cases h
    · rw [step_of_decode_ok hlegal hin hdec] at h
      rcases exec_next_cases h with ⟨hf, hi, ht⟩ | ⟨hrun, ht⟩
      · exact .inl ⟨hf, by simpa using hi, ht⟩
      · exact .inr ⟨i, rfl, hrun, ht⟩

/-! ### The Packets of an accepted SEND (R35, R200, R201) -/

theorem ceilDiv_mono {m n : Nat} (c : Nat) (h : m ≤ n) : ceilDiv m c ≤ ceilDiv n c :=
  Nat.div_le_div_right (by omega)

/-- Every chunk starts inside the payload. -/
theorem mul_lt_of_lt_ceilDiv {k n c : Nat} (h : k < ceilDiv n c) : k * c < n := by
  rcases Nat.eq_zero_or_pos c with rfl | hc
  · simp [ceilDiv] at h
  · have := (Nat.le_div_iff_mul_le hc).mp h
    rw [Nat.succ_mul] at this
    omega

theorem length_groupsOf {α : Type} (xs : List α) (c : Nat) : (groupsOf xs c).length = ceilDiv xs.length c := by
  simp [groupsOf]

theorem groupsOf_getElem?_eq_some {α : Type} {xs g : List α} {c k : Nat} (h : (groupsOf xs c)[k]? = some g) :
    k < ceilDiv xs.length c ∧ g = (xs.drop (k * c)).take c := by
  obtain ⟨hk, rfl⟩ := List.getElem?_eq_some_iff.mp h
  exact ⟨by simpa [length_groupsOf] using hk, by simp [groupsOf]⟩

/-- A chunk holds 1 to `c` elements. -/
theorem length_of_groupsOf_getElem? {α : Type} {xs g : List α} {c k : Nat} (hc : 1 ≤ c)
    (h : (groupsOf xs c)[k]? = some g) : 1 ≤ g.length ∧ g.length ≤ c := by
  obtain ⟨hk, rfl⟩ := groupsOf_getElem?_eq_some h
  have := mul_lt_of_lt_ceilDiv hk
  rw [List.length_take, List.length_drop]
  omega

theorem dataPackets_getElem?_eq_some {B : List Byte} {c k : Nat} {q : Packet} (h : (dataPackets B c)[k]? = some q) :
    ∃ chunk, (groupsOf B c)[k]? = some chunk ∧ q = newPacket chunk (BitVec.ofNat 16 (k + 1)) := by
  rw [dataPackets, List.getElem?_mapIdx, Option.map_eq_some_iff] at h
  obtain ⟨chunk, hchunk, rfl⟩ := h
  exact ⟨chunk, hchunk, rfl⟩

/-- The Packets of a payload within PAYLOAD_MAX are a sound original. -/
theorem dataPackets_sound {p : Params} {B : List Byte} (hc : 1 ≤ p.chunkSize) (hB : B.length ≤ p.payloadMax) :
    origSound p (dataPackets B p.chunkSize) := by
  constructor
  · rw [dataPackets, List.length_mapIdx, length_groupsOf]
    exact ceilDiv_mono _ hB
  · intro k q hq
    obtain ⟨chunk, hchunk, rfl⟩ := dataPackets_getElem?_eq_some hq
    exact ⟨rfl, length_of_groupsOf_getElem? hc hchunk⟩

/-! ### The invariant -/

theorem inbox_inv (rest : List Event) (h : s.Inv) : State.Inv { s with inbox := rest } := { h with }

theorem orig_inv {pks : List Packet} (hpks : origSound s.params pks) (h : s.Inv) :
    State.Inv { s with orig := some pks } :=
  { h with orig_sound := fun _ hq => Option.some.inj hq ▸ hpks }

/-- The effect of every instruction keeps the invariant; a CYCLE has one only in a running block. -/
theorem effect_inv (i : Instr) (hc : 1 ≤ s.params.chunkSize) (hrun : s.fatalCause = none ∨ i = .reset) (h : s.Inv) :
    (effect i s).Inv := by
  cases i with
  | nop => exact h
  | cycle txr rxv rxb => exact runCycle_inv txr rxv rxb h (hrun.resolve_right (by simp))
  | send B =>
    simp only [effect]
    split
    next => exact { h with }
    next haccepted =>
      have hB : B.length ≤ s.params.payloadMax := by simp [sendRejected] at haccepted; exact haccepted.1
      exact enqueue_inv _ (orig_inv (dataPackets_sound hc hB) h)
  | reset => exact resetBlock_inv s
  | encByte | decTriplet | strobeExpand => exact setResult_inv _ h

/-- Settles O59: by the cases of the step, taking an event and the effect of each instruction keep the invariant. -/
theorem stepKeepsTheInvariant : Obligations.StepKeepsTheInvariant := by
  intro s t hinv hstep
  obtain ⟨hlegal, ⟨-, rfl⟩ | ⟨e, rest, -, ⟨-, -, rfl⟩ | ⟨i, -, hrun, rfl⟩⟩⟩ := step_next_cases hstep
  · exact hinv
  · exact inbox_inv rest hinv
  · obtain ⟨⟨hchunk, -⟩, -⟩ := (legal_iff s.params).mp hlegal
    exact effect_inv i hchunk hrun (inbox_inv rest hinv)

/-- Settles O60: the reset values for given parameters and lists are those a RESET leaves. -/
theorem invariantHoldsAfterReset : Obligations.InvariantHoldsAfterReset :=
  fun p inbox out => resetBlock_inv { State.reset with params := p, inbox := inbox, out := out }

/-! ### What every operation keeps: the parameters, the events still offered, and the outputs emitted before -/

/-- `t` follows from `s` without touching the parameters or the inbox, and with outputs only appended. -/
structure Extends (s t : State) : Prop where
  params : t.params = s.params
  out    : s.out <+: t.out
  inbox  : t.inbox = s.inbox

theorem Extends.trans (h : Extends s t) (h' : Extends t u) : Extends s u where
  params := h'.params.trans h.params
  out := h.out.trans h'.out
  inbox := h'.inbox.trans h.inbox

/-- An update of the block's own elements alone. -/
theorem Extends.of_eq (hp : t.params = s.params) (ho : t.out = s.out) (hi : t.inbox = s.inbox) : Extends s t :=
  ⟨hp, ho ▸ List.prefix_rfl, hi⟩

theorem Extends.refl (s : State) : Extends s s := .of_eq rfl rfl rfl

/-- An update with one record emitted. -/
theorem Extends.of_emit {o : Output} (hp : t.params = s.params) (ho : t.out = s.out ++ [o]) (hi : t.inbox = s.inbox) :
    Extends s t :=
  ⟨hp, ho ▸ List.prefix_append _ _, hi⟩

theorem extends_enqueue (ps : List Pair) (s : State) : Extends s (enqueue ps s) := .of_eq (by simp) (by simp) (by simp)

theorem extends_raiseFatal (c : FatalCause) (s : State) : Extends s (raiseFatal c s) := .of_emit rfl rfl rfl

theorem extends_writeNext (s : State) : Extends s (writeNext s) := by
  rcases writeNext_cases s with ⟨p, -, -, e⟩ | ⟨sym, q, -, -, -, e⟩ | ⟨sym, q, -, -, e⟩ | ⟨-, -, e⟩ <;> rw [e]
  · exact .of_emit rfl rfl rfl
  · exact .of_emit rfl rfl rfl
  · exact .of_emit rfl rfl rfl
  · exact .refl s

theorem extends_txPhase (txr : Bool) (s : State) : Extends s (txPhase txr s) := by
  have hcount : Extends s { s with txCnt := min (s.txCnt + 1) s.params.interSymbolDelay } := .of_eq rfl rfl rfl
  rcases txPhase_cases txr s with e | ⟨-, e⟩ <;> rw [e]
  · exact hcount
  · exact hcount.trans (extends_writeNext _)

theorem extends_handleEnquiry (pk : List Recovered) (s : State) : Extends s (handleEnquiry pk s) := by
  unfold handleEnquiry
  split
  · exact .refl s
  · exact (extends_enqueue _ s).trans (.of_eq rfl rfl rfl)

theorem extends_fillSlot (s : State) (r : Recovered) : Extends s (fillSlot s r) := by
  unfold fillSlot
  split <;> exact .of_eq rfl rfl rfl

theorem extends_foldl_fillSlot (pk : List Recovered) (s : State) : Extends s (pk.foldl fillSlot s) := by
  induction pk generalizing s with
  | nil => exact .refl s
  | cons r pk ih => exact (extends_fillSlot s r).trans (ih _)

theorem extends_acceptPackets (pk : List Recovered) (s : State) : Extends s (acceptPackets pk s) :=
  (extends_foldl_fillSlot pk s).trans (.of_eq rfl rfl rfl)

theorem extends_handleData (tp : U16) (pk : List Recovered) (s : State) : Extends s (handleData tp pk s) := by
  rcases handleData_cases tp pk s with ⟨-, e⟩ | ⟨-, -, e⟩ | ⟨-, -, -, e⟩ | ⟨-, -, -, e⟩ <;> rw [e]
  · exact extends_acceptPackets pk s
  · exact extends_raiseFatal _ s
  · exact extends_raiseFatal _ s
  · have hopen : Extends s { s with xferActive := true, xferTotal := tp, ctab := [] } := .of_eq rfl rfl rfl
    exact hopen.trans (extends_acceptPackets pk _)

theorem extends_issueEnquiry (missing : List Nat) (s : State) : Extends s (issueEnquiry missing s) :=
  .of_eq (by simp [issueEnquiry]) (by simp [issueEnquiry]) (by simp [issueEnquiry])

theorem extends_gapCheck (s : State) : Extends s (gapCheck s) := by
  rcases gapCheck_cases s with ⟨-, e⟩ | ⟨-, e⟩ <;> rw [e]
  · exact .of_emit rfl rfl rfl
  · exact extends_issueEnquiry _ s

theorem extends_useFrame (isEnq : Bool) (tp : U16) (pk : List Recovered) (s : State) :
    Extends s (useFrame isEnq tp pk s).1 := by
  have hgap : ∀ t, Extends s t → Extends s (if t.fatalCause.isSome then (t, false)
      else if t.xferActive then (gapCheck t, true) else (t, true)).1 := by
    intro t ht
    split_ifs
    · exact ht
    · exact ht.trans (extends_gapCheck t)
    · exact ht
  cases isEnq with
  | true => rw [useFrame_enquiry]; exact hgap _ (extends_handleEnquiry pk s)
  | false => rw [useFrame_data]; exact hgap _ (extends_handleData tp pk s)

theorem extends_processFrame (frame : List Nibble) (s : State) : Extends s (processFrame frame s).1 := by
  rcases processFrame_cases frame s with ⟨d, c, -, e⟩ | ⟨d, c, -, e⟩ | ⟨d, isEnq, tp, pk, -, e⟩ <;> rw [e]
  · exact .of_emit rfl rfl rfl
  · exact .of_eq rfl rfl rfl
  · have hsuccess : Extends s (success { s with diag := d }) := .of_eq rfl rfl rfl
    exact hsuccess.trans (extends_useFrame isEnq tp pk _)

theorem extends_runSync (s : State) : Extends s (runSync s).1 := by
  rcases runSync_cases s with ⟨st, e, -, heq⟩ | ⟨-, -, heq⟩ | ⟨-, -, heq⟩ <;> rw [heq]
  · have hcleared : Extends s { s with rxbuf := [] } := .of_eq rfl rfl rfl
    exact hcleared.trans (extends_processFrame _ _)
  · exact .of_eq rfl rfl rfl
  · exact .refl s

theorem extends_rxPhase (rxv : Bool) (rxb : Byte) (s : State) : Extends s (rxPhase rxv rxb s).1 := by
  unfold rxPhase
  dsimp only
  split
  · have haccept : Extends s (acceptSymbol (rxSymbol rxb) s) := .of_eq rfl rfl rfl
    exact haccept.trans (extends_runSync _)
  · exact .refl s

theorem extends_timerPhase (decoded : Bool) (s : State) : Extends s (timerPhase decoded s) := by
  rcases timerPhase_cases decoded s with ⟨-, e⟩ | ⟨-, e⟩ | ⟨-, -, e⟩ <;> rw [e]
  · exact .refl s
  · exact .of_eq rfl rfl rfl
  · exact .of_eq (by simp [timeoutResend]) (by simp [timeoutResend]) (by simp [timeoutResend])

theorem extends_runCycle (txr rxv : Bool) (rxb : Byte) (s : State) : Extends s (runCycle txr rxv rxb s) := by
  have hrx := (extends_txPhase txr s).trans (extends_rxPhase rxv rxb (txPhase txr s))
  unfold runCycle
  dsimp only
  split
  · exact hrx
  · exact hrx.trans (extends_timerPhase _ _)

theorem extends_effect (i : Instr) (s : State) : Extends s (effect i s) := by
  cases i with
  | nop => exact .refl s
  | cycle txr rxv rxb => exact extends_runCycle txr rxv rxb s
  | send B =>
    simp only [effect]
    split
    · exact .of_eq rfl rfl rfl
    · have horig : Extends s { s with orig := some (dataPackets B s.params.chunkSize) } := .of_eq rfl rfl rfl
      exact horig.trans (extends_enqueue _ _)
  | reset | encByte | decTriplet | strobeExpand => exact .of_eq rfl rfl rfl

/-- Settles O8: the step drops the oldest event itself, and every effect extends the state it starts from. -/
theorem stepKeepsParametersAndEmittedOutputs : Obligations.StepKeepsParametersAndEmittedOutputs := by
  intro s t hstep
  obtain ⟨-, ⟨hin, rfl⟩ | ⟨e, rest, hin, ⟨-, -, rfl⟩ | ⟨i, -, -, rfl⟩⟩⟩ := step_next_cases hstep
  · exact ⟨rfl, List.prefix_rfl, by simp [hin]⟩
  · exact ⟨rfl, List.prefix_rfl, by simp [hin]⟩
  · have heff := extends_effect i { s with inbox := rest }
    exact ⟨heff.params, heff.out, by simp [hin, heff.inbox]⟩

/-! ### The reset values and STATUS -/

/-- Settles O13: each value is the one `State.resetWith` writes out. -/
theorem powerOnValues : Obligations.PowerOnValues :=
  ⟨rfl, rfl, rfl, rfl, rfl, rfl, rfl, rfl, rfl, rfl, Ctab.get_nil, rfl, rfl, rfl, rfl, rfl, rfl, rfl, rfl⟩

/-- Bits 3:1 of STATUS, above the one bit of FATAL. -/
theorem status_extract_fatalCode (s : State) : s.status.extractLsb' 1 3 = fatalCode s.fatalCause := by
  unfold State.status
  rw [BitVec.extractLsb'_append_eq_of_le (by omega), BitVec.extractLsb'_append_eq_of_add_le (by omega),
    BitVec.extractLsb'_eq_self]

/-- Bits 13:12 of STATUS, above ten fields. -/
theorem status_extract_lossCode (s : State) : s.status.extractLsb' 12 2 = lossCode s.lastLoss := by
  unfold State.status
  iterate 10 rw [BitVec.extractLsb'_append_eq_of_le (by omega)]
  rw [BitVec.extractLsb'_append_eq_of_add_le (by omega)]
  exact BitVec.extractLsb'_eq_self

/-- Bits 31:14 of STATUS, above eleven fields, are reserved. -/
theorem status_extract_reserved (s : State) : s.status.extractLsb' 14 18 = 0 := by
  unfold State.status
  iterate 11 rw [BitVec.extractLsb'_append_eq_of_le (by omega)]
  exact BitVec.extractLsb'_eq_self

/-- Settles O14: the fields of more than one bit by the lemmas above, each single bit by its place in the
concatenation. -/
theorem statusFields : Obligations.StatusFields := by
  refine ⟨⟨rfl, rfl, rfl, rfl, rfl⟩, ⟨rfl, rfl, rfl, rfl⟩, fun s => ?_⟩
  refine ⟨?fatal, status_extract_fatalCode s, ?waiting, ?xferActive, ?orig, ?enq, ?txClock, ?rxClock, ?badcmd,
    ?txPending, status_extract_lossCode s, status_extract_reserved s⟩
  all_goals
    simp only [State.status, BitVec.getLsbD_append]
    simp

end Sys2Proof.Machine
end

section
/-! SUPPORT. The elementary updates of the receive and the timer phase, and the statements on the memory of the block
(spec/20_memory.md R72, R74, R76): what a CYCLE without a read leaves alone, the order of the transmit queue, and the
completion table's independence of arrival order. -/

namespace Sys2Proof.Machine

variable {s t u : State}

/-! ### The elementary updates of the receive and the timer phase -/

/-- One elementary update of the receive or the timer phase: queue pairs, hand a payload to the sink, enter FATAL, or
write the elements those phases own. The transmit registers, the stored original, `badcmd`, `result`, the parameters and
the inbox are none of them. -/
inductive ReceiveUpdate : State → State → Prop where
  | enqueue (ps : List Pair) (s : State) : ReceiveUpdate s (enqueue ps s)
  | deliver (bs : List Byte) (s : State) : ReceiveUpdate s (emit (.payload bs) s)
  | halt (c : FatalCause) (s : State) : ReceiveUpdate s (raiseFatal c s)
  | own {s t : State} (h : t = { s with
      rxClock := t.rxClock, rxbuf := t.rxbuf, arqState := t.arqState, xferActive := t.xferActive,
      xferTotal := t.xferTotal, ctab := t.ctab, timer := t.timer, enq := t.enq, lastLoss := t.lastLoss,
      diag := t.diag }) : ReceiveUpdate s t

/-- Any number of elementary updates. A reflexive and transitive relation that holds of each of them holds of the
receive and the timer phase. -/
abbrev ReceiveUpdates : State → State → Prop := Relation.ReflTransGen ReceiveUpdate

theorem receiveUpdates_handleEnquiry (pk : List Recovered) (s : State) : ReceiveUpdates s (handleEnquiry pk s) := by
  unfold handleEnquiry
  split
  · exact .refl
  · exact .tail (.single (.enqueue _ s)) (.own rfl)

theorem receiveUpdate_fillSlot (s : State) (r : Recovered) : ReceiveUpdate s (fillSlot s r) := by
  unfold fillSlot
  split <;> exact .own rfl

theorem receiveUpdates_foldl_fillSlot (pk : List Recovered) (s : State) : ReceiveUpdates s (pk.foldl fillSlot s) := by
  induction pk generalizing s with
  | nil => exact .refl
  | cons r pk ih => exact .head (receiveUpdate_fillSlot s r) (ih _)

theorem receiveUpdates_acceptPackets (pk : List Recovered) (s : State) : ReceiveUpdates s (acceptPackets pk s) :=
  .tail (receiveUpdates_foldl_fillSlot pk s) (.own rfl)

theorem receiveUpdates_handleData (tp : U16) (pk : List Recovered) (s : State) :
    ReceiveUpdates s (handleData tp pk s) := by
  rcases handleData_cases tp pk s with ⟨-, e⟩ | ⟨-, -, e⟩ | ⟨-, -, -, e⟩ | ⟨-, -, -, e⟩ <;> rw [e]
  · exact receiveUpdates_acceptPackets pk s
  · exact .single (.halt _ s)
  · exact .single (.halt _ s)
  · exact .head (.own rfl) (receiveUpdates_acceptPackets pk { s with xferActive := true, xferTotal := tp, ctab := [] })

theorem receiveUpdates_complete (s : State) : ReceiveUpdates s (complete s) :=
  .tail (.single (.deliver (s.ctab.payload s.xferTotal.toNat) s)) (.own rfl)

theorem receiveUpdates_issueEnquiry (missing : List Nat) (s : State) : ReceiveUpdates s (issueEnquiry missing s) := by
  have hstored (ps : List Pair) : ReceiveUpdate s { s with enq := some ps } := .own rfl
  have hqueued (ps : List Pair) : ReceiveUpdates s (enqueue ps { s with enq := some ps }) :=
    .tail (.single (hstored ps)) (.enqueue ps _)
  exact .tail (hqueued _) (.own rfl)

theorem receiveUpdates_gapCheck (s : State) : ReceiveUpdates s (gapCheck s) := by
  rcases gapCheck_cases s with ⟨-, e⟩ | ⟨-, e⟩ <;> rw [e]
  · exact receiveUpdates_complete s
  · exact receiveUpdates_issueEnquiry _ s

theorem receiveUpdates_useFrame (isEnq : Bool) (tp : U16) (pk : List Recovered) (s : State) :
    ReceiveUpdates s (useFrame isEnq tp pk s).1 := by
  have hpackets : ReceiveUpdates s (if isEnq then handleEnquiry pk s else handleData tp pk s) := by
    split
    · exact receiveUpdates_handleEnquiry pk s
    · exact receiveUpdates_handleData tp pk s
  unfold useFrame
  dsimp only
  generalize (if isEnq then handleEnquiry pk s else handleData tp pk s) = t at hpackets ⊢
  split_ifs
  · exact hpackets
  · exact hpackets.trans (receiveUpdates_gapCheck t)
  · exact hpackets

theorem receiveUpdates_processFrame (frame : List Nibble) (s : State) :
    ReceiveUpdates s (processFrame frame s).1 := by
  rcases processFrame_cases frame s with ⟨d, c, -, e⟩ | ⟨d, c, -, e⟩ | ⟨d, isEnq, tp, pk, -, e⟩ <;> rw [e]
  · have hcounted : ReceiveUpdate s { s with diag := d } := .own rfl
    exact .tail (.single hcounted) (.halt c _)
  · exact .single (.own rfl)
  · have hsuccess : ReceiveUpdate s (success { s with diag := d }) := .own rfl
    exact .head hsuccess (receiveUpdates_useFrame isEnq tp pk _)

theorem receiveUpdates_runSync (s : State) : ReceiveUpdates s (runSync s).1 := by
  rcases runSync_cases s with ⟨st, e, -, heq⟩ | ⟨-, -, heq⟩ | ⟨-, -, heq⟩
  · rw [heq]
    exact .head (.own rfl) (receiveUpdates_processFrame _ { s with rxbuf := [] })
  · rw [heq]
    exact .single (.own rfl)
  · rw [heq]

theorem receiveUpdates_rxPhase (rxv : Bool) (rxb : Byte) (s : State) : ReceiveUpdates s (rxPhase rxv rxb s).1 := by
  unfold rxPhase
  dsimp only
  split
  · exact .head (.own rfl) (receiveUpdates_runSync (acceptSymbol (rxSymbol rxb) s))
  · exact .refl

theorem receiveUpdates_timeoutResend (s : State) : ReceiveUpdates s (timeoutResend s) :=
  .tail (.single (.enqueue (s.enq.getD []) s)) (.own rfl)

theorem receiveUpdates_timerPhase (decoded : Bool) (s : State) : ReceiveUpdates s (timerPhase decoded s) := by
  rcases timerPhase_cases decoded s with ⟨-, e⟩ | ⟨-, e⟩ | ⟨-, -, e⟩
  · rw [e]
  · rw [e]
    exact .single (.own rfl)
  · rw [e]
    exact .head (.own rfl) (receiveUpdates_timeoutResend { s with timer := min (s.timer + 1) s.params.timeout })

/-- After its transmit phase, a CYCLE is made of elementary updates (R231, R279). -/
theorem receiveUpdates_runCycle (txr rxv : Bool) (rxb : Byte) (s : State) :
    ReceiveUpdates (txPhase txr s) (runCycle txr rxv rxb s) := by
  have hrx := receiveUpdates_rxPhase rxv rxb (txPhase txr s)
  unfold runCycle
  dsimp only
  split
  · exact hrx
  · exact hrx.trans (receiveUpdates_timerPhase _ _)

/-! ### The order of the transmit queue (R74) -/

@[simp] theorem writtenSymbols_append (os os' : List Output) :
    writtenSymbols (os ++ os') = writtenSymbols os ++ writtenSymbols os' := List.filterMap_append

@[simp] theorem writtenSymbols_write (w : Nibble) : writtenSymbols [.write (txByte w)] = [w] :=
  congrArg (fun v => [v]) (rxSymbol_txByte w)

@[simp] theorem writtenSymbols_payload (bs : List Byte) : writtenSymbols [.payload bs] = [] := rfl

@[simp] theorem writtenSymbols_halted (c : FatalCause) : writtenSymbols [.halted c] = [] := rfl

/-- The symbols written so far, then those still queued. -/
def symbolStream (s : State) : List Nibble := writtenSymbols s.out ++ s.txq

theorem symbolStream_congr (ho : t.out = s.out) (hq : t.txq = s.txq) : symbolStream t = symbolStream s := by
  rw [symbolStream, symbolStream, ho, hq]

/-- Queuing adds a Transmission's symbols at the end, or nothing (R237). -/
theorem symbolStream_prefix_enqueue (ps : List Pair) (s : State) : symbolStream s <+: symbolStream (enqueue ps s) := by
  rcases enqueue_cases ps s with ⟨-, e⟩ | ⟨-, e⟩ <;> rw [e]
  · exact ⟨(encodeStream ps s.txClock).1, by simp [symbolStream]⟩
  · exact List.prefix_rfl

/-- Without strobing the write slot moves the head of the queue to the end of what is written (R232). -/
theorem symbolStream_writeNext (hstrobe : s.params.strobeEn = false) :
    symbolStream (writeNext s) = symbolStream s := by
  rcases writeNext_cases s with ⟨p, hon, -, -⟩ | ⟨sym, q, hon, -, -, -⟩ | ⟨sym, q, -, hq, e⟩ | ⟨-, -, e⟩
  · simp [hstrobe] at hon
  · simp [hstrobe] at hon
  · rw [e]
    simp [symbolStream, writeSymbol, hq]
  · rw [e]

theorem symbolStream_txPhase (txr : Bool) (hstrobe : s.params.strobeEn = false) :
    symbolStream (txPhase txr s) = symbolStream s := by
  rcases txPhase_cases txr s with e | ⟨-, e⟩ <;> rw [e]
  · exact symbolStream_congr rfl rfl
  · exact symbolStream_writeNext hstrobe

theorem ReceiveUpdate.symbolStream_prefix (h : ReceiveUpdate s t) : symbolStream s <+: symbolStream t := by
  cases h with
  | enqueue ps => exact symbolStream_prefix_enqueue ps s
  | deliver bs => simp [symbolStream]
  | halt c => simp [symbolStream]
  | own h => rw [h]; exact List.prefix_rfl

theorem ReceiveUpdates.symbolStream_prefix (h : ReceiveUpdates s t) : symbolStream s <+: symbolStream t := by
  induction h with
  | refl => exact List.prefix_rfl
  | tail _ hstep ih => exact ih.trans hstep.symbolStream_prefix

/-- Without strobing, every effect but RESET's only adds to the stream at its end. -/
theorem symbolStream_prefix_effect {i : Instr} (hstrobe : s.params.strobeEn = false) (hi : i ≠ .reset) :
    symbolStream s <+: symbolStream (effect i s) := by
  cases i with
  | cycle txr rxv rxb =>
    rw [← symbolStream_txPhase txr hstrobe]
    exact (receiveUpdates_runCycle txr rxv rxb s).symbolStream_prefix
  | send B =>
    simp only [effect]
    split
    · exact List.prefix_rfl
    · exact symbolStream_prefix_enqueue _ { s with orig := some (dataPackets B s.params.chunkSize) }
  | reset => exact absurd rfl hi
  | nop | encByte | decTriplet | strobeExpand => exact List.prefix_rfl

/-- Settles O29: FATAL keeps the stream, and every effect but RESET's extends it. -/
theorem queuedSymbolsAreWrittenInOrder : Obligations.QueuedSymbolsAreWrittenInOrder := by
  intro s t i hstrobe hi hexec
  rcases exec_next_cases hexec with ⟨-, -, rfl⟩ | ⟨-, rfl⟩
  · exact List.prefix_rfl
  · exact symbolStream_prefix_effect hstrobe hi

/-! ### A CYCLE that reads nothing (R72, R233) -/

/-- `t` has the receive side, the transfer and the status fields of `s`, and every counter but `enq_resent` and
`tx_drops`. -/
structure KeepsReceiveSide (s t : State) : Prop where
  rxClock    : t.rxClock = s.rxClock
  rxbuf      : t.rxbuf = s.rxbuf
  arqState   : t.arqState = s.arqState
  xferActive : t.xferActive = s.xferActive
  xferTotal  : t.xferTotal = s.xferTotal
  ctab       : t.ctab = s.ctab
  enq        : t.enq = s.enq
  fatalCause : t.fatalCause = s.fatalCause
  lastLoss   : t.lastLoss = s.lastLoss
  diag       : t.diag = { s.diag with enqResent := t.diag.enqResent, txDrops := t.diag.txDrops }

theorem KeepsReceiveSide.refl (s : State) : KeepsReceiveSide s s := ⟨rfl, rfl, rfl, rfl, rfl, rfl, rfl, rfl, rfl, rfl⟩

theorem KeepsReceiveSide.trans (h : KeepsReceiveSide s t) (h' : KeepsReceiveSide t u) : KeepsReceiveSide s u where
  rxClock := h'.rxClock.trans h.rxClock
  rxbuf := h'.rxbuf.trans h.rxbuf
  arqState := h'.arqState.trans h.arqState
  xferActive := h'.xferActive.trans h.xferActive
  xferTotal := h'.xferTotal.trans h.xferTotal
  ctab := h'.ctab.trans h.ctab
  enq := h'.enq.trans h.enq
  fatalCause := h'.fatalCause.trans h.fatalCause
  lastLoss := h'.lastLoss.trans h.lastLoss
  diag := h'.diag.trans (by rw [h.diag])

theorem keepsReceiveSide_enqueue (ps : List Pair) (s : State) : KeepsReceiveSide s (enqueue ps s) := by
  rcases enqueue_cases ps s with ⟨-, e⟩ | ⟨-, e⟩ <;> rw [e] <;>
    exact { KeepsReceiveSide.refl s with diag := rfl }

theorem keepsReceiveSide_writeNext (s : State) : KeepsReceiveSide s (writeNext s) := by
  rcases writeNext_cases s with ⟨p, -, -, e⟩ | ⟨sym, q, -, -, -, e⟩ | ⟨sym, q, -, -, e⟩ | ⟨-, -, e⟩ <;> rw [e] <;>
    exact { KeepsReceiveSide.refl s with }

theorem keepsReceiveSide_txPhase (txr : Bool) (s : State) : KeepsReceiveSide s (txPhase txr s) := by
  have hcount : KeepsReceiveSide s { s with txCnt := min (s.txCnt + 1) s.params.interSymbolDelay } :=
    { KeepsReceiveSide.refl s with }
  rcases txPhase_cases txr s with e | ⟨-, e⟩ <;> rw [e]
  · exact hcount
  · exact hcount.trans (keepsReceiveSide_writeNext _)

theorem keepsReceiveSide_timeoutResend (s : State) : KeepsReceiveSide s (timeoutResend s) :=
  (keepsReceiveSide_enqueue (s.enq.getD []) s).trans
    { KeepsReceiveSide.refl (enqueue (s.enq.getD []) s) with diag := rfl }

theorem keepsReceiveSide_timerPhase (decoded : Bool) (s : State) : KeepsReceiveSide s (timerPhase decoded s) := by
  have hcount : KeepsReceiveSide s { s with timer := min (s.timer + 1) s.params.timeout } :=
    { KeepsReceiveSide.refl s with }
  rcases timerPhase_cases decoded s with ⟨-, e⟩ | ⟨-, e⟩ | ⟨-, -, e⟩ <;> rw [e]
  · exact .refl s
  · exact hcount
  · exact hcount.trans (keepsReceiveSide_timeoutResend _)

/-- With RXV = 0 the receive phase does nothing (R233). -/
theorem rxPhase_without_read (rxb : Byte) (s : State) : rxPhase false rxb s = (s, false) := by simp [rxPhase]

theorem keepsReceiveSide_runCycle_without_read (txr : Bool) (rxb : Byte) (s : State) :
    KeepsReceiveSide s (runCycle txr false rxb s) := by
  have htx := keepsReceiveSide_txPhase txr s
  rw [runCycle, rxPhase_without_read]
  dsimp only
  split
  · exact htx
  · exact htx.trans (keepsReceiveSide_timerPhase _ _)

/-- Settles O27: the transmit and the timer phase keep the receive side, and the receive phase does nothing. -/
theorem cycleWithoutReadFrame : Obligations.CycleWithoutReadFrame := by
  intro s t txr rxb hexec
  have hkeeps : KeepsReceiveSide s t := by
    rcases exec_next_cases hexec with ⟨-, -, rfl⟩ | ⟨-, rfl⟩
    · exact .refl t
    · exact keepsReceiveSide_runCycle_without_read txr rxb s
  obtain ⟨hclock, hbuf, harq, hactive, htotal, hctab, henq, hfatal, hloss, hdiag⟩ := hkeeps
  exact ⟨hclock, hbuf, harq, hactive, htotal, hctab, henq, hfatal, hloss, hdiag⟩

/-! ### The order of arrival (R76) -/

theorem Ctab.fill_nil (k : Nat) (d : List Byte) : Ctab.fill [] k d = [(k, d)] := rfl

theorem Ctab.fill_cons_of_lt {i k : Nat} (h : k < i) (c d : List Byte) (t : Ctab) :
    Ctab.fill ((i, c) :: t) k d = (k, d) :: (i, c) :: t := if_pos h

theorem Ctab.fill_cons_self (k : Nat) (c d : List Byte) (t : Ctab) :
    Ctab.fill ((k, c) :: t) k d = (k, c) :: t := by simp [fill]

theorem Ctab.fill_cons_of_gt {i k : Nat} (h : i < k) (c d : List Byte) (t : Ctab) :
    Ctab.fill ((i, c) :: t) k d = (i, c) :: Ctab.fill t k d := by
  simp [fill, h.ne', Nat.not_lt_of_gt h]

/-- Filling the lower of two slots first or last gives the same table, whether or not the table is canonical. -/
theorem Ctab.fill_comm_of_lt {j k : Nat} (hjk : j < k) (d e : List Byte) (t : Ctab) :
    (t.fill j d).fill k e = (t.fill k e).fill j d := by
  induction t with
  | nil => simp [fill_nil, fill_cons_of_lt hjk, fill_cons_of_gt hjk]
  | cons a t ih =>
    obtain ⟨i, c⟩ := a
    rcases Nat.lt_trichotomy j i with hji | rfl | hij
    · rcases Nat.lt_trichotomy k i with hki | rfl | hik
      · simp [fill_cons_of_lt, fill_cons_of_gt, hji, hki, hjk]
      · simp [fill_cons_of_lt, fill_cons_of_gt, fill_cons_self, hjk]
      · simp [fill_cons_of_lt, fill_cons_of_gt, hji, hik, hjk]
    · simp [fill_cons_of_gt, fill_cons_self, hjk]
    · simp [fill_cons_of_gt, hij, hij.trans hjk, ih]

theorem Ctab.fill_comm {j k : Nat} (hjk : j ≠ k) (d e : List Byte) (t : Ctab) :
    (t.fill j d).fill k e = (t.fill k e).fill j d := by
  rcases Nat.lt_or_gt_of_ne hjk with h | h
  · exact fill_comm_of_lt h d e t
  · exact (fill_comm_of_lt h e d t).symm

/-- Two Packets with different ids fill their slots, or are discarded, in either order. -/
theorem fillSlot_comm {a b : Recovered} (hid : a.id ≠ b.id) (s : State) :
    fillSlot (fillSlot s a) b = fillSlot (fillSlot s b) a := by
  have hslot : a.id.toNat ≠ b.id.toNat := mt BitVec.eq_of_toNat_eq hid
  by_cases ha : 1 ≤ a.id.toNat ∧ a.id.toNat ≤ s.xferTotal.toNat <;>
    by_cases hb : 1 ≤ b.id.toNat ∧ b.id.toNat ≤ s.xferTotal.toNat
  · simp [fillSlot, ha, hb, Ctab.fill_comm hslot]
  all_goals simp [fillSlot, ha, hb]

/-- Settles O54: Packets with different ids commute, so a permutation of them folds to the same state. The canonical
form of the table (log 8) is not needed. -/
theorem arrivalOrderDoesNotMatter : Obligations.ArrivalOrderDoesNotMatter := by
  intro s pk pk' _ hperm hids
  have hsymm : Std.Symm (fun a b : Recovered => a.id ≠ b.id) := ⟨fun _ _ => Ne.symm⟩
  refine hperm.foldl_eq' (fun a ha b hb z => ?_) s
  by_cases hab : a = b
  · rw [hab]
  · exact fillSlot_comm (hids.forall ha hb hab) z

end Sys2Proof.Machine
end

section
/-! SUPPORT. The decoder and the encoder of event words (spec/30_encoding.md R91 to R99): an equation per event code,
the fields of an encoded word, and the round trips. -/

namespace Sys2Proof

variable {e : Event}

/-! ### The decoder, code by code (R98) -/

theorem decode_nop (h : eventCode e.word = 0x00) : decode e = .ok .nop := by simp [decode, h]

theorem decode_cycle (h : eventCode e.word = 0x01) :
    decode e = .ok (.cycle (e.word.getLsbD 9) (e.word.getLsbD 8) (e.word.extractLsb' 0 8)) := by simp [decode, h]

theorem decode_send (h : eventCode e.word = 0x02) : decode e = .ok (.send e.payload) := by simp [decode, h]

theorem decode_reset (h : eventCode e.word = 0x03) : decode e = .ok .reset := by simp [decode, h]

theorem decode_encByte (h : eventCode e.word = 0x10) :
    decode e = .ok (.encByte (e.word.extractLsb' 0 8) (e.word.getLsbD 8) (e.word.getLsbD 9)) := by simp [decode, h]

theorem decode_decTriplet (h : eventCode e.word = 0x11) :
    decode e = .ok (.decTriplet (e.word.extractLsb' 8 4) (e.word.extractLsb' 4 4) (e.word.extractLsb' 0 4)) := by
  simp [decode, h]

theorem decode_strobeExpand (h : eventCode e.word = 0x12) :
    decode e = .ok (.strobeExpand (e.word.extractLsb' 0 4) (e.word.extractLsb' 4 4)) := by simp [decode, h]

/-- Every code outside the seven is reserved (R96). -/
theorem decode_reserved (h : eventCode e.word ∉ definedCodes) :
    decode e = .error (.reservedCode (eventCode e.word)) := by
  simp only [definedCodes, List.mem_cons, List.not_mem_nil, or_false, not_or] at h
  obtain ⟨h00, h01, h02, h03, h10, h11, h12⟩ := h
  simp only [decode, h00, h01, h02, h03, h10, h11, h12, if_false]

/-! ### The encoder, and decoding what it gives -/

/-- The event code of an instruction (R98). -/
def Instr.code : Instr → Byte
  | .nop => 0x00
  | .cycle .. => 0x01
  | .send _ => 0x02
  | .reset => 0x03
  | .encByte .. => 0x10
  | .decTriplet .. => 0x11
  | .strobeExpand .. => 0x12

theorem eventCode_encodeWord (i : Instr) : eventCode (encodeWord i) = i.code := by
  unfold eventCode
  cases i
  case nop | send | reset => exact BitVec.extractLsb'_append_eq_left
  case cycle | encByte | decTriplet =>
    unfold encodeWord
    iterate 4 rw [BitVec.extractLsb'_append_eq_of_le (by omega)]
    exact BitVec.extractLsb'_eq_self
  case strobeExpand =>
    unfold encodeWord
    iterate 3 rw [BitVec.extractLsb'_append_eq_of_le (by omega)]
    exact BitVec.extractLsb'_eq_self

/-- The two flags above a low byte, where CYCLE and ENC_BYTE have them (R92, R93). -/
theorem flags_of_eq_append {w : Word} {top : BitVec 22} {b9 b8 : Bool} {low : Byte}
    (h : w = top ++ BitVec.ofBool b9 ++ BitVec.ofBool b8 ++ low) :
    w.getLsbD 9 = b9 ∧ w.getLsbD 8 = b8 ∧ w.extractLsb' 0 8 = low := by
  subst h
  refine ⟨?bit9, ?bit8, BitVec.extractLsb'_append_eq_right⟩
  all_goals
    simp only [BitVec.getLsbD_append]
    simp

/-- The three low nibbles, where DEC_TRIPLET and STROBE_EXPAND have their symbols (R94, R95). -/
theorem nibbles_of_eq_append {w : Word} {top : BitVec 20} {n2 n1 n0 : Nibble} (h : w = top ++ n2 ++ n1 ++ n0) :
    w.extractLsb' 8 4 = n2 ∧ w.extractLsb' 4 4 = n1 ∧ w.extractLsb' 0 4 = n0 := by
  subst h
  refine ⟨?_, ?_, BitVec.extractLsb'_append_eq_right⟩
  · iterate 2 rw [BitVec.extractLsb'_append_eq_of_le (by omega)]
    exact BitVec.extractLsb'_append_eq_right
  · rw [BitVec.extractLsb'_append_eq_of_le (by omega)]
    exact BitVec.extractLsb'_append_eq_right

/-- Decoding gives back every instruction: its code selects an equation of the decoder, which reads its fields. -/
theorem decode_encode (i : Instr) : decode (encode i) = .ok i := by
  have hcode : eventCode (encode i).word = i.code := eventCode_encodeWord i
  cases i with
  | nop => exact decode_nop hcode
  | send payload => exact decode_send hcode
  | reset => exact decode_reset hcode
  | cycle txr rxv rxb =>
    obtain ⟨htxr, hrxv, hrxb⟩ := flags_of_eq_append (w := (encode (.cycle txr rxv rxb)).word) rfl
    rw [decode_cycle hcode, htxr, hrxv, hrxb]
  | encByte byte ctrl clk =>
    obtain ⟨hclk, hctrl, hbyte⟩ := flags_of_eq_append (w := (encode (.encByte byte ctrl clk)).word) rfl
    rw [decode_encByte hcode, hclk, hctrl, hbyte]
  | decTriplet s0 s1 s2 =>
    obtain ⟨h0, h1, h2⟩ := nibbles_of_eq_append (w := (encode (.decTriplet s0 s1 s2)).word) rfl
    rw [decode_decTriplet hcode, h0, h1, h2]
  | strobeExpand sym prev =>
    obtain ⟨-, hprev, hsym⟩ :=
      nibbles_of_eq_append (w := (encode (.strobeExpand sym prev)).word) (top := 0x12#8 ++ 0#12) (n2 := 0#4) rfl
    rw [decode_strobeExpand hcode, hprev, hsym]

theorem encode_injective : Function.Injective encode := fun i j h =>
  Except.ok.inj ((decode_encode i).symm.trans (h ▸ decode_encode j))

/-! ### The canonical form of an event, and encoding what is decoded -/

/-- The event with its reserved operand bits written as 0 (R97), and without a payload beside any code but SEND's
(R99, log 12). -/
def Event.canonical (e : Event) : Event where
  word := eventCode e.word ++ (e.word.extractLsb' 0 24 &&& operandMask (eventCode e.word))
  payload := if eventCode e.word = 0x02 then e.payload else []

theorem Event.canonical_of_code {c : Byte} (h : eventCode e.word = c) :
    e.canonical = ⟨c ++ (e.word.extractLsb' 0 24 &&& operandMask c), if c = 0x02 then e.payload else []⟩ := by
  subst h; rfl

/-- Writing the fields of `w` back into an event word gives its operand bits that are not reserved (R92 to R95). -/
theorem encodeWord_fields (w : Word) :
    encodeWord (.cycle (w.getLsbD 9) (w.getLsbD 8) (w.extractLsb' 0 8)) =
        0x01#8 ++ (w.extractLsb' 0 24 &&& operandMask 0x01) ∧
      encodeWord (.encByte (w.extractLsb' 0 8) (w.getLsbD 8) (w.getLsbD 9)) =
        0x10#8 ++ (w.extractLsb' 0 24 &&& operandMask 0x10) ∧
      encodeWord (.decTriplet (w.extractLsb' 8 4) (w.extractLsb' 4 4) (w.extractLsb' 0 4)) =
        0x11#8 ++ (w.extractLsb' 0 24 &&& operandMask 0x11) ∧
      encodeWord (.strobeExpand (w.extractLsb' 0 4) (w.extractLsb' 4 4)) =
        0x12#8 ++ (w.extractLsb' 0 24 &&& operandMask 0x12) := by
  refine ⟨?cycle, ?encByte, ?decTriplet, ?strobeExpand⟩
  all_goals
    refine BitVec.eq_of_getLsbD_eq fun k hk => ?_
    simp only [encodeWord, operandMask, BitVec.getLsbD_append]
    interval_cases k <;> simp

/-- An event with a defined code decodes to an instruction whose encoding is the event's canonical form. -/
theorem exists_decode_of_defined (h : eventCode e.word ∈ definedCodes) :
    ∃ i, decode e = .ok i ∧ encode i = e.canonical := by
  obtain ⟨hcycle, hencByte, hdecTriplet, hstrobeExpand⟩ := encodeWord_fields e.word
  simp only [definedCodes, List.mem_cons, List.not_mem_nil, or_false] at h
  rcases h with h | h | h | h | h | h | h <;> rw [Event.canonical_of_code h]
  · exact ⟨_, decode_nop h, by simp [encode, encodeWord, operandMask]⟩
  · exact ⟨_, decode_cycle h, by rw [encode, hcycle]; rfl⟩
  · exact ⟨_, decode_send h, by simp [encode, encodeWord, operandMask]⟩
  · exact ⟨_, decode_reset h, by simp [encode, encodeWord, operandMask]⟩
  · exact ⟨_, decode_encByte h, by rw [encode, hencByte]; rfl⟩
  · exact ⟨_, decode_decTriplet h, by rw [encode, hdecTriplet]; rfl⟩
  · exact ⟨_, decode_strobeExpand h, by rw [encode, hstrobeExpand]; rfl⟩

/-- A word with no bit outside a mask is not changed by the mask. -/
theorem and_mask_of_and_not_mask {n : Nat} {x m : BitVec n} (h : x &&& ~~~m = 0) : x &&& m = x :=
  calc x &&& m
    _ = x &&& m ||| x &&& ~~~m := by rw [h, BitVec.ofNat_eq_ofNat, BitVec.or_zero]
    _ = x &&& (m ||| ~~~m) := BitVec.and_or_distrib_left.symm
    _ = x := by rw [BitVec.or_not_self, BitVec.and_allOnes]

/-- A word is its code and its operand (R91). -/
theorem eventCode_append_operand (w : Word) : eventCode w ++ w.extractLsb' 0 24 = w :=
  (BitVec.extractLsb'_append_extractLsb'_eq_extractLsb' (Nat.zero_add 24).symm).trans BitVec.extractLsb'_eq_self

/-- A well-formed event has a defined code and is its own canonical form. -/
theorem Event.canonical_of_wf (h : e.wf = true) : eventCode e.word ∈ definedCodes ∧ e.canonical = e := by
  simp only [Event.wf, Bool.and_eq_true, Bool.or_eq_true, decide_eq_true_eq] at h
  obtain ⟨⟨hdefined, hreserved⟩, hpayload⟩ := h
  have hword : e.canonical.word = e.word := by
    rw [Event.canonical, eventCode, and_mask_of_and_not_mask hreserved]
    exact eventCode_append_operand e.word
  have hpayload : e.canonical.payload = e.payload := by
    rcases hpayload with hnil | hsend
    · simp [Event.canonical, hnil]
    · exact if_pos hsend
  exact ⟨hdefined, congrArg₂ Event.mk hword hpayload⟩

/-- The canonical form determines what an event decodes to, because no two instructions have the same encoding; a
reserved code is refused whatever stands beside it. -/
theorem decode_eq_of_canonical_eq {e' : Event} (hcode : eventCode e.word = eventCode e'.word)
    (hcanonical : e.canonical = e'.canonical) : decode e = decode e' := by
  by_cases hdefined : eventCode e.word ∈ definedCodes
  · obtain ⟨i, hdec, henc⟩ := exists_decode_of_defined hdefined
    obtain ⟨i', hdec', henc'⟩ := exists_decode_of_defined (hcode ▸ hdefined)
    have hi : i = i' := encode_injective (henc.trans (hcanonical.trans henc'.symm))
    rw [hdec, hdec', hi]
  · rw [decode_reserved hdefined, decode_reserved (hcode ▸ hdefined), hcode]

/-! ### The statements -/

/-- Settles O1: decoding reads each field where the encoder wrote it. -/
theorem decodeOfEncodeIsIdentity : Obligations.DecodeOfEncodeIsIdentity := decode_encode

/-- Settles O2: what an event decodes to encodes its canonical form, and a well-formed event is canonical. -/
theorem encodeOfDecodeIsIdentity : Obligations.EncodeOfDecodeIsIdentity := by
  intro e hwf
  obtain ⟨hdefined, hcanonical⟩ := Event.canonical_of_wf hwf
  obtain ⟨i, hdec, henc⟩ := exists_decode_of_defined hdefined
  exact ⟨i, hdec, henc.trans hcanonical⟩

/-- Settles O3: the two events have the same canonical form. -/
theorem reservedOperandBitsAreIgnored : Obligations.ReservedOperandBitsAreIgnored := by
  intro w w' payload (hcode : eventCode w = eventCode w') hoperand
  refine decode_eq_of_canonical_eq hcode ?_
  rw [Event.canonical, eventCode, hoperand, ← eventCode, hcode]
  rfl

/-- Settles O4: the code of each word selects an equation of the decoder, and the fields are computed. -/
theorem opcodeMapWords : Obligations.OpcodeMapWords :=
  ⟨decode_nop rfl, decode_cycle rfl, decode_cycle rfl, decode_send rfl, decode_reset rfl, decode_encByte rfl,
    decode_decTriplet rfl, decode_strobeExpand rfl⟩

/-- Settles O5: the decoder names the reserved code, and a block that is not in FATAL refuses it. -/
theorem reservedCodesAreRefused : Obligations.ReservedCodesAreRefused := by
  intro s e rest hlegal hrunning hinbox hreserved
  rw [Machine.step_of_decode_error hlegal hinbox (decode_reserved hreserved)]
  rcases Machine.reservedEvent_cases (eventCode e.word) { s with inbox := rest } with ⟨hfatal, -⟩ | ⟨-, hrefused⟩
  · exact absurd hrunning hfatal
  · exact hrefused

end Sys2Proof
end

section
/-! SUPPORT. What an instruction does by whether the block is in FATAL, the streams of the Symbol Codec, and the
statements on the codec (spec/40_codec.md R120 to R135): the direct commands, the stream round trip, the receive phase,
and strobing. -/

namespace Sys2Proof.Machine

variable {s t : State}

/-! ### Running an instruction, by FATAL (R276) -/

theorem exec_of_running (i : Instr) (h : s.fatalCause = none) : exec i s = .next (effect i s) :=
  (exec_cases i s).resolve_right fun hfatal => hfatal.1 h

theorem exec_of_fatal {i : Instr} (hi : i ≠ .reset) (h : s.fatalCause ≠ none) : exec i s = .next s := by
  cases i
  case reset => exact absurd rfl hi
  all_goals exact unlessFatal_fatal _ _ h

/-! ### The direct commands (R123, R125 to R127) -/

/-- Settles O15: the decoder's equation for code 0x10, and the effect of ENC_BYTE, which is the statement's layout. -/
theorem encByteWritesOnlyResult : Obligations.EncByteWritesOnlyResult :=
  ⟨fun _ _ hcode => decode_encByte hcode, fun _ _ _ _ hrunning => exec_of_running _ hrunning,
    fun _ _ _ _ hfatal => exec_of_fatal (by simp) hfatal⟩

/-- Settles O16: the decoder's equation for code 0x11, and the effect of DEC_TRIPLET, which is the statement's
layout. -/
theorem decTripletWritesOnlyResult : Obligations.DecTripletWritesOnlyResult :=
  ⟨fun _ _ hcode => decode_decTriplet hcode, fun _ _ _ _ hrunning => exec_of_running _ hrunning,
    fun _ _ _ _ hfatal => exec_of_fatal (by simp) hfatal⟩

/-- Settles O17: the decoder's equation for code 0x12, and the effect of STROBE_EXPAND, which is the statement's
layout. -/
theorem strobeExpandWritesOnlyResult : Obligations.StrobeExpandWritesOnlyResult :=
  ⟨fun _ _ hcode => decode_strobeExpand hcode, fun _ _ _ hrunning => exec_of_running _ hrunning,
    fun _ _ _ hfatal => exec_of_fatal (by simp) hfatal⟩

/-- The two symbols with one payload differ in bit 3 alone (R80). -/
theorem symbolOf_not (c : Bool) (p : BitVec 3) : symbolOf (!c) p = symbolOf c p ^^^ 0x8 := by
  revert c p; decide

/-- Settles O18: the triplet's round trip, and each symbol of the two phases has the same payload and opposite clock
bits. -/
theorem tripletRoundTrip : Obligations.TripletRoundTrip := fun b f =>
  ⟨decodeTriplet_of_encodeByte b f, symbolOf_not false _, symbolOf_not true _, symbolOf_not false _⟩

/-! ### Streams (R128, R129, R132, R133) -/

/-- A stream begins with the clock state it is given (R128). -/
theorem clockBit_encodeStream_head? {ps : List Pair} {c : Bool} {v : Nibble}
    (h : (encodeStream ps c).1.head? = some v) : clockBit v = c := by
  cases ps with
  | nil => simp at h
  | cons p ps =>
    obtain rfl : (encodeByte p.1 p.2 c).1.s0 = v := by simpa [encodeStream_cons] using h
    exact clockBit_s0 p.1 p.2 c

/-- Settles O19: put behind any symbol of the opposite clock, the stream alternates and ends opposite to its clock
state. -/
theorem encodedStreamsAlternate : Obligations.EncodedStreamsAlternate := by
  intro ps c
  obtain ⟨halternates, hlast⟩ := encodeStream_continues (symbolOf (!c) 0) ps c (clockBit_symbolOf _ _)
  refine ⟨alternates_tail halternates, fun v => clockBit_encodeStream_head?, fun v hv => ?_⟩
  simpa [List.getLast?_cons, hv] using hlast

/-- The whole triplets of a stream decode to its pairs, and fewer than three symbols after it give none (R132). -/
theorem decodeTriplets_encodeStream_append (ps : List Pair) (c : Bool) {extra : List Nibble}
    (hextra : extra.length < 3) : decodeTriplets ((encodeStream ps c).1 ++ extra) = ps := by
  induction ps generalizing c with
  | nil =>
    rcases extra with - | ⟨v, - | ⟨w, - | ⟨x, extra⟩⟩⟩
    · rfl
    · rfl
    · rfl
    · simp only [List.length_cons] at hextra
      omega
  | cons p ps ih =>
    calc decodeTriplets ((encodeStream (p :: ps) c).1 ++ extra)
      _ = decodeTriplet (encodeByte p.1 p.2 c).1 :: decodeTriplets ((encodeStream ps (!c)).1 ++ extra) := rfl
      _ = p :: ps := by rw [decodeTriplet_of_encodeByte, ih]

/-- The trim looks at the byte of the last pair alone (R133). -/
theorem trimZero_eq_ite (ps : List Pair) :
    trimZero ps = if (ps.getLast?).map (fun p => p.1) = some 0x00 then ps.dropLast else ps := by
  unfold trimZero
  split
  next f hlast => simp [hlast]
  next hlast =>
    refine (if_neg fun hzero => ?_).symm
    obtain ⟨⟨b, f⟩, hbf, rfl : b = 0x00⟩ := Option.map_eq_some_iff.mp hzero
    exact hlast f hbf

/-- Settles O20: the triplets decode to the pairs, and the trim is the statement's. -/
theorem streamRoundTrip : Obligations.StreamRoundTrip := by
  intro ps c extra hextra
  rw [decodeStream, decodeTriplets_encodeStream_append ps c hextra]
  exact trimZero_eq_ite ps

/-! ### The receive phase (R131, R156, R157, R233) -/

/-- The clock bit of what is read is bit 3 of the transport byte (R80, R81). -/
theorem clockBit_rxSymbol (b : Byte) : clockBit (rxSymbol b) = b.getLsbD 3 := by simp [clockBit, rxSymbol]

theorem rxPhase_of_same_clock {rxb : Byte} (h : rxb.getLsbD 3 = s.rxClock) : rxPhase true rxb s = (s, false) := by
  rw [← clockBit_rxSymbol] at h
  simp [rxPhase, h]

theorem rxPhase_of_clock_change {rxb : Byte} (h : rxb.getLsbD 3 ≠ s.rxClock) :
    rxPhase true rxb s = runSync (acceptSymbol (rxSymbol rxb) s) := by
  rw [← clockBit_rxSymbol] at h
  simp [rxPhase, h]

theorem runSync_of_frame {st e : Nat} (h : sync s.rxbuf = some (st, e)) :
    runSync s = processFrame (extractFrame s.rxbuf st e) { s with rxbuf := [] } := by
  simp [runSync, h]

theorem runSync_of_room (h : sync s.rxbuf = none) (hroom : s.rxbuf.length < s.params.rxbufCap) :
    runSync s = (s, false) := by
  simp [runSync, h, hroom]

theorem runSync_of_full (h : sync s.rxbuf = none) (hfull : s.params.rxbufCap ≤ s.rxbuf.length) :
    runSync s = (overflow s, false) := by
  simp [runSync, h, hfull]

/-- The accepted symbol, written out in the bits of the transport byte (R131). -/
theorem acceptSymbol_rxSymbol (rxb : Byte) (s : State) :
    acceptSymbol (rxSymbol rxb) s = { s with
      rxClock := rxb.getLsbD 3, rxbuf := s.rxbuf ++ [rxb.extractLsb' 0 4],
      diag := { s.diag with rxSymbols := s.diag.rxSymbols + 1 } } := by
  rw [acceptSymbol, clockBit_rxSymbol]; rfl

/-- Settles O23: a clock change accepts the symbol and runs the synchronizer, which has the statement's three cases. -/
theorem receivePhaseAcceptsOnClockChange : Obligations.ReceivePhaseAcceptsOnClockChange := by
  refine fun s rxb => ⟨rxPhase_without_read rxb s, rxPhase_of_same_clock, fun hchange s' hs' => ?_⟩
  have hparams : s'.params = s.params := by rw [hs']
  rw [← hparams, rxPhase_of_clock_change hchange, acceptSymbol_rxSymbol, ← hs']
  exact ⟨fun st e => runSync_of_frame, runSync_of_room, runSync_of_full⟩

/-! ### Strobing (R124, R130, R135) -/

/-- The first write of a symbol that differs from the last write in bit 3 is the symbol itself (R124, R130). -/
theorem strobeExpand_of_clock_ne {sym prev : Nibble} (h : clockBit prev ≠ clockBit sym) :
    strobeExpand sym prev = (sym, sym) := by
  rw [strobeExpand, ← Bool.eq_not.mpr h.symm, symbolOf_clock_payload]

/-- The symbols written so far, then the pending second write, then each queued symbol twice. -/
def strobedStream (s : State) : List Nibble :=
  writtenSymbols s.out ++ s.txPending.toList ++ s.txq.flatMap (fun v => [v, v])

theorem strobedStream_congr (ho : t.out = s.out) (hp : t.txPending = s.txPending) (hq : t.txq = s.txq) :
    strobedStream t = strobedStream s := by
  rw [strobedStream, strobedStream, ho, hp, hq]

/-- Queuing adds a Transmission's symbols at the end, or nothing (R237). -/
theorem strobedStream_prefix_enqueue (ps : List Pair) (s : State) :
    strobedStream s <+: strobedStream (enqueue ps s) := by
  rcases enqueue_cases ps s with ⟨-, e⟩ | ⟨-, e⟩ <;> rw [e]
  · exact ⟨(encodeStream ps s.txClock).1.flatMap (fun v => [v, v]), by simp [strobedStream]⟩
  · exact List.prefix_rfl

/-- With strobing the write slot moves the stream's next symbol to what is written: the pending one, or one half of the
head of the queue, whose first write is itself because the last write and the queue alternate (R130, R232). -/
theorem strobedStream_writeNext (hstrobe : s.params.strobeEn = true)
    (halternates : alternates (s.txLastWrite :: s.txq) = true) : strobedStream (writeNext s) = strobedStream s := by
  rcases writeNext_cases s with ⟨p, -, hp, e⟩ | ⟨sym, q, -, hp, hq, e⟩ | ⟨sym, q, hoff, -, -⟩ | ⟨-, -, e⟩
  · rw [e]
    simp [strobedStream, writeSymbol, hp]
  · have hclock : clockBit s.txLastWrite ≠ clockBit sym := by
      rw [hq, alternates, Bool.and_eq_true, bne_iff_ne] at halternates
      exact halternates.1
    rw [e, strobeExpand_of_clock_ne hclock]
    simp [strobedStream, writeSymbol, hp, hq]
  · simp [hstrobe] at hoff
  · rw [e]

theorem strobedStream_txPhase (txr : Bool) (hstrobe : s.params.strobeEn = true)
    (halternates : alternates (s.txLastWrite :: s.txq) = true) : strobedStream (txPhase txr s) = strobedStream s := by
  rcases txPhase_cases txr s with e | ⟨-, e⟩ <;> rw [e]
  · exact strobedStream_congr rfl rfl rfl
  · exact strobedStream_writeNext hstrobe halternates

theorem ReceiveUpdate.strobedStream_prefix (h : ReceiveUpdate s t) : strobedStream s <+: strobedStream t := by
  cases h with
  | enqueue ps => exact strobedStream_prefix_enqueue ps s
  | deliver bs => simp [strobedStream]
  | halt c => simp [strobedStream]
  | own h => rw [h]; exact List.prefix_rfl

theorem ReceiveUpdates.strobedStream_prefix (h : ReceiveUpdates s t) : strobedStream s <+: strobedStream t := by
  induction h with
  | refl => exact List.prefix_rfl
  | tail _ hstep ih => exact ih.trans hstep.strobedStream_prefix

/-- With strobing and an alternating stream, every effect but RESET's only adds to the strobed stream at its end. -/
theorem strobedStream_prefix_effect {i : Instr} (hstrobe : s.params.strobeEn = true)
    (halternates : alternates (s.txLastWrite :: s.txq) = true) (hi : i ≠ .reset) :
    strobedStream s <+: strobedStream (effect i s) := by
  cases i with
  | cycle txr rxv rxb =>
    rw [← strobedStream_txPhase txr hstrobe halternates]
    exact (receiveUpdates_runCycle txr rxv rxb s).strobedStream_prefix
  | send B =>
    simp only [effect]
    split
    · exact List.prefix_rfl
    · exact strobedStream_prefix_enqueue _ { s with orig := some (dataPackets B s.params.chunkSize) }
  | reset => exact absurd rfl hi
  | nop | encByte | decTriplet | strobeExpand => exact List.prefix_rfl

/-- Settles O30: FATAL keeps the strobed stream, and every effect but RESET's extends it. -/
theorem strobedSymbolsAreWrittenTwice : Obligations.StrobedSymbolsAreWrittenTwice := by
  intro s t i hinv hstrobe hi hexec
  rcases exec_next_cases hexec with ⟨-, -, rfl⟩ | ⟨-, rfl⟩
  · exact List.prefix_rfl
  · exact strobedStream_prefix_effect hstrobe hinv.tx_alternates hi

end Sys2Proof.Machine
end

section
/-! SUPPORT. What the synchronizer answers, by the first Start and the Ends aligned to it, what an uncorrupted frame
begins and ends with, and the chunks of a list of pairs; and the statements on the Frame Synchronizer
(spec/41_frame_sync.md R150 to R163). -/

namespace Sys2Proof.Machine

/-! ### The windows (R150) -/

theorem startsWithStart_iff (syms : List Nibble) :
    startsWithStart syms = true ↔ syms.take 3 = [0x0, 0xD, 0x5] ∨ syms.take 3 = [0x8, 0x5, 0xD] := by
  simp [startsWithStart, startPatterns]

theorem startsWithEnd_iff (syms : List Nibble) :
    startsWithEnd syms = true ↔ syms.take 3 = [0x0, 0x9, 0x1] ∨ syms.take 3 = [0x8, 0x1, 0x9] := by
  simp [startsWithEnd, endPatterns]

/-- A window has three symbols, all of them in the buffer. -/
theorem add_three_le_of_window {buf : List Nibble} {i : Nat} {a b c : Nibble} (h : (buf.drop i).take 3 = [a, b, c]) :
    i + 3 ≤ buf.length := by
  have : 3 ≤ buf.length - i := by simpa using congrArg List.length h
  omega

theorem add_three_le_of_isStart {buf : List Nibble} {i : Nat} (h : isStart buf i = true) : i + 3 ≤ buf.length := by
  rcases (startsWithStart_iff _).mp h with h | h <;> exact add_three_le_of_window h

theorem add_three_le_of_isEnd {buf : List Nibble} {i : Nat} (h : isEnd buf i = true) : i + 3 ≤ buf.length := by
  rcases (startsWithEnd_iff _).mp h with h | h <;> exact add_three_le_of_window h

/-- Symbols appended behind a window leave it as it is. -/
theorem window_append {buf : List Nibble} {i : Nat} (h : i + 3 ≤ buf.length) (extra : List Nibble) :
    ((buf ++ extra).drop i).take 3 = (buf.drop i).take 3 := by
  rw [List.drop_append_of_le_length (by omega), List.take_append_of_le_length (by simp; omega)]

theorem isStart_append {buf : List Nibble} {i : Nat} (h : i + 3 ≤ buf.length) (extra : List Nibble) :
    isStart (buf ++ extra) i = isStart buf i := by
  simp only [isStart, startsWithStart, window_append h]

theorem isEnd_append {buf : List Nibble} {i : Nat} (h : i + 3 ≤ buf.length) (extra : List Nibble) :
    isEnd (buf ++ extra) i = isEnd buf i := by
  simp only [isEnd, startsWithEnd, window_append h]

/-! ### What the synchronizer answers (R152 to R154) -/

/-- R152: a Start window stands at `s`, and none before it. -/
def FirstStart (buf : List Nibble) (s : Nat) : Prop := isStart buf s = true ∧ ∀ i, i < s → isStart buf i = false

/-- R153: an End window stands at `j`, a whole number of triplets behind the Start at `s`. -/
def AlignedEnd (buf : List Nibble) (s j : Nat) : Prop := s + 3 ≤ j ∧ (j - s) % 3 = 0 ∧ isEnd buf j = true

/-- R153: the last End aligned to the Start at `s` stands at `e`. -/
def LastEnd (buf : List Nibble) (s e : Nat) : Prop := AlignedEnd buf s e ∧ ∀ j, AlignedEnd buf s j → j ≤ e

/-- Everything the End scan can answer (R153): the last of the boundaries with an End window, or that there is none. -/
theorem scanEnd_cases (syms : List Nibble) (i : Nat) :
    (∃ k, scanEnd syms i = some (i + 3 * k) ∧ startsWithEnd (syms.drop (3 * k)) = true ∧
      ∀ m, k < m → startsWithEnd (syms.drop (3 * m)) = false) ∨
    (scanEnd syms i = none ∧ ∀ m, startsWithEnd (syms.drop (3 * m)) = false) := by
  fun_induction scanEnd syms i with
  | case1 i s0 s1 s2 rest j hj ih =>
    rcases ih with ⟨k, hk, hend, hlast⟩ | ⟨hnone, -⟩
    · refine .inl ⟨k + 1, ?_, hend, fun m hm => ?_⟩
      · rw [← hj, hk]
        congr 1
        omega
      · obtain ⟨m, rfl⟩ : ∃ n, m = n + 1 := ⟨m - 1, by omega⟩
        exact hlast m (by omega)
    · simp [hj] at hnone
  | case2 i s0 s1 s2 rest hrest hend ih =>
    rcases ih with ⟨k, hk, -⟩ | ⟨-, hnone⟩
    · simp [hrest] at hk
    · refine .inl ⟨0, rfl, hend, fun m hm => ?_⟩
      obtain ⟨m, rfl⟩ : ∃ n, m = n + 1 := ⟨m - 1, by omega⟩
      exact hnone m
  | case3 i s0 s1 s2 rest hrest hend ih =>
    rcases ih with ⟨k, hk, -⟩ | ⟨-, hnone⟩
    · simp [hrest] at hk
    · refine .inr ⟨rfl, fun m => ?_⟩
      cases m with
      | zero => exact Bool.eq_false_iff.mpr hend
      | succ m => exact hnone m
  | case4 syms i hshort =>
    refine .inr ⟨rfl, fun m => Bool.eq_false_iff.mpr fun hend => ?_⟩
    have hlen : 3 * m + 3 ≤ syms.length := add_three_le_of_isEnd hend
    match syms, hlen with
    | s0 :: s1 :: s2 :: rest, _ => exact hshort s0 s1 s2 rest rfl

/-- The Ends that the scan behind the Start at `s` meets are the aligned ones. -/
theorem alignedEnd_iff (buf : List Nibble) (s j : Nat) :
    AlignedEnd buf s j ↔ ∃ k, j = s + 3 + 3 * k ∧ startsWithEnd ((buf.drop (s + 3)).drop (3 * k)) = true := by
  simp only [List.drop_drop]
  constructor
  · rintro ⟨hle, hmod, hend⟩
    obtain ⟨k, rfl⟩ : ∃ k, j = s + 3 + 3 * k := ⟨(j - s) / 3 - 1, by omega⟩
    exact ⟨k, rfl, hend⟩
  · rintro ⟨k, rfl, hend⟩
    exact ⟨by omega, by omega, hend⟩

theorem scanStart_eq_some_iff_firstStart (buf : List Nibble) (s : Nat) : scanStart buf 0 = some s ↔ FirstStart buf s := by
  rw [scanStart_eq_some_iff]
  constructor
  · rintro ⟨k, rfl, -, hstart, hfirst⟩
    rw [Nat.zero_add]
    exact ⟨hstart, hfirst⟩
  · rintro ⟨hstart, hfirst⟩
    have := add_three_le_of_isStart hstart
    exact ⟨s, by omega, by omega, hstart, hfirst⟩

/-- With a first Start at `s`, the synchronizer answers the last End aligned to it, or there is no such End. -/
theorem sync_cases_of_firstStart {buf : List Nibble} {s : Nat} (hs : FirstStart buf s) :
    (∃ e, sync buf = some (s, e) ∧ LastEnd buf s e) ∨ (sync buf = none ∧ ∀ j, ¬ AlignedEnd buf s j) := by
  have hscan := (scanStart_eq_some_iff_firstStart buf s).mpr hs
  by_cases hshort : buf.length < 6
  · refine .inr ⟨by simp [sync, hshort], fun j ⟨hle, _, hend⟩ => ?_⟩
    have := add_three_le_of_isEnd hend
    omega
  rcases scanEnd_cases (buf.drop (s + 3)) (s + 3) with ⟨k, hk, hend, hlast⟩ | ⟨hnone, hno⟩
  · refine .inl ⟨_, by simp [sync, hshort, hscan, hk], (alignedEnd_iff ..).mpr ⟨k, rfl, hend⟩, fun j hj => ?_⟩
    obtain ⟨m, rfl, hm⟩ := (alignedEnd_iff ..).mp hj
    have : ¬ k < m := fun h => Bool.eq_false_iff.mp (hlast m h) hm
    omega
  · refine .inr ⟨by simp [sync, hscan, hnone], fun j hj => ?_⟩
    obtain ⟨m, -, hm⟩ := (alignedEnd_iff ..).mp hj
    exact Bool.eq_false_iff.mp (hno m) hm

theorem firstStart_of_sync {buf : List Nibble} {s e : Nat} (h : sync buf = some (s, e)) : FirstStart buf s := by
  rw [← scanStart_eq_some_iff_firstStart]
  unfold sync at h
  split at h
  · cases h
  · split at h
    · cases h
    next hscan =>
      split at h
      · cases h
      · cases h
        exact hscan

/-- Everything the synchronizer can answer as a frame (R150 to R154). -/
theorem sync_eq_some_iff (buf : List Nibble) (s e : Nat) :
    sync buf = some (s, e) ↔ FirstStart buf s ∧ LastEnd buf s e := by
  constructor
  · intro h
    have hs := firstStart_of_sync h
    rcases sync_cases_of_firstStart hs with ⟨e', he', hlast⟩ | ⟨hnone, -⟩
    · obtain rfl : e' = e := by simpa [h] using he'.symm
      exact ⟨hs, hlast⟩
    · simp [h] at hnone
  · rintro ⟨hs, hend, hmax⟩
    rcases sync_cases_of_firstStart hs with ⟨e', he', hend', hmax'⟩ | ⟨-, hno⟩
    · rw [he', Nat.le_antisymm (hmax _ hend') (hmax' _ hend)]
    · exact absurd hend (hno e)

/-- Settles O36: the statement writes out the first Start and the last End aligned to it. -/
theorem syncFindsFirstStartAndLastEnd : Obligations.SyncFindsFirstStartAndLastEnd := by
  intro buf win start fin s e
  have hstart : ∀ i, isStart buf i = true ↔ start i := fun i => startsWithStart_iff _
  have hfin : ∀ j, AlignedEnd buf s j ↔ fin s j := fun j =>
    ⟨fun ⟨hle, hmod, hend⟩ => ⟨add_three_le_of_isEnd hend, hle, hmod, (startsWithEnd_iff _).mp hend⟩,
      fun ⟨_, hle, hmod, hend⟩ => ⟨hle, hmod, (startsWithEnd_iff _).mpr hend⟩⟩
  simp only [sync_eq_some_iff, FirstStart, LastEnd, hfin, ← Bool.not_eq_true, hstart]
  constructor
  · rintro ⟨⟨hs, hfirst⟩, ⟨hlen, hle, hend⟩, hmax⟩
    exact ⟨by omega, by omega, hs, hfirst, ⟨hlen, hle, hend⟩, hmax⟩
  · rintro ⟨-, -, hs, hfirst, hend, hmax⟩
    exact ⟨⟨hs, hfirst⟩, hend, hmax⟩

/-- Settles O37: an End before the tail, and the Start it is aligned to, would stand in the buffer without the symbol. -/
theorem frameEndsAtTheTail : Obligations.FrameEndsAtTheTail := by
  intro buf v s e hnone hframe
  obtain ⟨⟨hstart, hfirst⟩, ⟨hle, hmod, hend⟩, -⟩ := (sync_eq_some_iff ..).mp hframe
  have hlen := add_three_le_of_isEnd hend
  by_contra hne
  have hfit : e + 3 ≤ buf.length := by
    rw [List.length_append, List.length_singleton] at hlen hne
    omega
  have hs : FirstStart buf s := by
    refine ⟨?_, fun i hi => ?_⟩
    · rwa [isStart_append (by omega)] at hstart
    · rw [← isStart_append (by omega) [v]]
      exact hfirst i hi
  rw [isEnd_append hfit] at hend
  rcases sync_cases_of_firstStart hs with ⟨e', he', -⟩ | ⟨-, hno⟩
  · simp [hnone] at he'
  · exact hno e ⟨hle, hmod, hend⟩

/-! ### The symbols of an uncorrupted frame (R83, R88, R161) -/

theorem startsWithStart_encodeStream_sot (ps : List Pair) (c : Bool) :
    startsWithStart (encodeStream (ctl ctlSOT :: ps) c).1 = true := by
  cases c <;> rfl

theorem startsWithEnd_encodeStream_eot (c : Bool) : startsWithEnd (encodeStream [ctl ctlEOT] c).1 = true := by
  cases c <;> rfl

theorem startsWithStart_frameSymbols (t : Transmission) (c : Bool) : startsWithStart (frameSymbols t c) = true :=
  startsWithStart_encodeStream_sot _ c

/-- A frame is a positive number of triplets and then an EOT triplet. -/
theorem frameSymbols_eq_append_eot (t : Transmission) (c : Bool) :
    ∃ n front last, frameSymbols t c = front ++ last ∧ front.length = 3 * (n + 1) ∧ last.length = 3 ∧
      startsWithEnd last = true := by
  obtain ⟨ps, hps⟩ : ∃ ps, serialize t = ctl ctlSOT :: ps ++ [ctl ctlEOT] := ⟨_, rfl⟩
  refine ⟨ps.length, (encodeStream (ctl ctlSOT :: ps) c).1, _, ?_, by simp, encodeStream_length [ctl ctlEOT] _,
    startsWithEnd_encodeStream_eot (encodeStream (ctl ctlSOT :: ps) c).2⟩
  rw [frameSymbols, hps, encodeStream_append]

/-- Settles O38: the first Start stands where the frame begins, and the last aligned End is its EOT triplet, behind
which no window fits. -/
theorem leadingNoiseChangesNothing : Obligations.LeadingNoiseChangesNothing := by
  intro noise t c hnoise
  have hstart : isStart (noise ++ frameSymbols t c) noise.length = true := by
    simpa [isStart] using startsWithStart_frameSymbols t c
  obtain ⟨n, front, last, hframe, hfront, hlast, heot⟩ := frameSymbols_eq_append_eot t c
  have hlen : (frameSymbols t c).length = 3 * (n + 1) + 3 := by rw [hframe, List.length_append, hfront, hlast]
  have hend : isEnd (noise ++ frameSymbols t c) (noise.length + 3 * (n + 1)) = true := by
    simpa [isEnd, hframe, ← hfront] using heot
  rw [hlen, ← Nat.add_assoc, Nat.add_sub_cancel]
  constructor
  · refine (sync_eq_some_iff ..).mpr ⟨⟨hstart, hnoise⟩, ⟨by omega, by omega, hend⟩, fun j ⟨_, _, hj⟩ => ?_⟩
    have := add_three_le_of_isEnd hj
    rw [List.length_append, hlen] at this
    omega
  · rw [extractFrame, List.drop_left, List.take_of_length_le (by omega)]

/-! ### The chunks (R158, R163) -/

/-- Splitting loses no pair and keeps their order. -/
theorem flatten_splitData (pairs : List Pair) : (splitData pairs).flatten = pairs := by
  induction pairs using List.reverseRecOn with
  | nil => rfl
  | append_singleton pairs p ih =>
    rw [splitData_snoc]
    rcases addToChunks_cases (splitData pairs) p with ⟨-, hnew⟩ | ⟨done, last, -, hchunks, hjoin⟩
    · simp [hnew, ih]
    · rw [hjoin, ← ih, hchunks]
      simp

/-- A chunk has a first pair, and only that one can carry flag 1. -/
theorem plain_tail_of_mem_splitData (pairs : List Pair) :
    ∀ chunk ∈ splitData pairs, chunk ≠ [] ∧ ∀ p ∈ chunk.tail, p.2 = false := by
  induction pairs using List.reverseRecOn with
  | nil => simp
  | append_singleton pairs p ih =>
    rw [splitData_snoc]
    rcases addToChunks_cases (splitData pairs) p with ⟨-, hnew⟩ | ⟨done, last, hplain, hchunks, hjoin⟩
    · rw [hnew, List.forall_mem_append]
      exact ⟨ih, by simp⟩
    · rw [hchunks, List.forall_mem_append, List.forall_mem_singleton] at ih
      obtain ⟨hdone, hne, htail⟩ := ih
      rw [hjoin, List.forall_mem_append, List.forall_mem_singleton, List.tail_append_of_ne_nil hne,
        List.forall_mem_append, List.forall_mem_singleton]
      exact ⟨hdone, by simp, htail, hplain⟩

/-- Every chunk but the first begins with a flagged pair. -/
theorem flagged_head_of_mem_tail_splitData (pairs : List Pair) :
    ∀ chunk ∈ (splitData pairs).tail, ∃ b, chunk.head? = some (b, true) := by
  induction pairs using List.reverseRecOn with
  | nil => simp
  | append_singleton pairs p ih =>
    rw [splitData_snoc]
    rcases addToChunks_cases (splitData pairs) p with ⟨hflag, hnew⟩ | ⟨done, last, -, hchunks, hjoin⟩
    · rw [hnew]
      by_cases hempty : splitData pairs = []
      · simp [hempty]
      · have hp : p = (p.1, true) := Prod.ext rfl (hflag.resolve_right hempty)
        rw [List.tail_append_of_ne_nil hempty, List.forall_mem_append, List.forall_mem_singleton]
        exact ⟨ih, p.1, congrArg some hp⟩
    · rw [hjoin]
      by_cases hempty : done = []
      · simp [hempty]
      · rw [hchunks, List.tail_append_of_ne_nil hempty, List.forall_mem_append, List.forall_mem_singleton] at ih
        obtain ⟨hdone, b, hb⟩ := ih
        rw [List.tail_append_of_ne_nil hempty, List.forall_mem_append, List.forall_mem_singleton]
        exact ⟨hdone, b, by simp [List.head?_append, hb]⟩

/-- The two chunks of a Packet (R88). -/
def packetChunks (p : Packet) : List Chunk :=
  [ctl ctlSOH :: plain (packetHeader p), ctl ctlSOTX :: plain (p.data ++ p.ecc)]

theorem foldl_addToChunks_packets (packets : List Packet) (done : List Chunk) :
    (packets.flatMap packetPairs).foldl addToChunks done = done ++ packets.flatMap packetChunks := by
  induction packets generalizing done with
  | nil => simp
  | cons p packets ih =>
    rw [List.flatMap_cons, List.foldl_append, packetPairs, List.foldl_append, foldl_addToChunks_chunk,
      foldl_addToChunks_chunk, ih, List.flatMap_cons, packetChunks]
    simp

/-- The chunks of a serialized Transmission (R163). -/
theorem splitData_serialize (t : Transmission) :
    splitData (serialize t) =
      (ctl ctlSOT :: plain (transmissionHeader t)) :: t.packets.flatMap packetChunks ++ [[ctl ctlEOT]] := by
  rw [splitData, serialize, List.foldl_append, List.foldl_append, foldl_addToChunks_chunk, foldl_addToChunks_packets]
  exact foldl_addToChunks_chunk _ ctlEOT []

/-- An uncorrupted frame decodes to the pairs it was built from: EOT is its last pair, so nothing is trimmed (R132,
R133). -/
theorem decodeStream_frameSymbols (t : Transmission) (c : Bool) : decodeStream (frameSymbols t c) = serialize t := by
  have hlast : (serialize t).getLast? = some (ctl ctlEOT) := List.getLast?_concat
  have hround := streamRoundTrip (serialize t) c [] (by simp)
  rwa [List.append_nil, hlast, if_neg (by decide)] at hround

/-- Settles O39: the chunks of any pairs by induction on the pairs, and those of a frame by what it decodes to. -/
theorem chunksOfAFrame : Obligations.ChunksOfAFrame := by
  refine ⟨fun pairs => ⟨flatten_splitData pairs, plain_tail_of_mem_splitData pairs,
    flagged_head_of_mem_tail_splitData pairs⟩, fun t c => ?_⟩
  rw [decodeStream_frameSymbols, splitData_serialize]
  rfl

end Sys2Proof.Machine
end

section
/-! SUPPORT. GF(2^8) as a field (spec/42_fec.md R170, R171): the inverse of every nonzero byte, the order of α, and the
embedding of the bytes in a field of the library, through which the polynomials and the linear algebra of the
Reed-Solomon code are those of the library. -/

namespace Sys2Proof.Machine

/-! ### The bytes as a field (R170, R171) -/

theorem gmul_self_xor (a b : Byte) : gmul (a ^^^ b) (a ^^^ b) = gmul a a ^^^ gmul b b := by
  rw [gmul_xor_left, gmul_xor_right, gmul_xor_right, gmul_comm b a, BitVec.xor_assoc, ← BitVec.xor_assoc (gmul a b),
    BitVec.xor_self, BitVec.zero_xor]

/-- `a` squared `k` times. -/
def gsquares : Nat → Byte → Byte
  | 0, a => a
  | k + 1, a => gsquares k (gmul a a)

theorem gsquares_xor (k : Nat) (a b : Byte) : gsquares k (a ^^^ b) = gsquares k a ^^^ gsquares k b := by
  induction k generalizing a b with
  | zero => rfl
  | succ k ih => rw [gsquares, gmul_self_xor, ih, gsquares, gsquares]

/-- Eight squarings are additive and keep each single bit, so they keep every byte: a^256 = a. -/
theorem gsquares_eight (a : Byte) : gsquares 8 a = a :=
  byte_xor_induction (P := fun a => gsquares 8 a = a) (by decide) (fun a b ha hb => by rw [gsquares_xor, ha, hb])
    (by decide) a


theorem gmul_gmul_ginv (a : Byte) : gmul a (gmul a (ginv a)) = a := by
  conv_rhs => rw [← gsquares_eight a]
  unfold ginv
  simp only [gsquares]
  generalize h2 : gmul a a = a2
  generalize h4 : gmul a2 a2 = a4
  generalize h8 : gmul a4 a4 = a8
  generalize h16 : gmul a8 a8 = a16
  generalize h32 : gmul a16 a16 = a32
  generalize h64 : gmul a32 a32 = a64
  generalize h128 : gmul a64 a64 = a128
  have hsquare : ∀ x y, gmul x (gmul x y) = gmul (gmul x x) y := fun x y => (gmul_assoc x x y).symm
  simp only [gmul_assoc, hsquare, h2, h4, h8, h16, h32, h64, h128]

theorem gmul_idempotent {u : Byte} (h : gmul u u = u) : u = 0#8 ∨ u = 1#8 := by
  revert u; decide +kernel

/-- A nonzero byte times its inverse is idempotent and not zero (R171). -/
theorem gmul_ginv {a : Byte} (h : a ≠ 0#8) : gmul a (ginv a) = 1#8 := by
  have hidem : gmul (gmul a (ginv a)) (gmul a (ginv a)) = gmul a (ginv a) := by
    rw [gmul_comm a (ginv a), gmul_assoc, gmul_comm (ginv a) a, gmul_gmul_ginv, gmul_comm]
  refine (gmul_idempotent hidem).resolve_left fun hzero => h ?_
  rw [← gmul_gmul_ginv a, hzero, gmul_zero_right]

@[simp] theorem ginv_zero : ginv 0#8 = 0#8 := by decide

/-- The bytes with the operations of R170 and R171; a type of its own, because `Byte` has machine arithmetic. -/
def GF256 : Type := Byte

/-- GF(2^8) as a field of the library. -/
@[reducible] def gf256Field : Field GF256 where
  add a b := BitVec.xor a b
  add_assoc := BitVec.xor_assoc
  zero := (0#8 : Byte)
  zero_add a := BitVec.zero_xor
  add_zero a := BitVec.xor_zero
  add_comm := BitVec.xor_comm
  neg a := a
  neg_add_cancel a := BitVec.xor_self
  nsmul := @nsmulRec _ ⟨(0#8 : Byte)⟩ ⟨BitVec.xor⟩
  zsmul := @zsmulRec _ ⟨(0#8 : Byte)⟩ ⟨BitVec.xor⟩ ⟨id⟩ (@nsmulRec _ ⟨(0#8 : Byte)⟩ ⟨BitVec.xor⟩)
  mul := gmul
  mul_assoc := gmul_assoc
  mul_comm := gmul_comm
  one := (1#8 : Byte)
  one_mul := gmul_one_left
  mul_one := gmul_one_right
  zero_mul := gmul_zero_left
  mul_zero := gmul_zero_right
  left_distrib a b c := gmul_xor_right a b c
  right_distrib a b c := gmul_xor_left a b c
  inv := ginv
  exists_pair_ne := ⟨(0#8 : Byte), (1#8 : Byte), (by decide : (0#8 : Byte) ≠ 1#8)⟩
  mul_inv_cancel a h := gmul_ginv h
  inv_zero := ginv_zero
  nnqsmul := _
  qsmul := _

/-- `φ` carries the operations of R170 and R171 to those of the field `F`, and loses nothing. -/
structure IsFieldEmbedding {F : Type} [Field F] (φ : Byte → F) : Prop where
  injective : Function.Injective φ
  map_zero : φ 0#8 = 0
  map_one : φ 1#8 = 1
  map_xor : ∀ a b, φ (a ^^^ b) = φ a + φ b
  map_gmul : ∀ a b, φ (gmul a b) = φ a * φ b

/-- What is proved about the bytes through any embedding holds: GF(2^8) itself is one. -/
theorem exists_isFieldEmbedding : ∃ (F : Type) (_ : Field F) (φ : Byte → F), IsFieldEmbedding φ :=
  letI := gf256Field
  ⟨GF256, gf256Field, id, Function.injective_id, rfl, rfl, fun _ _ => rfl, fun _ _ => rfl⟩

namespace IsFieldEmbedding

variable {F : Type} [Field F] {φ : Byte → F}

theorem map_eq_zero (hφ : IsFieldEmbedding φ) {a : Byte} : φ a = 0 ↔ a = 0#8 := by
  rw [← hφ.map_zero, hφ.injective.eq_iff]

theorem map_ginv (hφ : IsFieldEmbedding φ) (a : Byte) : φ (ginv a) = (φ a)⁻¹ := by
  by_cases h : a = 0#8
  · rw [h, ginv_zero, hφ.map_zero, inv_zero]
  · exact eq_inv_of_mul_eq_one_right (by rw [← hφ.map_gmul, gmul_ginv h, hφ.map_one])

theorem map_gpow (hφ : IsFieldEmbedding φ) (a : Byte) (k : Nat) : φ (gpow a k) = φ a ^ k := by
  induction k with
  | zero => rw [pow_zero]; exact hφ.map_one
  | succ k ih => rw [gpow, hφ.map_gmul, ih, pow_succ]

/-- Addition is exclusive or, so the field has characteristic 2. -/
theorem charP (hφ : IsFieldEmbedding φ) : CharP F 2 :=
  CharTwo.of_one_ne_zero_of_two_eq_zero one_ne_zero <| by
    rw [← one_add_one_eq_two, ← hφ.map_one, ← hφ.map_xor, BitVec.xor_self, hφ.map_zero]

theorem map_pow_eq_one_iff (hφ : IsFieldEmbedding φ) (a : Byte) (k : Nat) : φ a ^ k = 1 ↔ gpow a k = 1#8 := by
  rw [← hφ.map_gpow, ← hφ.map_one, hφ.injective.eq_iff]

/-- The order of α, by its powers at the quotients of 255 by its prime factors 3, 5 and 17 (R170). -/
theorem orderOf_alpha (hφ : IsFieldEmbedding φ) : orderOf (φ alpha) = 255 := by
  refine orderOf_eq_of_pow_and_pow_div_prime (by decide) ((hφ.map_pow_eq_one_iff _ _).mpr (by decide +kernel))
    fun p hp hdvd => ?_
  have hquot : p = 3 ∨ p = 5 ∨ p = 17 := by
    rw [show 255 = 3 * (5 * 17) by rfl, hp.dvd_mul, hp.dvd_mul] at hdvd
    simpa only [Nat.prime_dvd_prime_iff_eq hp, Nat.prime_three, Nat.prime_five, show Nat.Prime 17 by norm_num]
      using hdvd
  rw [Ne, hφ.map_pow_eq_one_iff]
  rcases hquot with rfl | rfl | rfl <;> decide +kernel

theorem gpow_alpha_eq_one_iff (hφ : IsFieldEmbedding φ) (k : Nat) : gpow alpha k = 1#8 ↔ 255 ∣ k := by
  rw [← hφ.orderOf_alpha, orderOf_dvd_iff_pow_eq_one, hφ.map_pow_eq_one_iff]

end IsFieldEmbedding

end Sys2Proof.Machine
end

section
/-! SUPPORT. Words as polynomials over the field, the generator polynomial, and division by it: the parity, the
codewords, and the statements on them (spec/42_fec.md R172 to R174). -/

namespace Sys2Proof.Machine

open Polynomial

/-! ### Words as polynomials (R174) -/

variable {F : Type} [Field F] {φ : Byte → F}

/-- The polynomial of a word, its first byte the coefficient of the highest degree (R174). -/
noncomputable def wordPoly (φ : Byte → F) : List Byte → F[X]
  | [] => 0
  | b :: c => C (φ b) * X ^ c.length + wordPoly φ c

theorem wordPoly_append (φ : Byte → F) (c d : List Byte) :
    wordPoly φ (c ++ d) = wordPoly φ c * X ^ d.length + wordPoly φ d := by
  induction c with
  | nil => simp [wordPoly]
  | cons b c ih =>
    rw [List.cons_append, wordPoly, ih, wordPoly, List.length_append]
    ring

theorem wordPoly_singleton (φ : Byte → F) (b : Byte) : wordPoly φ [b] = C (φ b) := by simp [wordPoly]

theorem degree_wordPoly_lt (φ : Byte → F) (c : List Byte) : (wordPoly φ c).degree < c.length := by
  induction c with
  | nil => simp [wordPoly]
  | cons b c ih =>
    have hlt : ((c.length : Nat) : WithBot Nat) < (b :: c).length := by
      exact_mod_cast Nat.lt_succ_self _
    exact (degree_add_le _ _).trans_lt (max_lt ((degree_C_mul_X_pow_le _ _).trans_lt hlt) (ih.trans hlt))

theorem wordPoly_replicate_zero (hφ : IsFieldEmbedding φ) (k : Nat) : wordPoly φ (List.replicate k 0#8) = 0 := by
  induction k with
  | zero => rfl
  | succ k ih => simp [List.replicate_succ, wordPoly, ih, hφ.map_zero]

theorem wordPoly_eq_zero_iff (hφ : IsFieldEmbedding φ) (c : List Byte) :
    wordPoly φ c = 0 ↔ c = List.replicate c.length 0#8 := by
  refine ⟨fun h => ?_, fun h => h ▸ wordPoly_replicate_zero hφ _⟩
  induction c with
  | nil => rfl
  | cons b c ih =>
    have hb : φ b = 0 := by
      have := congrArg (coeff · c.length) h
      simpa [wordPoly, coeff_eq_zero_of_degree_lt (degree_wordPoly_lt φ c)] using this
    have hc : wordPoly φ c = 0 := by simpa [wordPoly, hb] using h
    rw [List.length_cons, List.replicate_succ, ← ih hc, ← hφ.map_eq_zero.mp hb]

theorem wordPoly_zipWith_xor (hφ : IsFieldEmbedding φ) {c d : List Byte} (h : c.length = d.length) :
    wordPoly φ (List.zipWith (· ^^^ ·) c d) = wordPoly φ c + wordPoly φ d := by
  induction c generalizing d with
  | nil => simp [wordPoly, List.length_eq_zero_iff.mp h.symm]
  | cons a c ih =>
    rcases d with - | ⟨b, d⟩
    · cases h
    · have hlen : c.length = d.length := Nat.succ.inj h
      simp only [List.zipWith_cons_cons, wordPoly, ih hlen, hφ.map_xor, map_add, List.length_zipWith, hlen, min_self]
      ring

theorem wordPoly_map_gmul (hφ : IsFieldEmbedding φ) (k : Byte) (c : List Byte) :
    wordPoly φ (c.map (fun b => gmul b k)) = C (φ k) * wordPoly φ c := by
  induction c with
  | nil => simp [wordPoly]
  | cons b c ih =>
    rw [List.map_cons, wordPoly, ih, wordPoly, hφ.map_gmul, map_mul, List.length_map]
    ring

/-- Horner's rule is the value of the polynomial (R174). -/
theorem eval_wordPoly (hφ : IsFieldEmbedding φ) (c : List Byte) (x : Byte) :
    (wordPoly φ c).eval (φ x) = φ (polyEval c x) := by
  induction c using List.reverseRecOn with
  | nil => simp [wordPoly, hφ.map_zero]
  | append_singleton c b ih =>
    simp [wordPoly_append, wordPoly_singleton, polyEval_snoc, ih, hφ.map_xor, hφ.map_gmul]

theorem zipWith_xor_eq_zero {c d : List Byte} (h : c.length = d.length)
    (hzero : List.zipWith (· ^^^ ·) c d = List.replicate c.length 0#8) : c = d := by
  induction c generalizing d with
  | nil => exact (List.length_eq_zero_iff.mp h.symm).symm
  | cons a c ih =>
    rcases d with - | ⟨b, d⟩
    · cases h
    · simp only [List.zipWith_cons_cons, List.length_cons, List.replicate_succ, List.cons.injEq,
        BitVec.xor_eq_zero_iff] at hzero
      rw [hzero.1, ih (Nat.succ.inj h) hzero.2]

theorem wordPoly_injective (hφ : IsFieldEmbedding φ) {c d : List Byte} (h : c.length = d.length)
    (heq : wordPoly φ c = wordPoly φ d) : c = d := by
  have := hφ.charP
  refine zipWith_xor_eq_zero h ?_
  have hzero := (wordPoly_eq_zero_iff hφ (List.zipWith (· ^^^ ·) c d)).mp
    (by rw [wordPoly_zipWith_xor hφ h, heq, CharTwo.add_self_eq_zero])
  rwa [List.length_zipWith, ← h, min_self] at hzero

/-! ### The generator polynomial (R172) -/

theorem wordPoly_polyMulRoot (hφ : IsFieldEmbedding φ) (g : List Byte) (a : Byte) :
    wordPoly φ (polyMulRoot g a) = wordPoly φ g * (X - C (φ a)) := by
  have := hφ.charP
  have hshift : wordPoly φ (g ++ [0]) = wordPoly φ g * X := by
    simp [wordPoly_append, wordPoly_singleton, hφ.map_zero]
  have hscale : wordPoly φ (0 :: g.map (fun k => gmul k a)) = C (φ a) * wordPoly φ g := by
    simp [wordPoly, wordPoly_map_gmul hφ, hφ.map_zero]
  rw [polyMulRoot, wordPoly_zipWith_xor hφ (by simp), hshift, hscale, CharTwo.sub_eq_add]
  ring

theorem wordPoly_genPoly (hφ : IsFieldEmbedding φ) (P : Nat) :
    wordPoly φ (genPoly P) = ∏ j ∈ Finset.range P, (X - C (φ alpha ^ j)) := by
  induction P with
  | zero => simp [genPoly, wordPoly, hφ.map_one]
  | succ P ih => rw [genPoly, wordPoly_polyMulRoot hφ, ih, Finset.prod_range_succ, hφ.map_gpow]

/-- The generator polynomial is monic: its first byte is 1 (R172). -/
theorem genPoly_eq_cons (P : Nat) : ∃ g, genPoly P = 1#8 :: g ∧ g.length = P := by
  have hhead : ∃ g, genPoly P = 1#8 :: g := by
    induction P with
    | zero => exact ⟨[], rfl⟩
    | succ P ih =>
      obtain ⟨g, hg⟩ := ih
      exact ⟨_, by rw [genPoly, polyMulRoot, hg]; rfl⟩
  obtain ⟨g, hg⟩ := hhead
  exact ⟨g, hg, by simpa [hg] using genPoly_length P⟩

theorem degree_wordPoly_genPoly (hφ : IsFieldEmbedding φ) (P : Nat) : (wordPoly φ (genPoly P)).degree = P := by
  obtain ⟨g, hg, rfl⟩ := genPoly_eq_cons P
  rw [hg, wordPoly, hφ.map_one, map_one, one_mul, degree_add_eq_left_of_degree_lt, degree_X_pow]
  rw [degree_X_pow]
  exact degree_wordPoly_lt φ g

/-- Two words of `P` bytes that are congruent modulo the generator polynomial are equal. -/
theorem eq_of_genPoly_dvd_add (hφ : IsFieldEmbedding φ) {P : Nat} {c d : List Byte} (hc : c.length = P)
    (hd : d.length = P) (h : wordPoly φ (genPoly P) ∣ wordPoly φ c + wordPoly φ d) : c = d := by
  have := hφ.charP
  refine wordPoly_injective hφ (hc.trans hd.symm) (CharTwo.add_eq_zero.mp (eq_zero_of_dvd_of_degree_lt h ?_))
  rw [degree_wordPoly_genPoly hφ]
  exact (degree_add_le _ _).trans_lt (max_lt (hc ▸ degree_wordPoly_lt φ c) (hd ▸ degree_wordPoly_lt φ d))

/-! ### Division and parity (R173) -/

/-- One step of the division: shift, take `next` in, and cancel `fb` with a multiple of the generator polynomial. -/
theorem wordPoly_divStep (hφ : IsFieldEmbedding φ) (a : Byte) (rem : List Byte) (fb next : Byte) :
    wordPoly φ (divStep (genPoly (rem.length + 1)) (a :: rem) fb next) =
      wordPoly φ rem * X + C (φ next) + C (φ fb) * (wordPoly φ (genPoly (rem.length + 1)) + X ^ (rem.length + 1)) := by
  have := hφ.charP
  obtain ⟨g, hg, hlen⟩ := genPoly_eq_cons (rem.length + 1)
  have htail : wordPoly φ (genPoly (rem.length + 1)) + X ^ (rem.length + 1) = wordPoly φ g := by
    rw [hg, wordPoly, hφ.map_one, map_one, one_mul, hlen, add_right_comm, CharTwo.add_self_eq_zero, zero_add]
  have hstep : divStep (genPoly (rem.length + 1)) (a :: rem) fb next =
      List.zipWith (· ^^^ ·) (rem ++ [next]) (g.map (fun k => gmul k fb)) := by
    rw [List.zipWith_map_right, hg]
    rfl
  rw [htail, hstep, wordPoly_zipWith_xor hφ (by simp [hlen]), wordPoly_map_gmul hφ, wordPoly_append, wordPoly_singleton,
    List.length_singleton, pow_one]

/-- Modulo the generator polynomial, a step shifts the remainder `rem` and adds `m x^P` and `next`. -/
theorem genPoly_dvd_divStep (hφ : IsFieldEmbedding φ) {P : Nat} {rem : List Byte} (hrem : rem.length = P)
    (m next : Byte) :
    wordPoly φ (genPoly P) ∣ wordPoly φ rem * X + C (φ m) * X ^ P + C (φ next) +
      wordPoly φ (divStep (genPoly P) rem (m ^^^ rem.headD 0) next) := by
  have := hφ.charP
  subst hrem
  rcases rem with - | ⟨a, rem⟩
  · simp [genPoly, wordPoly, hφ.map_one]
  · refine ⟨C (φ (m ^^^ a)), ?_⟩
    rw [List.length_cons, List.headD_cons, wordPoly_divStep hφ, wordPoly, hφ.map_xor, map_add]
    linear_combination (C (φ m) + C (φ a)) * CharTwo.add_self_eq_zero (X ^ (rem.length + 1) : F[X]) +
      CharTwo.add_self_eq_zero (wordPoly φ rem * X + C (φ next))

theorem polyRem_snoc (c : List Byte) (b : Byte) (P : Nat) :
    polyRem (c ++ [b]) P = divStep (genPoly P) (polyRem c P) ((polyRem c P).headD 0) b := by
  simp [polyRem]

theorem rsEncode_snoc (msg : List Byte) (m : Byte) (P : Nat) :
    rsEncode (msg ++ [m]) P = divStep (genPoly P) (rsEncode msg P) (m ^^^ (rsEncode msg P).headD 0) 0 := by
  simp [rsEncode]

@[simp] theorem rsEncode_length (msg : List Byte) (P : Nat) : (rsEncode msg P).length = P := by
  induction msg using List.reverseRecOn with
  | nil => simp [rsEncode]
  | append_singleton msg m ih => rw [rsEncode_snoc, divStep_genPoly_length P _ _ _ ih]

/-- A word is congruent to its remainder (R173). -/
theorem genPoly_dvd_add_polyRem (hφ : IsFieldEmbedding φ) (c : List Byte) (P : Nat) :
    wordPoly φ (genPoly P) ∣ wordPoly φ c + wordPoly φ (polyRem c P) := by
  have := hφ.charP
  induction c using List.reverseRecOn with
  | nil => simp [polyRem, wordPoly, wordPoly_replicate_zero hφ]
  | append_singleton c b ih =>
    have hstep := genPoly_dvd_divStep hφ (polyRem_length c P) 0#8 b
    rw [BitVec.zero_xor, ← polyRem_snoc, hφ.map_zero, map_zero, zero_mul, add_zero] at hstep
    convert (ih.mul_right X).add hstep using 1
    rw [wordPoly_append, wordPoly_singleton, List.length_singleton, pow_one]
    linear_combination -CharTwo.add_self_eq_zero (wordPoly φ (polyRem c P) * X)

/-- The shift register holds a word congruent to `m(x) x^P` (R173). -/
theorem genPoly_dvd_add_rsEncode (hφ : IsFieldEmbedding φ) (msg : List Byte) (P : Nat) :
    wordPoly φ (genPoly P) ∣ wordPoly φ msg * X ^ P + wordPoly φ (rsEncode msg P) := by
  have := hφ.charP
  induction msg using List.reverseRecOn with
  | nil => simp [rsEncode, wordPoly, wordPoly_replicate_zero hφ]
  | append_singleton msg m ih =>
    have hstep := genPoly_dvd_divStep hφ (rsEncode_length msg P) m 0#8
    rw [hφ.map_zero, map_zero, add_zero] at hstep
    convert (ih.mul_right X).add hstep using 1
    rw [rsEncode_snoc, wordPoly_append, wordPoly_singleton, List.length_singleton, pow_one, BitVec.ofNat_eq_ofNat]
    linear_combination -CharTwo.add_self_eq_zero (wordPoly φ (rsEncode msg P) * X)

theorem isCodeword_iff_polyRem (c : List Byte) (P : Nat) :
    isCodeword c P = true ↔ polyRem c P = List.replicate P 0#8 := by
  rw [List.eq_replicate_iff]
  simp [isCodeword]

/-- A codeword is a word that the generator polynomial divides (R173). -/
theorem isCodeword_iff_dvd (hφ : IsFieldEmbedding φ) (c : List Byte) (P : Nat) :
    isCodeword c P = true ↔ wordPoly φ (genPoly P) ∣ wordPoly φ c := by
  have hrem := genPoly_dvd_add_polyRem hφ c P
  rw [isCodeword_iff_polyRem]
  constructor
  · intro h
    rwa [h, wordPoly_replicate_zero hφ, add_zero] at hrem
  · intro h
    refine eq_of_genPoly_dvd_add hφ (P := P) (by simp) (by simp) ?_
    rw [wordPoly_replicate_zero hφ, add_zero]
    exact (dvd_add_right h).mp hrem

/-- Settles O41: the parity and the remainder of `m(x) x^P` are both congruent to it, and as long as `P` bytes. -/
theorem parityMakesACodeword : Obligations.ParityMakesACodeword := by
  intro msg P
  obtain ⟨F, _, φ, hφ⟩ := exists_isFieldEmbedding
  have := hφ.charP
  have hpar := genPoly_dvd_add_rsEncode hφ msg P
  refine ⟨rsEncode_length msg P, eq_of_genPoly_dvd_add hφ (P := P) (by simp) (by simp) ?_, ?_⟩
  · have hrem := genPoly_dvd_add_polyRem hφ (msg ++ List.replicate P 0) P
    rw [wordPoly_append, List.length_replicate, BitVec.ofNat_eq_ofNat, wordPoly_replicate_zero hφ, add_zero] at hrem
    have hsum := hpar.add hrem
    rwa [add_add_add_comm, CharTwo.add_self_eq_zero, zero_add] at hsum
  · rw [isCodeword_iff_dvd hφ, wordPoly_append, rsEncode_length]
    exact hpar

/-! ### The roots (R172) -/

theorem alpha_pow_injOn (hφ : IsFieldEmbedding φ) : Set.InjOn (fun k : Nat => φ alpha ^ k) (Set.Iio 255) :=
  hφ.orderOf_alpha ▸ pow_injOn_Iio_orderOf

theorem root_dvd_genPoly (hφ : IsFieldEmbedding φ) {P j : Nat} (hj : j < P) :
    X - C (φ alpha ^ j) ∣ wordPoly φ (genPoly P) := by
  rw [wordPoly_genPoly hφ]
  exact Finset.dvd_prod_of_mem (fun j => X - C (φ alpha ^ j)) (Finset.mem_range.mpr hj)

/-- The generator polynomial divides what each of its factors divides, the roots being different (R172). -/
theorem genPoly_dvd_of_roots (hφ : IsFieldEmbedding φ) {P : Nat} (hP : P ≤ 255) {p : F[X]}
    (h : ∀ j, j < P → p.eval (φ alpha ^ j) = 0) : wordPoly φ (genPoly P) ∣ p := by
  rw [wordPoly_genPoly hφ]
  refine Finset.prod_dvd_of_coprime (fun i hi j hj hne => ?_)
    fun j hj => dvd_iff_isRoot.mpr (h j (Finset.mem_range.mp hj))
  rw [Finset.coe_range, Set.mem_Iio] at hi hj
  refine isCoprime_X_sub_C_of_isUnit_sub (IsUnit.mk0 _ (sub_ne_zero.mpr fun heq => hne ?_))
  exact alpha_pow_injOn hφ (hi.trans_le hP) (hj.trans_le hP) heq

/-- A codeword vanishes at the roots, whatever `P` (R172). -/
theorem polyEval_of_isCodeword {c : List Byte} {P j : Nat} (h : isCodeword c P = true) (hj : j < P) :
    polyEval c (gpow alpha j) = 0#8 := by
  obtain ⟨F, _, φ, hφ⟩ := exists_isFieldEmbedding
  rw [← hφ.map_eq_zero, ← eval_wordPoly hφ, hφ.map_gpow]
  exact dvd_iff_isRoot.mp ((root_dvd_genPoly hφ hj).trans ((isCodeword_iff_dvd hφ c P).mp h))

/-- Settles O42: divisibility by the generator polynomial is vanishing at its different roots. -/
theorem codewordsVanishAtTheRoots : Obligations.CodewordsVanishAtTheRoots := by
  intro c P hP
  obtain ⟨F, _, φ, hφ⟩ := exists_isFieldEmbedding
  refine ⟨fun h j hj => polyEval_of_isCodeword h hj, fun h => ?_⟩
  refine (isCodeword_iff_dvd hφ c P).mpr (genPoly_dvd_of_roots hφ hP fun j hj => ?_)
  rw [← hφ.map_gpow, eval_wordPoly hφ, h j hj]
  exact hφ.map_zero

end Sys2Proof.Machine
end

section
/-! SUPPORT. The field's inverses, the header parity and the Packet of a chunk (spec/42_fec.md R170, R171, R180, R181,
R183). -/

namespace Sys2Proof.Machine

/-- Settles O40: the inverse is the 254th power, and 255 is the order of α in the field. -/
theorem fieldInverses : Obligations.FieldInverses := by
  obtain ⟨F, _, φ, hφ⟩ := exists_isFieldEmbedding
  refine ⟨fun a ha => gmul_ginv ha, (hφ.gpow_alpha_eq_one_iff 255).mpr dvd_rfl, fun k hpos hlt h => ?_⟩
  exact Nat.not_dvd_of_pos_of_lt hpos hlt ((hφ.gpow_alpha_eq_one_iff k).mp h)

/-- Settles O45: the count's two bytes are what is encoded, and the rows are computed. -/
theorem headerParityTable : Obligations.HeaderParityTable :=
  ⟨fun _ => rfl, by decide +kernel, by decide +kernel, by decide +kernel, by decide +kernel, by decide +kernel,
    by decide +kernel⟩

/-! ### Packets (R180 to R182) -/

theorem parityLength_eq (L : Nat) : parityLength L = 3 * L / 2 := by
  rw [parityLength]; omega

/-- The size of a chunk fills only the low byte of its field (R87). -/
theorem bytesBE_ofNat_of_lt {L : Nat} (h : L < 256) : bytesBE (BitVec.ofNat 16 L) = [0#8, BitVec.ofNat 8 L] := by
  have hhi : hiByte (BitVec.ofNat 16 L) = 0#8 := by
    apply BitVec.eq_of_toNat_eq
    simp [hiByte, Nat.shiftRight_eq_div_pow]
    omega
  have hlo : loByte (BitVec.ofNat 16 L) = BitVec.ofNat 8 L := by
    apply BitVec.eq_of_toNat_eq
    simp [loByte]
  rw [bytesBE, hhi, hlo]

/-- Settles O33: the size and the parity length fit their fields, the chunk being short. -/
theorem newPacketFields : Obligations.NewPacketFields := by
  intro chunk id hlen
  have hheader : packetHeader (newPacket chunk id) = [0x00, BitVec.ofNat 8 chunk.length, id.extractLsb' 8 8,
      id.extractLsb' 0 8, BitVec.ofNat 8 (3 * chunk.length / 2)] := by
    rw [← parityLength_eq]
    simp only [packetHeader, newPacket, bytesBE_ofNat_of_lt (show chunk.length < 256 by omega)]
    rfl
  refine ⟨?_, rfl, ?_, rfl, hheader, ?_⟩
  · exact (BitVec.toNat_ofNat ..).trans (Nat.mod_eq_of_lt (by omega))
  · rw [← parityLength_eq]
    exact (BitVec.toNat_ofNat ..).trans (Nat.mod_eq_of_lt (by rw [parityLength]; omega))
  · rw [← parityLength_eq]
    rfl

end Sys2Proof.Machine
end

section
/-! SUPPORT. The linear algebra of the decoder: `kernelVector` finds a nonzero vector orthogonal to every row exactly
when there is one (spec/42_fec.md R175, R187). -/

namespace Sys2Proof.Machine

variable {F : Type} [Field F] {φ : Byte → F}

/-! ### Inner products -/

@[simp] theorem dot_nil_left (v : List Byte) : dot [] v = 0#8 := rfl

@[simp] theorem dot_nil_right (u : List Byte) : dot u [] = 0#8 := by simp [dot]

theorem dot_cons (a b : Byte) (u v : List Byte) : dot (a :: u) (b :: v) = gmul a b ^^^ dot u v := by
  rw [dot, dot, List.zipWith_cons_cons, List.foldl_cons, BitVec.xor_comm, List.foldl_assoc]

theorem dot_append {u v u' v' : List Byte} (h : u.length = v.length) :
    dot (u ++ u') (v ++ v') = dot u v ^^^ dot u' v' := by
  induction u generalizing v with
  | nil => simp [List.length_eq_zero_iff.mp h.symm]
  | cons a u ih =>
    rcases v with - | ⟨b, v⟩
    · cases h
    · simp only [List.cons_append, dot_cons, ih (Nat.succ.inj h), BitVec.xor_assoc]

/-- The bytes of a vector in the field, and 0 behind its end. -/
def coords (φ : Byte → F) (v : List Byte) : Nat → F := fun i => φ (v.getD i 0#8)

theorem map_dot (hφ : IsFieldEmbedding φ) (u v : List Byte) :
    φ (dot u v) = ∑ i ∈ Finset.range u.length, coords φ u i * coords φ v i := by
  induction u generalizing v with
  | nil => simp [hφ.map_zero]
  | cons a u ih =>
    rcases v with - | ⟨b, v⟩
    · simp [coords, hφ.map_zero]
    · rw [dot_cons, hφ.map_xor, hφ.map_gmul, ih, List.length_cons, Finset.sum_range_succ', add_comm]
      rfl

/-- The inner product with `u`, as a linear form. -/
def rowForm (φ : Byte → F) (u : List Byte) : (Nat → F) →ₗ[F] F :=
  ∑ i ∈ Finset.range u.length, coords φ u i • LinearMap.proj i

theorem rowForm_coords (hφ : IsFieldEmbedding φ) (u v : List Byte) : rowForm φ u (coords φ v) = φ (dot u v) := by
  simp [rowForm, map_dot hφ]

theorem coords_eq_zero_iff (hφ : IsFieldEmbedding φ) (v : List Byte) : coords φ v = 0 ↔ ∀ b ∈ v, b = 0#8 := by
  simp only [funext_iff, coords, Pi.zero_apply, hφ.map_eq_zero]
  refine ⟨fun h b hb => ?_, fun h i => ?_⟩
  · obtain ⟨i, hi, rfl⟩ := List.getElem_of_mem hb
    rw [← h i, List.getD_eq_getElem _ _ hi]
  · by_cases hi : i < v.length
    · rw [List.getD_eq_getElem _ _ hi]
      exact h _ (List.getElem_mem hi)
    · rw [List.getD_eq_default _ _ (Nat.le_of_not_lt hi)]

/-! ### The kernel -/

/-- `basis` holds vectors of length `m` orthogonal to the rows, and they span all of those. -/
structure IsKernelBasis (φ : Byte → F) (m : Nat) (rows basis : List (List Byte)) : Prop where
  length_eq : ∀ b ∈ basis, b.length = m
  dot_eq : ∀ b ∈ basis, ∀ row ∈ rows, dot row b = 0#8
  spans : ∀ v : List Byte, v.length = m → (∀ row ∈ rows, dot row v = 0#8) →
    coords φ v ∈ Submodule.span F (coords φ '' {b | b ∈ basis})

theorem coords_unitVector (hφ : IsFieldEmbedding φ) {m i : Nat} (hi : i < m) :
    coords φ ((List.range m).map (fun j => if i = j then 1 else 0)) = Pi.single i 1 := by
  ext k
  by_cases hk : k < m
  · by_cases hik : i = k
    · simp [coords, hk, hik, hφ.map_one]
    · simp [coords, hk, hik, hφ.map_zero, Ne.symm hik]
  · have hne : k ≠ i := by omega
    simp [coords, hk, hφ.map_zero, hne]

theorem isKernelBasis_unitVectors (hφ : IsFieldEmbedding φ) (m : Nat) : IsKernelBasis φ m [] (unitVectors m) where
  length_eq b hb := by
    obtain ⟨i, -, rfl⟩ := List.mem_map.mp hb
    simp
  dot_eq := by simp
  spans v hv _ := by
    have hsum : coords φ v = ∑ i ∈ Finset.range m, coords φ v i • Pi.single i (1 : F) := by
      ext k
      by_cases hk : k < m
      · simp [Pi.single_apply, hk]
      · simp [Pi.single_apply, hk, coords, hv, hφ.map_zero]
    rw [hsum]
    refine Submodule.sum_mem _ fun i hi => Submodule.smul_mem _ _ (Submodule.subset_span ?_)
    rw [Finset.mem_range] at hi
    exact ⟨_, List.mem_map_of_mem (List.mem_range.mpr hi), coords_unitVector hφ hi⟩

/-- The vector `b` less the multiple of `p` that makes it orthogonal to `row`. -/
def reduceVector (row p b : List Byte) : List Byte :=
  List.zipWith (fun x y => x ^^^ gmul (gmul (dot row b) (ginv (dot row p))) y) b p

theorem restrictTo_cases (basis : List (List Byte)) (row : List Byte) :
    ((∀ b ∈ basis, dot row b = 0#8) ∧ restrictTo basis row = basis) ∨
    ∃ p ∈ basis, dot row p ≠ 0#8 ∧ restrictTo basis row = basis.map (reduceVector row p) := by
  rw [restrictTo]
  split
  next hnone => exact .inl ⟨by simpa using hnone, rfl⟩
  next p hsome => exact .inr ⟨p, List.mem_of_find?_eq_some hsome, by simpa using List.find?_some hsome, rfl⟩

/-- `reduceVector` on coordinates, as a linear map. -/
def reduceMap (φ : Byte → F) (row p : List Byte) : (Nat → F) →ₗ[F] (Nat → F) :=
  LinearMap.id - (rowForm φ row).smulRight ((φ (dot row p))⁻¹ • coords φ p)

theorem reduceMap_apply (φ : Byte → F) (row p : List Byte) (w : Nat → F) :
    reduceMap φ row p w = w - (rowForm φ row w * (φ (dot row p))⁻¹) • coords φ p := by
  simp [reduceMap, mul_smul]

theorem coords_reduceVector (hφ : IsFieldEmbedding φ) (row : List Byte) {b p : List Byte} (h : b.length = p.length) :
    coords φ (reduceVector row p b) = reduceMap φ row p (coords φ b) := by
  have := hφ.charP
  rw [reduceMap_apply, rowForm_coords hφ, CharTwo.sub_eq_add]
  ext i
  by_cases hi : i < b.length
  · have hip : i < p.length := h ▸ hi
    simp [reduceVector, coords, hi, hip, hφ.map_xor, hφ.map_gmul, hφ.map_ginv]
  · have hip : ¬ i < p.length := h ▸ hi
    simp [reduceVector, coords, hi, hip, hφ.map_zero]

/-- The inner product of any row with a reduced vector. -/
theorem map_dot_reduceVector (hφ : IsFieldEmbedding φ) (r row : List Byte) {b p : List Byte} (h : b.length = p.length) :
    φ (dot r (reduceVector row p b)) =
      φ (dot r b) - φ (dot row b) * (φ (dot row p))⁻¹ * φ (dot r p) := by
  rw [← rowForm_coords hφ, coords_reduceVector hφ row h, reduceMap_apply, map_sub, map_smul, smul_eq_mul,
    rowForm_coords hφ, rowForm_coords hφ, rowForm_coords hφ]

theorem IsKernelBasis.restrictTo (hφ : IsFieldEmbedding φ) {m : Nat} {rows basis : List (List Byte)}
    (h : IsKernelBasis φ m rows basis) (row : List Byte) :
    IsKernelBasis φ m (rows ++ [row]) (restrictTo basis row) := by
  obtain ⟨hlength, hdot, hspans⟩ := h
  rcases restrictTo_cases basis row with ⟨horth, e⟩ | ⟨p, hp, hpivot, e⟩ <;> rw [e]
  · refine ⟨hlength, fun b hb => ?_, fun v hv hrows => hspans v hv fun r hr => hrows r (List.mem_append_left _ hr)⟩
    exact List.forall_mem_append.mpr ⟨hdot b hb, List.forall_mem_singleton.mpr (horth b hb)⟩
  · have hlen : ∀ b ∈ basis, b.length = p.length := fun b hb => (hlength b hb).trans (hlength p hp).symm
    refine ⟨List.forall_mem_map.mpr fun b hb => ?_, List.forall_mem_map.mpr fun b hb r hr => ?_, fun v hv hrows => ?_⟩
    · simp [reduceVector, hlength b hb, hlength p hp]
    · rw [← hφ.map_eq_zero, map_dot_reduceVector hφ r row (hlen b hb)]
      rcases List.mem_append.mp hr with hr | hr
      · rw [hdot b hb r hr, hdot p hp r hr, hφ.map_zero, mul_zero, sub_zero]
      · rw [List.mem_singleton.mp hr, inv_mul_cancel_right₀ (mt hφ.map_eq_zero.mp hpivot), sub_self]
    · rw [List.forall_mem_append, List.forall_mem_singleton] at hrows
      obtain ⟨hrows, hrow⟩ := hrows
      have hfixed : reduceMap φ row p (coords φ v) = coords φ v := by
        rw [reduceMap_apply, rowForm_coords hφ, hrow, hφ.map_zero, zero_mul, zero_smul, sub_zero]
      have hmem := Submodule.mem_map_of_mem (f := reduceMap φ row p) (hspans v hv hrows)
      rw [hfixed, Submodule.map_span] at hmem
      refine Submodule.span_mono ?_ hmem
      rintro _ ⟨_, ⟨b, hb, rfl⟩, rfl⟩
      exact ⟨_, List.mem_map_of_mem hb, coords_reduceVector hφ row (hlen b hb)⟩

theorem isKernelBasis_foldl (hφ : IsFieldEmbedding φ) (m : Nat) (rows : List (List Byte)) :
    IsKernelBasis φ m rows (rows.foldl restrictTo (unitVectors m)) := by
  induction rows using List.reverseRecOn with
  | nil => exact isKernelBasis_unitVectors hφ m
  | append_singleton rows row ih =>
    rw [List.foldl_append]
    exact ih.restrictTo hφ row

/-- What `kernelVector` answers: a nonzero vector orthogonal to every row. -/
theorem kernelVector_sound {rows : List (List Byte)} {m : Nat} {v : List Byte} (h : kernelVector rows m = some v) :
    v.length = m ∧ (∀ row ∈ rows, dot row v = 0#8) ∧ ∃ b ∈ v, b ≠ 0#8 := by
  obtain ⟨F, _, φ, hφ⟩ := exists_isFieldEmbedding
  have hbasis := isKernelBasis_foldl hφ m rows
  have hmem := List.mem_of_find?_eq_some h
  exact ⟨hbasis.length_eq v hmem, hbasis.dot_eq v hmem, by simpa using List.find?_some h⟩

/-- `kernelVector` answers one whenever there is one. -/
theorem kernelVector_complete {rows : List (List Byte)} {m : Nat} {v : List Byte} (hlen : v.length = m)
    (hrows : ∀ row ∈ rows, dot row v = 0#8) (hne : ∃ b ∈ v, b ≠ 0#8) : ∃ w, kernelVector rows m = some w := by
  obtain ⟨F, _, φ, hφ⟩ := exists_isFieldEmbedding
  by_contra! hnone
  have hzero : ∀ b ∈ rows.foldl restrictTo (unitVectors m), coords φ b = 0 := by
    simpa [kernelVector, coords_eq_zero_iff hφ] using Option.eq_none_iff_forall_ne_some.mpr hnone
  have hspan := (isKernelBasis_foldl hφ m rows).spans v hlen hrows
  have hbot : Submodule.span F (coords φ '' {b | b ∈ rows.foldl restrictTo (unitVectors m)}) = ⊥ :=
    Submodule.span_eq_bot.mpr (by rintro _ ⟨b, hb, rfl⟩; exact hzero b hb)
  rw [hbot, Submodule.mem_bot, coords_eq_zero_iff hφ] at hspan
  obtain ⟨b, hb, hb0⟩ := hne
  exact hb0 (hspan b hb)

end Sys2Proof.Machine
end

section
/-! SUPPORT. Bounded-distance decoding: the error locator and the error values that the search of `errorWord` finds are
those of every error word within the radius, and the statements on it (spec/42_fec.md R175, R176, R186). -/

namespace Sys2Proof.Machine

open Polynomial

variable {F : Type} [Field F] {φ : Byte → F}

/-! ### Locators and syndromes -/

theorem posLocator_injOn (hφ : IsFieldEmbedding φ) {n : Nat} (hn : n ≤ 255) :
    Set.InjOn (fun i => φ (posLocator n i)) (Set.Iio n) := by
  intro i hi j hj h
  rw [Set.mem_Iio] at hi hj
  simp only [posLocator, hφ.map_gpow] at h
  have := alpha_pow_injOn hφ (show n - 1 - i < 255 by omega) (show n - 1 - j < 255 by omega) h
  omega

theorem eval_wordPoly_eq_sum (φ : Byte → F) (c : List Byte) (y : F) :
    (wordPoly φ c).eval y = ∑ i ∈ Finset.range c.length, coords φ c i * y ^ (c.length - 1 - i) := by
  induction c with
  | nil => simp [wordPoly]
  | cons b c ih =>
    rw [List.length_cons, Finset.sum_range_succ', wordPoly, eval_add, ih, add_comm]
    simp [coords, Nat.sub_sub, Nat.add_comm 1]

/-- The syndromes are the power sums of the locators, weighted by the bytes of the word. -/
theorem coords_syndromes (hφ : IsFieldEmbedding φ) (e : List Byte) {P j : Nat} (hj : j < P) :
    coords φ (syndromes e P) j =
      ∑ i ∈ Finset.range e.length, coords φ e i * φ (posLocator e.length i) ^ j := by
  have hval : coords φ (syndromes e P) j = φ (polyEval e (gpow alpha j)) := by simp [coords, syndromes, hj]
  rw [hval, ← eval_wordPoly hφ, eval_wordPoly_eq_sum]
  refine Finset.sum_congr rfl fun i _ => ?_
  rw [posLocator, hφ.map_gpow, hφ.map_gpow, pow_right_comm]

/-- Vandermonde: at different points, weights with as many vanishing power sums as points are 0. -/
theorem eq_zero_of_power_sums {s : Finset Nat} {x a : Nat → F} {K : Nat} (hx : Set.InjOn x s) (hK : s.card ≤ K)
    (h : ∀ k, k < K → ∑ i ∈ s, a i * x i ^ k = 0) : ∀ i ∈ s, a i = 0 := by
  have hpoly : ∀ p : F[X], p.natDegree < K → ∑ i ∈ s, a i * p.eval (x i) = 0 := fun p hp => by
    simp only [eval_eq_sum_range' hp, Finset.mul_sum]
    rw [Finset.sum_comm]
    refine Finset.sum_eq_zero fun k hk => ?_
    have := congrArg (p.coeff k * ·) (h k (Finset.mem_range.mp hk))
    simpa [Finset.mul_sum, mul_left_comm] using this
  intro i hi
  have hcard : 0 < s.card := Finset.card_pos.mpr ⟨i, hi⟩
  have hsum := hpoly (Lagrange.basis s x i) (by
    rw [natDegree_eq_of_degree_eq_some (Lagrange.degree_basis hx hi)]
    omega)
  rwa [Finset.sum_eq_single i, Lagrange.eval_basis_self hx hi, mul_one] at hsum
  · intro j hj hne
    rw [Lagrange.eval_basis_of_ne hne.symm hj, mul_zero]
  · exact fun h => absurd hi h

/-! ### The error positions -/

/-- The positions of the nonzero bytes of a word. -/
def support (e : List Byte) : Finset Nat := (Finset.range e.length).filter fun i => e.getD i 0#8 ≠ 0#8

theorem getD_eq_zero_of_notMem_support {e : List Byte} {i : Nat} (h : i ∉ support e) : e.getD i 0#8 = 0#8 := by
  by_cases hi : i < e.length
  · by_contra hne
    exact h (Finset.mem_filter.mpr ⟨Finset.mem_range.mpr hi, hne⟩)
  · exact List.getD_eq_default _ _ (Nat.le_of_not_lt hi)

theorem coords_eq_zero_of_notMem_support (hφ : IsFieldEmbedding φ) {e : List Byte} {i : Nat} (h : i ∉ support e) :
    coords φ e i = 0 := by
  rw [coords, getD_eq_zero_of_notMem_support h, hφ.map_zero]

theorem lt_length_of_mem_support {e : List Byte} {i : Nat} (h : i ∈ support e) : i < e.length :=
  Finset.mem_range.mp (Finset.mem_filter.mp h).1

theorem coords_ne_zero_of_mem_support (hφ : IsFieldEmbedding φ) {e : List Byte} {i : Nat} (h : i ∈ support e) :
    coords φ e i ≠ 0 := by
  rw [coords, Ne, hφ.map_eq_zero]
  exact (Finset.mem_filter.mp h).2

/-- A sum weighted by the bytes of a word runs over any positions that hold its support. -/
theorem sum_coords_eq (hφ : IsFieldEmbedding φ) {e : List Byte} {s : Finset Nat} (hsupp : support e ⊆ s)
    (hs : s ⊆ Finset.range e.length) (f : Nat → F) :
    ∑ i ∈ Finset.range e.length, coords φ e i * f i = ∑ i ∈ s, coords φ e i * f i :=
  (Finset.sum_subset hs fun i _ hi => by
    rw [coords_eq_zero_of_notMem_support hφ fun hmem => hi (hsupp hmem), zero_mul]).symm

/-- The distance of two words is the number of nonzero bytes of their difference (R175). -/
theorem card_support_zipWith_xor {r c : List Byte} (h : c.length = r.length) :
    (support (List.zipWith (· ^^^ ·) r c)).card = hamming c r := by
  induction r generalizing c with
  | nil => simp [List.length_eq_zero_iff.mp h, support]
  | cons b r ih =>
    rcases c with - | ⟨a, c⟩
    · cases h
    · have hhead : (if b ^^^ a = 0#8 then 0 else 1) = if a = b then 0 else 1 := by
        simp only [BitVec.xor_eq_zero_iff, eq_comm (a := b)]
      rw [hamming_cons, ← ih (Nat.succ.inj h), support, support, Finset.card_filter, Finset.card_filter,
        List.zipWith_cons_cons, List.length_cons, Finset.sum_range_succ', add_comm, ← hhead]
      simp

/-! ### The error locator (R187) -/

theorem mem_locatorRows {S : List Byte} {t : Nat} {row : List Byte} :
    row ∈ locatorRows S t ↔ ∃ k, k < S.length - t ∧ row = ((S.drop k).take (t + 1)).reverse := by
  simp [locatorRows, eq_comm]

/-- A key equation says that a power sum vanishes, weighted by the error values and the values of the locator. -/
theorem map_dot_locatorRow (hφ : IsFieldEmbedding φ) (e : List Byte) {loc : List Byte} {P t k : Nat} (hk : k < P - t)
    (hloc : loc.length = t + 1) :
    φ (dot (((syndromes e P).drop k).take (t + 1)).reverse loc) =
      ∑ i ∈ Finset.range e.length, coords φ e i *
        ((wordPoly φ loc).eval (φ (posLocator e.length i)) * φ (posLocator e.length i) ^ k) := by
  have hlen : (((syndromes e P).drop k).take (t + 1)).length = t + 1 := by
    simp [syndromes]
    omega
  have hcoords : ∀ m ∈ Finset.range (t + 1), coords φ (((syndromes e P).drop k).take (t + 1)).reverse m =
      coords φ (syndromes e P) (k + (t - m)) := fun m hm => by
    have hm : m < t + 1 := Finset.mem_range.mp hm
    rw [coords, List.getD_reverse _ (by rw [hlen]; exact hm), hlen]
    simp [coords, List.getD_eq_getElem?_getD, show t - m < t + 1 by omega]
  rw [map_dot hφ, List.length_reverse, hlen]
  calc ∑ m ∈ Finset.range (t + 1), coords φ (((syndromes e P).drop k).take (t + 1)).reverse m * coords φ loc m
    _ = ∑ m ∈ Finset.range (t + 1), ∑ i ∈ Finset.range e.length,
          coords φ e i * φ (posLocator e.length i) ^ (k + (t - m)) * coords φ loc m := by
        refine Finset.sum_congr rfl fun m hm => ?_
        rw [hcoords m hm, coords_syndromes hφ e (by omega), Finset.sum_mul]
    _ = _ := by
        rw [Finset.sum_comm]
        refine Finset.sum_congr rfl fun i _ => ?_
        rw [eval_wordPoly_eq_sum, hloc, Finset.sum_mul, Finset.mul_sum]
        refine Finset.sum_congr rfl fun m _ => ?_
        rw [pow_add, Nat.add_sub_cancel]
        ring

/-- A word whose polynomial has the locators of given positions as its roots. -/
theorem exists_wordPoly_eq_prod (hφ : IsFieldEmbedding φ) (n : Nat) (s : Finset Nat) :
    ∃ g : List Byte, g.length = s.card + 1 ∧ wordPoly φ g = ∏ i ∈ s, (X - C (φ (posLocator n i))) := by
  induction s using Finset.induction_on with
  | empty => exact ⟨[1#8], rfl, by simp [wordPoly_singleton, hφ.map_one]⟩
  | insert i s hi ih =>
    obtain ⟨g, hlen, hg⟩ := ih
    refine ⟨polyMulRoot g (posLocator n i), ?_, ?_⟩
    · simp [polyMulRoot, hlen, hi]
    · rw [wordPoly_polyMulRoot hφ, hg, Finset.prod_insert hi, mul_comm]

/-- A locator within the radius solves the key equations. -/
theorem exists_locator (e : List Byte) {P : Nat} (ht : (support e).card ≤ P / 2) :
    ∃ loc, kernelVector (locatorRows (syndromes e P) (P / 2)) (P / 2 + 1) = some loc := by
  obtain ⟨F, _, φ, hφ⟩ := exists_isFieldEmbedding
  obtain ⟨g, hlen, hg⟩ := exists_wordPoly_eq_prod hφ e.length (support e)
  have hpoly : wordPoly φ (List.replicate (P / 2 - (support e).card) 0#8 ++ g) = wordPoly φ g := by
    rw [wordPoly_append, wordPoly_replicate_zero hφ, zero_mul, zero_add]
  have hlen' : (List.replicate (P / 2 - (support e).card) 0#8 ++ g).length = P / 2 + 1 := by
    rw [List.length_append, List.length_replicate, hlen]
    omega
  refine kernelVector_complete hlen' (fun row hrow => ?_) ?_
  · obtain ⟨k, hk, rfl⟩ := mem_locatorRows.mp hrow
    rw [← hφ.map_eq_zero, map_dot_locatorRow hφ e (by simpa [syndromes] using hk) hlen', hpoly, hg]
    refine Finset.sum_eq_zero fun i _ => ?_
    by_cases hi : i ∈ support e
    · rw [eval_prod, Finset.prod_eq_zero hi (by simp), zero_mul, mul_zero]
    · rw [coords_eq_zero_of_notMem_support hφ hi, zero_mul]
  · by_contra! hzero
    have : wordPoly φ g = 0 := by
      rw [← hpoly, wordPoly_eq_zero_iff hφ]
      exact List.eq_replicate_of_mem hzero
    rw [hg] at this
    exact (monic_prod_of_monic _ _ fun i _ => monic_X_sub_C _).ne_zero this

/-- The positions where a locator vanishes. -/
def rootPositions (loc : List Byte) (n : Nat) : List Nat :=
  (List.range n).filter fun i => polyEval loc (posLocator n i) == 0

theorem mem_rootPositions (hφ : IsFieldEmbedding φ) {loc : List Byte} {n i : Nat} :
    i ∈ rootPositions loc n ↔ i < n ∧ (wordPoly φ loc).eval (φ (posLocator n i)) = 0 := by
  rw [eval_wordPoly hφ, hφ.map_eq_zero]
  simp [rootPositions]

theorem rootPositions_nodup (loc : List Byte) (n : Nat) : (rootPositions loc n).Nodup := List.nodup_range.filter _

/-- A locator of `t + 1` bytes, not all 0, vanishes at no more than `t` positions. -/
theorem rootPositions_length_le {loc : List Byte} {n t : Nat} (hn : n ≤ 255) (hlen : loc.length = t + 1)
    (hne : ∃ b ∈ loc, b ≠ 0#8) : (rootPositions loc n).length ≤ t := by
  obtain ⟨F, _, φ, hφ⟩ := exists_isFieldEmbedding
  have hpoly : wordPoly φ loc ≠ 0 := fun h => by
    obtain ⟨b, hb, hb0⟩ := hne
    exact hb0 (List.eq_of_mem_replicate ((wordPoly_eq_zero_iff hφ loc).mp h ▸ hb))
  have hdeg : (wordPoly φ loc).natDegree < t + 1 :=
    (natDegree_lt_iff_degree_lt hpoly).mpr (hlen ▸ degree_wordPoly_lt φ loc)
  rw [← List.toFinset_card_of_nodup (rootPositions_nodup loc n)]
  by_contra! hcard
  classical
  refine hpoly (eq_zero_of_natDegree_lt_card_of_eval_eq_zero' _
    ((rootPositions loc n).toFinset.image fun i => φ (posLocator n i)) ?_ ?_)
  · simp only [Finset.mem_image, List.mem_toFinset, mem_rootPositions hφ]
    rintro _ ⟨i, ⟨-, hi⟩, rfl⟩
    exact hi
  · rw [Finset.card_image_of_injOn]
    · omega
    · refine (posLocator_injOn hφ hn).mono fun i hi => ?_
      exact ((mem_rootPositions hφ).mp (List.mem_toFinset.mp hi)).1

/-- Whatever solves the key equations vanishes at every error position. -/
theorem support_subset_rootPositions {e loc : List Byte} {P : Nat} (hn : e.length ≤ 255)
    (ht : (support e).card ≤ P / 2)
    (hloc : kernelVector (locatorRows (syndromes e P) (P / 2)) (P / 2 + 1) = some loc) :
    support e ⊆ (rootPositions loc e.length).toFinset := by
  obtain ⟨F, _, φ, hφ⟩ := exists_isFieldEmbedding
  obtain ⟨hlen, hrows, -⟩ := kernelVector_sound hloc
  have hx : Set.InjOn (fun i => φ (posLocator e.length i)) (support e) :=
    (posLocator_injOn hφ hn).mono fun i hi => lt_length_of_mem_support hi
  have hzero := eq_zero_of_power_sums (K := P - P / 2) hx (by omega)
    (a := fun i => coords φ e i * (wordPoly φ loc).eval (φ (posLocator e.length i))) fun k hk => by
      have hrow := hrows _ (mem_locatorRows.mpr ⟨k, by simpa [syndromes] using hk, rfl⟩)
      rw [← hφ.map_eq_zero, map_dot_locatorRow hφ e hk hlen,
        sum_coords_eq hφ subset_rfl (Finset.filter_subset _ _)] at hrow
      simpa only [mul_assoc] using hrow
  intro i hi
  rw [List.mem_toFinset, mem_rootPositions hφ]
  exact ⟨lt_length_of_mem_support hi, (mul_eq_zero.mp (hzero i hi)).resolve_left (coords_ne_zero_of_mem_support hφ hi)⟩

/-! ### The error values (R187) -/

theorem mem_valueRows {xs S row : List Byte} :
    row ∈ valueRows xs S ↔ ∃ j, j < xs.length ∧ row = xs.map (fun x => gpow x j) ++ [S.getD j 0] := by
  simp [valueRows, eq_comm]

theorem map_dot_map (hφ : IsFieldEmbedding φ) {ps : List Nat} (hnodup : ps.Nodup) (f g : Nat → Byte) :
    φ (dot (ps.map f) (ps.map g)) = ∑ i ∈ ps.toFinset, φ (f i) * φ (g i) := by
  rw [List.sum_toFinset _ hnodup]
  clear hnodup
  induction ps with
  | nil => exact hφ.map_zero
  | cons i ps ih =>
    rw [List.map_cons, List.map_cons, dot_cons, hφ.map_xor, hφ.map_gmul, ih, List.map_cons, List.sum_cons]

/-- `ps` lists positions of the word `e`, without repetition, among them every one with a nonzero byte. -/
structure CoversErrors (ps : List Nat) (e : List Byte) : Prop where
  nodup : ps.Nodup
  lt_length : ∀ i ∈ ps, i < e.length
  support_subset : support e ⊆ ps.toFinset

/-- The equation of the `j`-th syndrome, for values `W` at the positions and the factor `z` of the syndrome. -/
theorem map_dot_valueRow (hφ : IsFieldEmbedding φ) {ps : List Nat} {e : List Byte} (h : CoversErrors ps e)
    (W : Nat → Byte) (z : Byte) {P j : Nat} (hj : j < P) :
    φ (dot ((ps.map (posLocator e.length)).map (fun x => gpow x j) ++ [(syndromes e P).getD j 0]) (ps.map W ++ [z])) =
      ∑ i ∈ ps.toFinset, (φ (W i) + φ z * coords φ e i) * φ (posLocator e.length i) ^ j := by
  have hrange : ps.toFinset ⊆ Finset.range e.length := fun i hi =>
    Finset.mem_range.mpr (h.lt_length i (List.mem_toFinset.mp hi))
  have hsyn : φ ((syndromes e P).getD j 0) = ∑ i ∈ ps.toFinset, coords φ e i * φ (posLocator e.length i) ^ j :=
    (coords_syndromes hφ e hj).trans (sum_coords_eq hφ h.support_subset hrange _)
  rw [dot_append (by simp), hφ.map_xor, List.map_map, map_dot_map hφ h.nodup, dot_cons, dot_nil_left, BitVec.xor_zero,
    hφ.map_gmul, hsyn, Finset.sum_mul, ← Finset.sum_add_distrib]
  refine Finset.sum_congr rfl fun i _ => ?_
  rw [Function.comp_apply, hφ.map_gpow]
  ring

/-- The true error values solve the equations, with the factor 1. -/
theorem exists_values {ps : List Nat} {e : List Byte} (h : CoversErrors ps e) {P : Nat} (hP : ps.length ≤ P) :
    ∃ v, kernelVector (valueRows (ps.map (posLocator e.length)) (syndromes e P)) (ps.length + 1) = some v := by
  obtain ⟨F, _, φ, hφ⟩ := exists_isFieldEmbedding
  have := hφ.charP
  refine kernelVector_complete (v := ps.map (fun i => e.getD i 0#8) ++ [1#8]) (by simp) (fun row hrow => ?_)
    ⟨1#8, by simp, by decide⟩
  obtain ⟨j, hj, rfl⟩ := mem_valueRows.mp hrow
  rw [List.length_map] at hj
  rw [← hφ.map_eq_zero, map_dot_valueRow hφ h _ _ (by omega)]
  refine Finset.sum_eq_zero fun i _ => ?_
  rw [hφ.map_one, one_mul, coords, CharTwo.add_self_eq_zero, zero_mul]

/-- Whatever solves the equations for the values is the error values times the factor, by Vandermonde. -/
theorem values_eq_gmul {ps : List Nat} {e : List Byte} (h : CoversErrors ps e) (hn : e.length ≤ 255) {P : Nat}
    (hP : ps.length ≤ P) {W : Nat → Byte} {z : Byte}
    (hrows : ∀ row ∈ valueRows (ps.map (posLocator e.length)) (syndromes e P), dot row (ps.map W ++ [z]) = 0#8) :
    ∀ i ∈ ps, W i = gmul z (e.getD i 0#8) := by
  obtain ⟨F, _, φ, hφ⟩ := exists_isFieldEmbedding
  have := hφ.charP
  have hx : Set.InjOn (fun i => φ (posLocator e.length i)) ps.toFinset :=
    (posLocator_injOn hφ hn).mono fun i hi => h.lt_length i (List.mem_toFinset.mp hi)
  have hzero := eq_zero_of_power_sums (a := fun i => φ (W i) + φ z * coords φ e i) hx
    (List.toFinset_card_le ps) fun j hj => by
      rw [← map_dot_valueRow hφ h W z (hj.trans_le hP), hφ.map_eq_zero]
      exact hrows _ (mem_valueRows.mpr ⟨j, by rwa [List.length_map], rfl⟩)
  intro i hi
  refine hφ.injective ?_
  rw [hφ.map_gmul]
  exact CharTwo.add_eq_zero.mp (hzero i (List.mem_toFinset.mpr hi))

/-- A vector of one byte more than there are positions: the values at the positions, and the last byte. -/
theorem exists_eq_map_append {ps : List Nat} (hnodup : ps.Nodup) {v : List Byte} (hlen : v.length = ps.length + 1) :
    ∃ (W : Nat → Byte) (z : Byte), v = ps.map W ++ [z] := by
  obtain ⟨w, z, rfl⟩ : ∃ w z, v = w ++ [z] :=
    (List.eq_nil_or_concat' v).resolve_left (by rintro rfl; cases hlen)
  have hw : w.length = ps.length := by simpa using hlen
  refine ⟨fun i => w.getD (ps.idxOf i) 0#8, z, congrArg (· ++ [z]) (List.ext_getElem (by simp [hw]) fun k hk _ => ?_)⟩
  simp [hnodup.idxOf_getElem, hk]

/-- Dividing by the last byte of what solves the equations gives the error values. -/
theorem exists_values_normalized {ps : List Nat} {e v : List Byte} (h : CoversErrors ps e) (hn : e.length ≤ 255)
    {P : Nat} (hP : ps.length ≤ P)
    (hv : kernelVector (valueRows (ps.map (posLocator e.length)) (syndromes e P)) (ps.length + 1) = some v) :
    ∃ rest, v.map (gmul (ginv (v.getLastD 0))) = ps.map (fun i => e.getD i 0#8) ++ rest := by
  obtain ⟨hlen, hrows, b, hb, hb0⟩ := kernelVector_sound hv
  obtain ⟨W, z, rfl⟩ := exists_eq_map_append h.nodup hlen
  have hW := values_eq_gmul h hn hP hrows
  have hz : z ≠ 0#8 := by
    rintro rfl
    rcases List.mem_append.mp hb with hb | hb
    · obtain ⟨i, hi, rfl⟩ := List.mem_map.mp hb
      exact hb0 (by rw [hW i hi, gmul_zero_left])
    · exact hb0 (List.mem_singleton.mp hb)
  refine ⟨[gmul (ginv z) z], ?_⟩
  rw [List.getLastD_concat, List.map_append, List.map_map, List.map_singleton]
  refine congrArg (· ++ _) (List.map_congr_left fun i hi => ?_)
  rw [Function.comp_apply, hW i hi, ← gmul_assoc, gmul_comm (ginv z), gmul_ginv hz, gmul_one_left]

theorem lookup_zip_map (ps : List Nat) (f : Nat → Byte) (rest : List Byte) (i : Nat) :
    ((ps.zip (ps.map f ++ rest)).lookup i).getD 0 = if i ∈ ps then f i else 0#8 := by
  induction ps with
  | nil => rfl
  | cons p ps ih =>
    rw [List.map_cons, List.cons_append, List.zip_cons_cons, List.lookup_cons]
    by_cases hip : i = p
    · simp [hip]
    · rw [beq_false_of_ne hip]
      simpa [hip] using ih

/-! ### The search (R175, R187) -/

/-- The candidate depends on the word only through its length and its syndromes. -/
theorem errorWord_congr {r r' : List Byte} {P : Nat} (hlen : r.length = r'.length)
    (hsyn : syndromes r P = syndromes r' P) : errorWord r P = errorWord r' P := by
  simp only [errorWord, hlen, hsyn]

/-- What the search answers once it has a locator and values. -/
theorem errorWord_of_kernelVectors {r loc v : List Byte} {P : Nat}
    (hloc : kernelVector (locatorRows (syndromes r P) (P / 2)) (P / 2 + 1) = some loc)
    (hv : kernelVector (valueRows ((rootPositions loc r.length).map (posLocator r.length)) (syndromes r P))
      ((rootPositions loc r.length).length + 1) = some v) :
    errorWord r P = some ((List.range r.length).map fun i =>
      (((rootPositions loc r.length).zip (v.map (gmul (ginv (v.getLastD 0))))).lookup i).getD 0) := by
  rw [rootPositions] at hv
  simp only [errorWord, hloc, hv, rootPositions]

/-- The search finds every error word within the radius. -/
theorem errorWord_of_support_card_le {e : List Byte} {P : Nat} (hn : e.length ≤ 255) (ht : (support e).card ≤ P / 2) :
    errorWord e P = some e := by
  obtain ⟨loc, hloc⟩ := exists_locator e ht
  obtain ⟨hloclen, -, hlocne⟩ := kernelVector_sound hloc
  have hcovers : CoversErrors (rootPositions loc e.length) e :=
    ⟨rootPositions_nodup loc e.length, fun i hi => List.mem_range.mp (List.mem_of_mem_filter hi),
      support_subset_rootPositions hn ht hloc⟩
  have hP : (rootPositions loc e.length).length ≤ P :=
    (rootPositions_length_le hn hloclen hlocne).trans (Nat.div_le_self P 2)
  obtain ⟨v, hv⟩ := exists_values hcovers hP
  obtain ⟨rest, hvals⟩ := exists_values_normalized hcovers hn hP hv
  rw [errorWord_of_kernelVectors hloc hv, hvals]
  simp only [lookup_zip_map]
  refine congrArg some (List.ext_getElem (by simp) fun i _ hi => ?_)
  rw [List.getElem_map, List.getElem_range, List.getD_eq_getElem _ _ hi]
  refine ite_eq_left_iff.mpr fun hnot => ?_
  rw [← List.getD_eq_getElem _ 0#8 hi, getD_eq_zero_of_notMem_support]
  exact fun hmem => hnot (List.mem_toFinset.mp (hcovers.support_subset hmem))

/-- The difference of a word and a codeword has the syndromes of the word. -/
theorem syndromes_zipWith_xor {r c : List Byte} {P : Nat} (hlen : c.length = r.length) (hc : isCodeword c P = true) :
    syndromes (List.zipWith (· ^^^ ·) r c) P = syndromes r P := by
  obtain ⟨F, _, φ, hφ⟩ := exists_isFieldEmbedding
  refine List.map_congr_left fun j hj => hφ.injective ?_
  rw [← eval_wordPoly hφ, ← eval_wordPoly hφ, wordPoly_zipWith_xor hφ hlen.symm, eval_add, eval_wordPoly hφ c,
    polyEval_of_isCodeword hc (List.mem_range.mp hj), hφ.map_zero, add_zero]

/-- For a word within the radius of a codeword, the candidate is their difference. -/
theorem errorWord_of_codeword {r c : List Byte} {P : Nat} (hr : r.length ≤ 255) (hlen : c.length = r.length)
    (hc : isCodeword c P = true) (ht : hamming c r ≤ P / 2) : errorWord r P = some (List.zipWith (· ^^^ ·) r c) := by
  have hlen' : (List.zipWith (· ^^^ ·) r c).length = r.length := by simp [hlen]
  rw [← errorWord_of_support_card_le (hlen'.trans_le hr) (by rwa [card_support_zipWith_xor hlen])]
  exact errorWord_congr hlen'.symm (syndromes_zipWith_xor hlen hc).symm

theorem zipWith_xor_zipWith_xor {r c : List Byte} (h : c.length = r.length) :
    List.zipWith (· ^^^ ·) r (List.zipWith (· ^^^ ·) r c) = c := by
  refine List.ext_getElem (by simp [h]) fun i hi hi' => ?_
  simp

/-- Two codewords within the radius of one word are equal (R175). -/
theorem codeword_unique {r c c' : List Byte} {P : Nat} (hr : r.length ≤ 255) (hlen : c.length = r.length)
    (hc : isCodeword c P = true) (ht : hamming c r ≤ P / 2) (hlen' : c'.length = r.length)
    (hc' : isCodeword c' P = true) (ht' : hamming c' r ≤ P / 2) : c = c' := by
  have h := (errorWord_of_codeword hr hlen hc ht).symm.trans (errorWord_of_codeword hr hlen' hc' ht')
  rw [← zipWith_xor_zipWith_xor hlen, Option.some.inj h, zipWith_xor_zipWith_xor hlen']

/-- The decoder answers every codeword within the radius (R175, R176). -/
theorem rsDecode_complete {r c : List Byte} {P : Nat} (hr : r.length ≤ 255) (hlen : c.length = r.length)
    (hc : isCodeword c P = true) (ht : hamming c r ≤ P / 2) : rsDecode r P = some (c, hamming c r) := by
  by_cases hcode : isCodeword r P = true
  · obtain rfl := codeword_unique hr hlen hc ht rfl hcode ((hamming_self r).trans_le (Nat.zero_le _))
    rw [rsDecode_codeword hr hc, hamming_self]
  · have hP : P ≠ 0 := by
      rintro rfl
      exact hcode ((isCodeword_iff_polyRem r 0).mpr (List.length_eq_zero_iff.mp (polyRem_length r 0)))
    have herr := errorWord_of_codeword hr hlen hc ht
    simp only [rsDecode, Nat.not_lt.mpr hr, hP, hcode, herr, zipWith_xor_zipWith_xor hlen, hc, ht]
    simp

theorem errorWord_length {r e : List Byte} {P : Nat} (h : errorWord r P = some e) : e.length = r.length := by
  unfold errorWord at h
  dsimp only at h
  split at h
  · cases h
  · split at h
    · cases h
    · rw [← Option.some.inj h, List.length_map, List.length_range]

theorem rsDecode_length {r c : List Byte} {P n : Nat} (h : rsDecode r P = some (c, n)) : c.length = r.length := by
  unfold rsDecode at h
  split at h
  · cases h
  split at h
  · cases h; rfl
  split at h
  · cases h; rfl
  split at h
  · cases h
  next e he =>
    dsimp only at h
    split at h
    · cases h
      rw [List.length_zipWith, errorWord_length he, min_self]
    · cases h

/-- Settles O43: an answer is a codeword within the radius, and every such codeword is the answer. -/
theorem decodingIsBoundedDistance : Obligations.DecodingIsBoundedDistance := by
  intro r c P n
  constructor
  · intro h
    obtain ⟨hr, hc, hdist, hn⟩ := rsDecode_sound h
    exact ⟨hr, rsDecode_length h, hc, hdist, hn⟩
  · rintro ⟨hr, hlen, hc, rfl, hn⟩
    exact rsDecode_complete hr hlen hc hn

/-- Settles O44: the Packet's header, data and parity are a codeword of at most 255 bytes, so the decoder answers it. -/
theorem packetErrorsAreCorrected : Obligations.PacketErrorsAreCorrected := by
  intro chunk id hdr data ecc cw hchunk hcw hhdr hdata hecc hdist
  obtain ⟨-, -, -, -, hheader, hparity⟩ := newPacketFields chunk id hchunk
  obtain ⟨-, -, hsystematic⟩ :=
    parityMakesACodeword (packetHeader (newPacket chunk id) ++ chunk) (3 * chunk.length / 2)
  have hcode : isCodeword cw (3 * chunk.length / 2) = true := by
    rwa [hcw, hparity]
  have hlen : cw.length = (hdr ++ data ++ ecc).length := by
    simp only [hcw, hparity, hheader, List.length_append, List.length_cons, List.length_nil, rsEncode_length, hhdr,
      hdata, hecc]
  rw [correctPacket, hecc]
  refine rsDecode_complete ?_ hlen hcode hdist
  simp only [List.length_append, hhdr, hdata, hecc]
  omega

end Sys2Proof.Machine
end

section
/-! SUPPORT. The groups of a list, the Packets of a payload, and the flagged pairs and the length of a serialized
Transmission; and the statements on them (spec/43_transmission.md R200 to R204, R216). -/

namespace Sys2Proof.Machine

/-! ### The groups of a list (R200, R210) -/

/-- The first `n` groups of `c` are the first `n * c` elements. -/
theorem flatMap_range_groups {α : Type} (xs : List α) (c n : Nat) :
    (List.range n).flatMap (fun k => (xs.drop (k * c)).take c) = xs.take (n * c) := by
  induction n with
  | zero => simp
  | succ n ih => rw [List.range_succ, List.flatMap_append, ih, List.flatMap_singleton, Nat.succ_mul, List.take_add]

/-- The groups hold the list, in order. -/
theorem flatten_groupsOf {α : Type} (xs : List α) {c : Nat} (hc : 1 ≤ c) : (groupsOf xs c).flatten = xs := by
  have hcover : xs.length ≤ ceilDiv xs.length c * c := by
    have := Nat.lt_mul_div_succ (xs.length + c - 1) hc
    rw [Nat.mul_succ, Nat.mul_comm] at this
    rw [ceilDiv]
    omega
  rw [groupsOf, ← List.flatMap_def, flatMap_range_groups, List.take_of_length_le hcover]

theorem ceilDiv_eq_div_add {c : Nat} (n : Nat) (hc : 1 ≤ c) : ceilDiv n c = n / c + if 0 < n % c then 1 else 0 := by
  rw [ceilDiv, Nat.add_sub_assoc hc, Nat.add_div hc, Nat.div_eq_of_lt (by omega : c - 1 < c),
    Nat.mod_eq_of_lt (by omega : c - 1 < c), Nat.add_zero]
  simp only [show c ≤ n % c + (c - 1) ↔ 0 < n % c by omega]

/-- All groups have `c` elements, except that the rest makes a last, shorter one (R200). -/
theorem map_length_groupsOf {α : Type} (xs : List α) {c : Nat} (hc : 1 ≤ c) :
    (groupsOf xs c).map List.length =
      List.replicate (xs.length / c) c ++ if 0 < xs.length % c then [xs.length % c] else [] := by
  have hfull : (List.range (xs.length / c)).map (fun k => ((xs.drop (k * c)).take c).length) =
      List.replicate (xs.length / c) c := by
    refine List.eq_replicate_iff.mpr ⟨by simp, List.forall_mem_map.mpr fun k hk => ?_⟩
    have : (k + 1) * c ≤ xs.length := (Nat.le_div_iff_mul_le hc).mp (List.mem_range.mp hk)
    rw [Nat.succ_mul] at this
    rw [List.length_take, List.length_drop]
    omega
  have hrest : xs.length - xs.length / c * c = xs.length % c := by
    rw [Nat.mod_eq_sub_mul_div, Nat.mul_comm]
  have hlt := Nat.mod_lt xs.length hc
  rw [groupsOf, List.map_map, ceilDiv_eq_div_add _ hc, ← hfull]
  split
  · rw [List.range_succ, List.map_append, List.map_singleton]
    simp [hrest, hlt.le]
  · simp

/-! ### The Packets of a payload (R200, R201) -/

@[simp] theorem newPacket_data (chunk : List Byte) (id : U16) : (newPacket chunk id).data = chunk := rfl

@[simp] theorem newPacket_id (chunk : List Byte) (id : U16) : (newPacket chunk id).id = id := rfl

theorem length_dataPackets (B : List Byte) (C : Nat) : (dataPackets B C).length = ceilDiv B.length C := by
  rw [dataPackets, List.length_mapIdx, length_groupsOf]

/-- What does not depend on the ids is mapped over the chunks. -/
theorem map_dataPackets {β : Type} (B : List Byte) (C : Nat) {f : Packet → β} {g : List Byte → β}
    (hfg : ∀ chunk id, f (newPacket chunk id) = g chunk) : (dataPackets B C).map f = (groupsOf B C).map g :=
  List.ext_getElem (by simp [dataPackets]) (by simp [dataPackets, hfg])

theorem flatMap_data_dataPackets (B : List Byte) {C : Nat} (hC : 1 ≤ C) :
    (dataPackets B C).flatMap (fun p => p.data) = B := by
  rw [List.flatMap_def, map_dataPackets (g := id) B C fun _ _ => rfl, List.map_id, flatten_groupsOf B hC]

/-- A count or an id within R201 fits its field. -/
theorem toNat_ofNat_of_lt {n : Nat} (h : n < 0x10000) : (BitVec.ofNat 16 n).toNat = n :=
  (BitVec.toNat_ofNat ..).trans (Nat.mod_eq_of_lt h)

/-- Settles O32: the groups of the payload are its consecutive chunks, and each Packet carries one. -/
theorem packetsCarryConsecutiveChunks : Obligations.PacketsCarryConsecutiveChunks := by
  intro B C hC
  refine ⟨length_dataPackets B C, flatMap_data_dataPackets B hC, fun k p hp => ?_⟩
  obtain ⟨chunk, hchunk, rfl⟩ := dataPackets_getElem?_eq_some hp
  obtain ⟨hpos, -⟩ := length_of_groupsOf_getElem? hC hchunk
  obtain ⟨hk, rfl⟩ := groupsOf_getElem?_eq_some hchunk
  refine ⟨rfl, by simp, hpos, fun hN => ?_⟩
  have hk : k + 1 ≤ (B.length + C - 1) / C := hk
  have hid := toNat_ofNat_of_lt (n := k + 1) (by omega)
  exact ⟨hid, by rw [newPacket_id, hid]; omega⟩

/-! ### The pairs of a Transmission (R86 to R88, R204) -/

theorem filter_flag_plain (bs : List Byte) : (plain bs).filter (fun p => p.2) = [] := by
  simp [plain]

@[simp] theorem length_plain (bs : List Byte) : (plain bs).length = bs.length := List.length_map _

theorem filter_flag_packetPairs (p : Packet) :
    (packetPairs p).filter (fun q => q.2) = [ctl ctlSOH, ctl ctlSOTX] := by
  simp [packetPairs, ctl, filter_flag_plain]

/-- Settles O34: plain bytes carry flag 0, so only the control bytes of each part are left. -/
theorem controlFlagsOfAFrame : Obligations.ControlFlagsOfAFrame := by
  intro t
  rw [serialize, List.filter_append, List.filter_append, List.filter_flatMap]
  simp [ctl, filter_flag_plain, filter_flag_packetPairs, ctlSOT, ctlEOT, ctlSOH, ctlSOTX]

@[simp] theorem length_headerParity (tp : U16) : (headerParity tp).length = 4 := rsEncode_length _ 4

/-- A Packet of `L` data bytes takes 7 pairs and its parity beside them (R87, R88, R180). -/
theorem length_packetPairs_newPacket (chunk : List Byte) (id : U16) :
    (packetPairs (newPacket chunk id)).length = 7 + chunk.length + 3 * chunk.length / 2 := by
  have hecc : (newPacket chunk id).ecc.length = 3 * chunk.length / 2 := by
    rw [← parityLength_eq]
    exact rsEncode_length _ _
  simp [packetPairs, packetHeader, bytesBE, hecc]
  omega

theorem length_serialize_newTransmission (packets : List Packet) (e : Bool) :
    (serialize (newTransmission packets e)).length = 9 + (packets.map fun p => (packetPairs p).length).sum := by
  simp [serialize, newTransmission, transmissionHeader, bytesBE, List.length_flatMap]
  omega

/-- Settles O35: the chunks have the lengths of the groups, q times C and then r. -/
theorem dataFrameLength : Obligations.DataFrameLength := by
  intro B C c hC
  have hpairs : (dataPackets B C).map (fun p => (packetPairs p).length) =
      ((groupsOf B C).map List.length).map (fun L => 7 + L + 3 * L / 2) := by
    rw [List.map_map]
    exact map_dataPackets B C length_packetPairs_newPacket
  rw [frameSymbols, encodeStream_length, length_serialize_newTransmission, hpairs, map_length_groupsOf B hC]
  split <;> simp [Nat.add_assoc]

end Sys2Proof.Machine
end

section
/-! SUPPORT. What the parser does, said once by cases: the checks of a pair of chunks, the chunk walk and the header
checks; and the statements on them (spec/43_transmission.md R205 to R209). -/

namespace Sys2Proof.Machine

/-! ### A pair of chunks (R208, R209) -/

/-- Every check of R208 before the id: the header chunk holds the bytes `h0` to `h4`, the body chunk as many as they
say, and they decode to `c` with `n` errors, which agrees with the received sizes. -/
def PairPasses (hc bc : Chunk) (h0 h1 h2 h3 h4 : Byte) (c : List Byte) (n : Nat) : Prop :=
  hc.tail.map (fun p => p.1) = [h0, h1, h2, h3, h4] ∧
  bc.tail.length = (u16Of h0 h1).toNat + h4.toNat ∧
  5 + (u16Of h0 h1).toNat + h4.toNat ≤ 255 ∧
  rsDecode ([h0, h1, h2, h3, h4] ++ bc.tail.map (fun p => p.1)) h4.toNat = some (c, n) ∧
  u16Of (c.getD 0 0) (c.getD 1 0) = u16Of h0 h1 ∧ c.getD 4 0 = h4

theorem correctPacket_split {hdr body : List Byte} {L P : Nat} (h : body.length = L + P) :
    correctPacket hdr (body.take L) (body.drop L) = rsDecode (hdr ++ body) P := by
  rw [correctPacket, List.append_assoc, List.take_append_drop, List.length_drop, h, Nat.add_sub_cancel_left]

variable {hc bc : Chunk} {h0 h1 h2 h3 h4 : Byte} {c : List Byte} {n : Nat}

/-- A pair that passes gives its Packet, or reports the reserved id. -/
theorem parsePacket_of_passes (h : PairPasses hc bc h0 h1 h2 h3 h4 c n) :
    parsePacket hc bc =
      if u16Of (c.getD 2 0) (c.getD 3 0) = sentinel16 then .reservedId
      else .recovered ⟨u16Of (c.getD 2 0) (c.getD 3 0), (c.drop 5).take (u16Of h0 h1).toNat, n⟩ := by
  obtain ⟨hheader, hbody, hshort, hdec, hsize, hecc⟩ := h
  have hlen : (bc.tail.map (fun p => p.1)).length = (u16Of h0 h1).toNat + h4.toNat := by rwa [List.length_map]
  simp only [parsePacket, hheader, hlen, correctPacket_split hlen, hdec, Nat.not_lt.mpr hshort, hsize, hecc]
  simp

/-- A pair that does not fail passes every check. -/
theorem passes_of_parsePacket_ne_failed (h : parsePacket hc bc ≠ .failed) :
    ∃ h0 h1 h2 h3 h4 c n, PairPasses hc bc h0 h1 h2 h3 h4 c n := by
  unfold parsePacket at h
  dsimp only at h
  split at h
  next h0 h1 h2 h3 h4 hheader =>
    split at h
    next => exact absurd rfl h
    next hlen =>
      rw [ne_eq, not_not] at hlen
      rw [correctPacket_split hlen] at h
      split at h
      next => exact absurd rfl h
      next hshort =>
        split at h
        next => exact absurd rfl h
        next c n hdec =>
          split at h
          next => exact absurd rfl h
          next hagree =>
            rw [not_or, ne_eq, not_not, ne_eq, not_not] at hagree
            rw [List.length_map] at hlen
            exact ⟨h0, h1, h2, h3, h4, c, n, hheader, hlen, Nat.le_of_not_lt hshort, hdec, hagree⟩
  next => exact absurd rfl h

/-- Settles O47: a pair passes exactly when it does not fail, and the id of a pair that passes decides the rest. -/
theorem packetChecks : Obligations.PacketChecks := by
  intro hc bc passes
  have hne : parsePacket hc bc ≠ .failed → ∃ h0 h1 h2 h3 h4 c n, passes h0 h1 h2 h3 h4 c n :=
    passes_of_parsePacket_ne_failed
  have hparse : ∀ {h0 h1 h2 h3 h4 c n}, passes h0 h1 h2 h3 h4 c n → parsePacket hc bc =
      if (c.getD 2 0 ++ c.getD 3 0 : U16) = 0xFFFF then .reservedId
      else .recovered ⟨c.getD 2 0 ++ c.getD 3 0, (c.drop 5).take (h0 ++ h1 : U16).toNat, n⟩ :=
    parsePacket_of_passes
  refine ⟨fun r => ⟨fun h => ?_, ?_⟩, ⟨fun h => ?_, ?_⟩, fun h => ?_, fun h => ?_⟩
  · obtain ⟨h0, h1, h2, h3, h4, c, n, hpass⟩ := hne (by simp [h])
    rw [hparse hpass] at h
    split at h
    next => cases h
    next hid => exact ⟨h0, h1, h2, h3, h4, c, n, hpass, hid, (PacketResult.recovered.inj h).symm⟩
  · rintro ⟨h0, h1, h2, h3, h4, c, n, hpass, hid, rfl⟩
    rw [hparse hpass, if_neg hid]
  · obtain ⟨h0, h1, h2, h3, h4, c, n, hpass⟩ := hne (by simp [h])
    rw [hparse hpass] at h
    split at h
    next hid => exact ⟨h0, h1, h2, h3, h4, c, n, hpass, hid⟩
    next => cases h
  · rintro ⟨h0, h1, h2, h3, h4, c, n, hpass, hid⟩
    rw [hparse hpass, if_pos hid]
  · rintro ⟨h0, h1, h2, h3, h4, c, n, hpass⟩
    rw [hparse hpass] at h
    split at h <;> cases h
  · by_contra hfail
    exact h (hne hfail)

/-! ### The chunk walk (R207) -/

variable {rest : List Chunk} {d : Diag} {pk : List Recovered}

theorem walkChunks_skip (h : ¬ (hc.head? = some (ctl ctlSOH) ∧ bc.head? = some (ctl ctlSOTX))) :
    walkChunks (hc :: bc :: rest) d pk = walkChunks (bc :: rest) d pk := by
  rw [walkChunks, if_neg h]

theorem walkChunks_failed (hhc : hc.head? = some (ctl ctlSOH)) (hbc : bc.head? = some (ctl ctlSOTX))
    (h : parsePacket hc bc = .failed) :
    walkChunks (hc :: bc :: rest) d pk =
      walkChunks rest { d with pktsUnrecoverable := d.pktsUnrecoverable + 1 } pk := by
  rw [walkChunks, if_pos ⟨hhc, hbc⟩, h]

theorem walkChunks_reservedId (hhc : hc.head? = some (ctl ctlSOH)) (hbc : bc.head? = some (ctl ctlSOTX))
    (h : parsePacket hc bc = .reservedId) : walkChunks (hc :: bc :: rest) d pk = (d, none) := by
  rw [walkChunks, if_pos ⟨hhc, hbc⟩, h]

theorem walkChunks_recovered (hhc : hc.head? = some (ctl ctlSOH)) (hbc : bc.head? = some (ctl ctlSOTX)) {r : Recovered}
    (h : parsePacket hc bc = .recovered r) :
    walkChunks (hc :: bc :: rest) d pk =
      walkChunks rest { d with errorsCorrected := d.errorsCorrected + BitVec.ofNat 32 r.nerr } (pk ++ [r]) := by
  rw [walkChunks, if_pos ⟨hhc, hbc⟩, h]

/-- Settles O48: each case is an equation of the walk. -/
theorem chunkWalkSteps : Obligations.ChunkWalkSteps :=
  ⟨fun _ _ => rfl, fun _ _ _ => rfl, fun _ _ _ _ _ => ⟨walkChunks_skip, fun hhc hbc =>
    ⟨walkChunks_failed hhc hbc, walkChunks_reservedId hhc hbc, fun _ => walkChunks_recovered hhc hbc⟩⟩⟩

/-! ### The header checks (R205, R206) -/

variable {frame : List Nibble} {header : Chunk} {cs : List Chunk}

theorem deserialize_of_no_chunk (hs : splitData (decodeStream frame) = []) :
    deserialize frame d = (d, .fatal .headerAbsent) := by
  rw [deserialize, hs]

theorem deserialize_of_head_ne (hs : splitData (decodeStream frame) = header :: cs)
    (hh : header.head? ≠ some (ctl ctlSOT)) : deserialize frame d = (d, .fatal .headerAbsent) := by
  simp only [deserialize, hs, if_pos hh]

theorem deserialize_of_length_ne (hs : splitData (decodeStream frame) = header :: cs)
    (hh : header.head? = some (ctl ctlSOT)) (hlen : header.length ≠ 8) :
    deserialize frame d = (d, .loss .headerLength) := by
  simp only [deserialize, hs, if_neg (not_not_intro hh)]
  split
  next hmap => exact absurd (by simpa using congrArg List.length hmap) hlen
  next => rfl

section
variable {p0 p1 p2 p3 p4 p5 p6 p7 : Pair}
  (hs : splitData (decodeStream frame) = [p0, p1, p2, p3, p4, p5, p6, p7] :: cs) (hh : p0 = ctl ctlSOT)
include hs hh

theorem deserialize_of_header_unrecoverable
    (hdec : decodeHeader p2.1 p3.1 [p4.1, p5.1, p6.1, p7.1] = none) :
    deserialize frame d = (d, .loss .headerParity) := by
  simp [deserialize, hs, hh, hdec]

variable {tp : U16} (hdec : decodeHeader p2.1 p3.1 [p4.1, p5.1, p6.1, p7.1] = some tp) {d' : Diag}
include hdec

theorem deserialize_of_walk_reservedId (hwalk : walkChunks cs d [] = (d', none)) :
    deserialize frame d = (d', .fatal .reservedId) := by
  simp [deserialize, hs, hh, hdec, hwalk]

theorem deserialize_of_walk {pk : List Recovered} (hwalk : walkChunks cs d [] = (d', some pk)) :
    deserialize frame d = (d', .ok (p1.1.getLsbD 0) tp pk) := by
  simp [deserialize, hs, hh, hdec, hwalk]

end

theorem decodeHeader_eq_map (tpHi tpLo : Byte) (hecc : List Byte) :
    decodeHeader tpHi tpLo hecc =
      (rsDecode (tpHi :: tpLo :: hecc) 4).map fun a => u16Of (a.1.getD 0 0) (a.1.getD 1 0) := by
  rw [decodeHeader]
  rcases rsDecode (tpHi :: tpLo :: hecc) 4 with - | ⟨c, n⟩ <;> rfl

/-- Settles O46: each case is what `deserialize` answers there. -/
theorem headerChecksOfAFrame : Obligations.HeaderChecksOfAFrame := by
  refine fun frame d => ⟨deserialize_of_no_chunk, fun h cs hs => ⟨deserialize_of_head_ne hs,
    deserialize_of_length_ne hs, ?_⟩⟩
  rintro p0 p1 p2 p3 p4 p5 p6 p7 hh rfl
  have hsot : p0 = ctl ctlSOT := Option.some.inj hh
  refine ⟨fun hdec => deserialize_of_header_unrecoverable hs hsot (by rw [decodeHeader_eq_map, hdec]; rfl),
    fun c n hdec => ?_⟩
  have hheader : decodeHeader p2.1 p3.1 [p4.1, p5.1, p6.1, p7.1] = some (c.getD 0 0 ++ c.getD 1 0) := by
    rw [decodeHeader_eq_map, hdec]; rfl
  exact ⟨fun d' => deserialize_of_walk_reservedId hs hsot hheader, fun d' pk => deserialize_of_walk hs hsot hheader⟩

end Sys2Proof.Machine
end

section
/-! SUPPORT. What an uncorrupted frame parses to: the Packets it was built from (spec/43_transmission.md R205 to R211,
R215); and the statements on the round trips of data frames and Enquiries. -/

namespace Sys2Proof.Machine

/-! ### A Packet as it was sent (R181, R208) -/

/-- A Packet that R181 builds from at most 100 bytes, under an id that is not reserved. -/
inductive Packet.Sent : Packet → Prop where
  | newPacket {chunk : List Byte} {id : U16} (hlen : chunk.length ≤ 100) (hid : id ≠ sentinel16) :
    Sent (newPacket chunk id)

/-- A Packet as it is recovered when it is received with no errors. -/
def Packet.received (p : Packet) : Recovered := ⟨p.id, p.data, 0⟩

@[simp] theorem u16Of_hiByte_loByte (v : U16) : u16Of (hiByte v) (loByte v) = v := by
  rw [u16Of, hiByte, loByte, BitVec.extractLsb'_append_extractLsb'_eq_extractLsb' (by omega)]
  exact BitVec.extractLsb'_eq_self

theorem map_fst_plain (bs : List Byte) : (plain bs).map (fun p => p.1) = bs := by
  simp [plain, Function.comp_def]

theorem toNat_u16Of_zero_ofNat {L : Nat} (h : L < 256) : (u16Of 0x00 (BitVec.ofNat 8 L)).toNat = L := by
  rw [u16Of, BitVec.toNat_append, BitVec.toNat_ofNat, Nat.mod_eq_of_lt h]
  simp

/-- The two chunks of a Packet pass every check, and the decoder gives back the Packet's own bytes. -/
theorem passes_packetChunks {chunk : List Byte} (id : U16) (hlen : chunk.length ≤ 100) :
    PairPasses (ctl ctlSOH :: plain (packetHeader (newPacket chunk id)))
      (ctl ctlSOTX :: plain (chunk ++ (newPacket chunk id).ecc))
      0x00 (BitVec.ofNat 8 chunk.length) (hiByte id) (loByte id) (BitVec.ofNat 8 (3 * chunk.length / 2))
      ([0x00, BitVec.ofNat 8 chunk.length, hiByte id, loByte id, BitVec.ofNat 8 (3 * chunk.length / 2)] ++
        (chunk ++ (newPacket chunk id).ecc)) 0 := by
  obtain ⟨-, -, -, -, hheader, hparity⟩ := newPacketFields chunk id hlen
  have hecc : (newPacket chunk id).ecc.length = 3 * chunk.length / 2 := by rw [hparity, rsEncode_length]
  have hL := toNat_u16Of_zero_ofNat (L := chunk.length) (by omega)
  have hP : (BitVec.ofNat 8 (3 * chunk.length / 2)).toNat = 3 * chunk.length / 2 :=
    (BitVec.toNat_ofNat ..).trans (Nat.mod_eq_of_lt (by omega))
  have hdec := packetErrorsAreCorrected chunk id (packetHeader (newPacket chunk id)) chunk (newPacket chunk id).ecc _
    hlen rfl (by rw [hheader]; rfl) rfl hecc (by rw [hamming_self]; omega)
  rw [hamming_self, correctPacket, hecc, hheader, List.append_assoc] at hdec
  refine ⟨(map_fst_plain _).trans hheader, ?_, ?_, ?_, rfl, rfl⟩
  · rw [List.tail_cons, length_plain, List.length_append, hecc, hL, hP]
  · rw [hL, hP]; omega
  · rw [List.tail_cons, map_fst_plain, hP]; exact hdec

theorem parsePacket_packetChunks {p : Packet} (hp : p.Sent) :
    parsePacket (ctl ctlSOH :: plain (packetHeader p)) (ctl ctlSOTX :: plain (p.data ++ p.ecc)) =
      .recovered p.received := by
  obtain @⟨chunk, id, hlen, hid⟩ := hp
  rw [newPacket_data, parsePacket_of_passes (passes_packetChunks _ hlen), toNat_u16Of_zero_ofNat (by omega)]
  simp [Packet.received, hid]

/-- The walk recovers every Packet of an uncorrupted frame and changes no counter (R207, R208). -/
theorem walkChunks_packets {packets : List Packet} (hsent : ∀ p ∈ packets, p.Sent) (d : Diag) (pk : List Recovered) :
    walkChunks (packets.flatMap packetChunks ++ [[ctl ctlEOT]]) d pk =
      (d, some (pk ++ packets.map Packet.received)) := by
  induction packets generalizing pk with
  | nil => rw [List.map_nil, List.append_nil]; rfl
  | cons p packets ih =>
    obtain ⟨hp, hsent⟩ := List.forall_mem_cons.mp hsent
    rw [List.flatMap_cons, packetChunks, List.append_assoc, List.cons_append, List.cons_append, List.nil_append,
      walkChunks_recovered rfl rfl (parsePacket_packetChunks hp)]
    have hcount : d.errorsCorrected + BitVec.ofNat 32 p.received.nerr = d.errorsCorrected := BitVec.add_zero _
    rw [hcount, ih hsent, List.append_assoc]
    rfl

/-! ### A frame as it was sent (R202, R206, R215) -/

theorem decodeHeader_headerParity (tp : U16) : decodeHeader (hiByte tp) (loByte tp) (headerParity tp) = some tp := by
  obtain ⟨-, -, hcode⟩ := parityMakesACodeword (bytesBE tp) 4
  have hdec : rsDecode (hiByte tp :: loByte tp :: headerParity tp) 4 =
      some (hiByte tp :: loByte tp :: headerParity tp, 0) := rsDecode_codeword (by simp) hcode
  rw [decodeHeader_eq_map, hdec, Option.map_some]
  exact congrArg some (u16Of_hiByte_loByte tp)

/-- Parsing an uncorrupted frame gives its kind, its count and its Packets, and changes no counter. -/
theorem deserialize_frameSymbols {packets : List Packet} (hsent : ∀ p ∈ packets, p.Sent) (e c : Bool) (d : Diag) :
    deserialize (frameSymbols (newTransmission packets e) c) d =
      (d, .ok e (BitVec.ofNat 16 packets.length) (packets.map Packet.received)) := by
  generalize htp : BitVec.ofNat 16 packets.length = tp
  obtain ⟨e0, e1, e2, e3, hecc⟩ : ∃ e0 e1 e2 e3, headerParity tp = [e0, e1, e2, e3] :=
    match headerParity tp, length_headerParity tp with
    | [e0, e1, e2, e3], _ => ⟨e0, e1, e2, e3, rfl⟩
  have hsplit : splitData (decodeStream (frameSymbols (newTransmission packets e) c)) =
      [ctl ctlSOT, (if e then 0x01 else 0x00, false), (hiByte tp, false), (loByte tp, false), (e0, false),
        (e1, false), (e2, false), (e3, false)] :: (packets.flatMap packetChunks ++ [[ctl ctlEOT]]) := by
    rw [decodeStream_frameSymbols, splitData_serialize, newTransmission, htp, hecc]
    rfl
  rw [deserialize_of_walk hsplit rfl (hecc ▸ decodeHeader_headerParity tp) (walkChunks_packets hsent d [])]
  cases e <;> rfl

/-- Every Packet under an id within R201 that R181 builds from a short chunk is one that is sent. -/
theorem sent_newPacket {chunk : List Byte} {k n : Nat} (hlen : chunk.length ≤ 100) (hk : k < n) (hn : n ≤ 0xFFFE) :
    (newPacket chunk (BitVec.ofNat 16 (k + 1))).Sent := by
  refine .newPacket hlen fun hid => ?_
  have : k + 1 = 0xFFFF := (toNat_ofNat_of_lt (by omega)).symm.trans (congrArg BitVec.toNat hid)
  omega

theorem sent_of_mem_dataPackets {B : List Byte} {C : Nat} (hC : 1 ≤ C) (hC' : C ≤ 100)
    (hN : ceilDiv B.length C ≤ 0xFFFE) : ∀ p ∈ dataPackets B C, p.Sent := by
  intro p hp
  obtain ⟨k, hk⟩ := List.mem_iff_getElem?.mp hp
  obtain ⟨chunk, hchunk, rfl⟩ := dataPackets_getElem?_eq_some hk
  exact sent_newPacket ((length_of_groupsOf_getElem? hC hchunk).2.trans hC') (groupsOf_getElem?_eq_some hchunk).1 hN

/-- Settles O49: the Packets are sent ones, and each is received with its own chunk. -/
theorem dataFrameRoundTrip : Obligations.DataFrameRoundTrip := by
  intro B C c d hC hC' hN
  refine ⟨(dataPackets B C).map Packet.received, ?_, ?_, ?_, fun k r hr => ?_⟩
  · rw [deserialize_frameSymbols (sent_of_mem_dataPackets hC hC' hN), length_dataPackets]
    rfl
  · rw [List.length_map, length_dataPackets]
    rfl
  · rw [List.flatMap_map]
    exact flatMap_data_dataPackets B hC
  · rw [List.getElem?_map, Option.map_eq_some_iff] at hr
    obtain ⟨p, hp, rfl⟩ := hr
    obtain ⟨chunk, hchunk, rfl⟩ := dataPackets_getElem?_eq_some hp
    exact ⟨rfl, (groupsOf_getElem?_eq_some hchunk).2, rfl⟩

/-! ### Enquiries (R64, R89, R210, R211) -/

/-- The data of an Enquiry Packet for a group of ids (R64, R210). -/
def idBytes (ids : List Nat) : List Byte := ids.flatMap fun i => bytesLE (BitVec.ofNat 16 i)

theorem length_idBytes (ids : List Nat) : (idBytes ids).length = 2 * ids.length := by
  simp [idBytes, bytesLE, List.length_flatMap]
  omega

theorem idsInData_idBytes (ids : List Nat) : idsInData (idBytes ids) = ids.map (BitVec.ofNat 16) := by
  induction ids with
  | nil => rfl
  | cons i ids ih =>
    calc idsInData (idBytes (i :: ids))
      _ = u16Of (hiByte (BitVec.ofNat 16 i)) (loByte (BitVec.ofNat 16 i)) :: idsInData (idBytes ids) := rfl
      _ = _ := by rw [u16Of_hiByte_loByte, ih, List.map_cons]

theorem enquiry_packets (missing : List Nat) (C : Nat) :
    (enquiry missing C).packets =
      (groupsOf missing (idsPerPacket C)).mapIdx fun j g => newPacket (idBytes g) (BitVec.ofNat 16 (j + 1)) := rfl

theorem length_enquiry_packets (missing : List Nat) (C : Nat) :
    (enquiry missing C).packets.length = ceilDiv missing.length (idsPerPacket C) := by
  rw [enquiry_packets, List.length_mapIdx, length_groupsOf]

theorem enquiry_packets_getElem?_eq_some {missing : List Nat} {C k : Nat} {p : Packet}
    (h : (enquiry missing C).packets[k]? = some p) :
    ∃ g, (groupsOf missing (idsPerPacket C))[k]? = some g ∧ p = newPacket (idBytes g) (BitVec.ofNat 16 (k + 1)) := by
  rw [enquiry_packets, List.getElem?_mapIdx, Option.map_eq_some_iff] at h
  obtain ⟨g, hg, rfl⟩ := h
  exact ⟨g, hg, rfl⟩

theorem one_le_idsPerPacket (C : Nat) : 1 ≤ idsPerPacket C := Nat.le_max_left ..

/-- The ids of one Enquiry Packet fit 100 bytes. -/
theorem two_mul_idsPerPacket_le {C : Nat} (hC : C ≤ 100) : 2 * idsPerPacket C ≤ 100 := by
  rw [idsPerPacket]
  omega

theorem ceilDiv_le_self {n c : Nat} (hc : 1 ≤ c) : ceilDiv n c ≤ n := by
  rw [ceilDiv, Nat.div_le_iff_le_mul_add_pred hc]
  have := Nat.le_mul_of_pos_left n hc
  omega

theorem sent_of_mem_enquiry_packets {missing : List Nat} {C : Nat} (hC : C ≤ 100) (hN : missing.length ≤ 0xFFFE) :
    ∀ p ∈ (enquiry missing C).packets, p.Sent := by
  intro p hp
  obtain ⟨k, hk⟩ := List.mem_iff_getElem?.mp hp
  obtain ⟨g, hg, rfl⟩ := enquiry_packets_getElem?_eq_some hk
  have hlen := (length_of_groupsOf_getElem? (one_le_idsPerPacket C) hg).2
  have hper := two_mul_idsPerPacket_le hC
  exact sent_newPacket (by rw [length_idBytes]; omega) (groupsOf_getElem?_eq_some hg).1
    ((ceilDiv_le_self (one_le_idsPerPacket C)).trans hN)

/-- An Enquiry received with no errors requests the ids it was built from, in their order (R211). -/
theorem requestedIds_enquiry (missing : List Nat) (C : Nat) :
    requestedIds ((enquiry missing C).packets.map Packet.received) = missing.map (BitVec.ofNat 16) := by
  have hdata : (enquiry missing C).packets.map (fun p => idsInData p.received.data) =
      (groupsOf missing (idsPerPacket C)).map fun g => g.map (BitVec.ofNat 16) :=
    List.ext_getElem (by simp [length_enquiry_packets, length_groupsOf])
      (by simp [enquiry_packets, Packet.received, idsInData_idBytes])
  rw [requestedIds, List.flatMap_map, List.flatMap_def, hdata, ← List.map_flatten,
    flatten_groupsOf missing (one_le_idsPerPacket C)]

/-- Settles O50: the groups of the ids are the Packets' data, and the Packets are sent ones. -/
theorem enquiryRoundTrip : Obligations.EnquiryRoundTrip := by
  intro missing C
  refine ⟨⟨rfl, length_enquiry_packets missing C, ?_, rfl, fun k p hp => ?_⟩, fun c d _ hC hN _ => ?_⟩
  · exact congrArg (BitVec.ofNat 16) (length_enquiry_packets missing C)
  · obtain ⟨g, hg, rfl⟩ := enquiry_packets_getElem?_eq_some hp
    obtain ⟨-, rfl⟩ := groupsOf_getElem?_eq_some hg
    rfl
  · exact ⟨_, _, deserialize_frameSymbols (sent_of_mem_enquiry_packets hC hN) true c d,
      requestedIds_enquiry missing C⟩

end Sys2Proof.Machine
end

section
/-! SUPPORT. What an Enquiry requests and how it is answered; and the statement on it (spec/43_transmission.md R211,
R212, spec/44_arq.md R237, R242). -/

namespace Sys2Proof.Machine

variable {s : State}

/-! ### What is queued (R237) -/

theorem enqueue_of_room {ps : List Pair} (h : s.txq.length + 3 * ps.length ≤ s.params.txqCap) :
    enqueue ps s =
      { s with txq := s.txq ++ (encodeStream ps s.txClock).1, txClock := (encodeStream ps s.txClock).2 } := by
  rcases enqueue_cases ps s with ⟨-, e⟩ | ⟨hfull, -⟩
  · exact e
  · omega

theorem enqueue_of_full {ps : List Pair} (h : s.params.txqCap < s.txq.length + 3 * ps.length) :
    enqueue ps s = { s with diag := { s.diag with txDrops := s.diag.txDrops + 1 } } := by
  rcases enqueue_cases ps s with ⟨hroom, -⟩ | ⟨-, e⟩
  · omega
  · exact e

/-! ### The request (R211) -/

/-- The `k`-th id stands at the bytes 2k and 2k + 1, low byte first. -/
theorem idsInData_eq_map_range (data : List Byte) :
    idsInData data =
      (List.range (data.length / 2)).map fun k => data.getD (2 * k + 1) 0 ++ data.getD (2 * k) 0 := by
  fun_induction idsInData data with
  | case1 lo hi rest ih =>
    have hlen : (lo :: hi :: rest).length / 2 = rest.length / 2 + 1 := by
      rw [List.length_cons, List.length_cons]; omega
    rw [hlen, List.range_succ_eq_map, List.map_cons, List.map_map, ih]
    rfl
  | case2 data hshort =>
    rcases data with - | ⟨b, - | ⟨b', data⟩⟩
    · rfl
    · simp
    · exact absurd rfl (hshort b b' data)

/-! ### The answer (R212, R242) -/

variable {pk : List Recovered} {pks : List Packet}

theorem handleEnquiry_of_orig_none (h : s.orig = none) : handleEnquiry pk s = s := by
  simp [handleEnquiry, reply, h]

theorem handleEnquiry_of_no_match (h : s.orig = some pks)
    (hrep : pks.filter (fun p => decide (p.id ∈ requestedIds pk)) = []) : handleEnquiry pk s = s := by
  simp only [handleEnquiry, reply, h, hrep]
  rfl

/-- A reply is queued or dropped, and counted either way. -/
theorem handleEnquiry_of_match {rep : List Packet} (h : s.orig = some pks)
    (hrep : pks.filter (fun p => decide (p.id ∈ requestedIds pk)) = rep) (hne : rep ≠ []) :
    handleEnquiry pk s =
      { enqueue (serialize (newTransmission rep false)) s with
        diag := { (enqueue (serialize (newTransmission rep false)) s).diag with
          repliesSent := (enqueue (serialize (newTransmission rep false)) s).diag.repliesSent + 1 } } := by
  simp only [handleEnquiry, reply, h, hrep, List.isEmpty_eq_false_iff.mpr hne]
  rfl

/-- Settles O57: the reply is the filtered original as a new Transmission, and queuing it has two cases. -/
theorem enquiriesAreAnsweredFromTheOriginal : Obligations.EnquiriesAreAnsweredFromTheOriginal := by
  refine ⟨fun pk => ?_, fun s pk => ⟨handleEnquiry_of_orig_none, fun pks rep horig hrep => ?_⟩⟩
  · simp only [requestedIds, idsInData_eq_map_range]
  · refine ⟨fun hnil => handleEnquiry_of_no_match horig (hrep ▸ hnil), fun pairs hne hpairs => ?_⟩
    have hanswer := handleEnquiry_of_match horig hrep.symm hne
    rw [show serialize (newTransmission rep false) = pairs from hpairs.symm] at hanswer
    exact ⟨fun hroom => by rw [hanswer, enqueue_of_room hroom], fun hfull => by rw [hanswer, enqueue_of_full hfull]⟩

end Sys2Proof.Machine
end

section
/-! SUPPORT. A receiver fed an uncorrupted data frame (spec/41_frame_sync.md R156, spec/43_transmission.md R215,
spec/44_arq.md R239, R247, R256): no frame is recognized before its last symbol, and then its Packets fill the table and
the payload is emitted; and the statement on it. -/

namespace Sys2Proof.Machine

/-! ### No frame before the last symbol (R83, R153) -/

theorem startsWithEnd_encodeStream_cons {p : Pair} {ps : List Pair} {c : Bool}
    (h : startsWithEnd (encodeStream (p :: ps) c).1 = true) : p = ctl ctlEOT := by
  have hdec : decodeTriplet (encodeByte p.1 p.2 c).1 = p := decodeTriplet_of_encodeByte p.1 p.2 c
  rw [startsWithEnd_iff, encodeStream_cons] at h
  rcases ht : (encodeByte p.1 p.2 c).1 with ⟨s0, s1, s2⟩
  rw [ht] at h hdec
  have h : (s0 = 0x0 ∧ s1 = 0x9 ∧ s2 = 0x1) ∨ (s0 = 0x8 ∧ s1 = 0x1 ∧ s2 = 0x9) := by simpa using h
  rcases h with ⟨rfl, rfl, rfl⟩ | ⟨rfl, rfl, rfl⟩ <;> exact hdec.symm

/-- The symbols from a triplet boundary on are those of the pairs from there on, in some clock phase. -/
theorem exists_drop_encodeStream {ps : List Pair} {m : Nat} (hm : m ≤ ps.length) (c : Bool) :
    ∃ c', (encodeStream ps c).1.drop (3 * m) = (encodeStream (ps.drop m) c').1 := by
  refine ⟨(encodeStream (ps.take m) c).2, ?_⟩
  have hlen : (encodeStream (ps.take m) c).1.length = 3 * m := by simp [hm]
  conv_lhs => rw [← List.take_append_drop m ps, encodeStream_append, ← hlen]
  exact List.drop_left

/-- An End at a triplet boundary is an EOT among the pairs. -/
theorem getElem?_of_isEnd_encodeStream {ps : List Pair} {c : Bool} {m : Nat}
    (h : isEnd (encodeStream ps c).1 (3 * m) = true) : ps[m]? = some (ctl ctlEOT) := by
  have hlen := add_three_le_of_isEnd h
  rw [encodeStream_length] at hlen
  have hm : m < ps.length := by omega
  obtain ⟨c', hdrop⟩ := exists_drop_encodeStream hm.le c
  rw [isEnd, hdrop, List.drop_eq_getElem_cons hm] at h
  rw [List.getElem?_eq_getElem hm, startsWithEnd_encodeStream_cons h]

/-- The pairs of a Transmission before its EOT. -/
def pairsBeforeEot (t : Transmission) : List Pair :=
  ctl ctlSOT :: plain (transmissionHeader t) ++ t.packets.flatMap packetPairs

theorem serialize_eq_append_eot (t : Transmission) : serialize t = pairsBeforeEot t ++ [ctl ctlEOT] := rfl

theorem eot_notMem_plain (bs : List Byte) : ctl ctlEOT ∉ plain bs := by
  simp [plain, ctl]

theorem eot_notMem_pairsBeforeEot (t : Transmission) : ctl ctlEOT ∉ pairsBeforeEot t := by
  have hpacket : ∀ p : Packet, ctl ctlEOT ∉ packetPairs p := fun p => by
    simp only [packetPairs, List.mem_append, List.mem_cons, eot_notMem_plain]
    decide
  simp only [pairsBeforeEot, List.mem_append, List.mem_cons, List.mem_flatMap, eot_notMem_plain, hpacket]
  simp [ctl, ctlEOT, ctlSOT]

/-- The synchronizer recognizes nothing before the last symbol of an uncorrupted frame. -/
theorem sync_of_incomplete_frame {t : Transmission} {c : Bool} {front rest : List Nibble}
    (h : front ++ rest = frameSymbols t c) (hrest : rest ≠ []) : sync front = none := by
  by_contra hframe
  obtain ⟨⟨s, e⟩, hframe⟩ := Option.ne_none_iff_exists'.mp hframe
  obtain ⟨⟨hstart, hfirst⟩, ⟨hle, hmod, hend⟩, -⟩ := (sync_eq_some_iff ..).mp hframe
  have hfit := add_three_le_of_isEnd hend
  obtain rfl : s = 0 := by
    by_contra hs
    have hzero := hfirst 0 (by omega)
    rw [← isStart_append (by omega) rest, h, isStart, List.drop_zero, startsWithStart_frameSymbols] at hzero
    cases hzero
  obtain ⟨m, rfl⟩ : ∃ m, e = 3 * m := ⟨e / 3, by omega⟩
  rw [← isEnd_append hfit rest, h] at hend
  have heot := getElem?_of_isEnd_encodeStream hend
  have hlen : front.length + rest.length = 3 * ((pairsBeforeEot t).length + 1) := by
    rw [← List.length_append, h, frameSymbols, encodeStream_length, serialize_eq_append_eot, List.length_append]
    rfl
  have hpos := List.length_pos_iff.mpr hrest
  rw [serialize_eq_append_eot, List.getElem?_append_left (by omega)] at heot
  exact eot_notMem_pairsBeforeEot t (List.mem_of_getElem? heot)

theorem sync_frameSymbols (t : Transmission) (c : Bool) :
    sync (frameSymbols t c) = some (0, (frameSymbols t c).length - 3) := by
  simpa using (leadingNoiseChangesNothing [] t c (by simp)).1

theorem extractFrame_frameSymbols (t : Transmission) (c : Bool) :
    extractFrame (frameSymbols t c) 0 ((frameSymbols t c).length - 3) = frameSymbols t c := by
  simpa using (leadingNoiseChangesNothing [] t c (by simp)).2

/-! ### The table that a data frame fills (R244 to R247) -/

/-- The completion table whose slots 1, 2, … hold the given data. -/
def filledSlots (chunks : List (List Byte)) : Ctab := chunks.mapIdx fun k chunk => (k + 1, chunk)

theorem filledSlots_concat (chunks : List (List Byte)) (chunk : List Byte) :
    filledSlots (chunks ++ [chunk]) = filledSlots chunks ++ [(chunks.length + 1, chunk)] := List.mapIdx_concat

theorem mem_filledSlots {chunks : List (List Byte)} {k : Nat} {chunk : List Byte} :
    (k + 1, chunk) ∈ filledSlots chunks ↔ chunks[k]? = some chunk := by
  rw [filledSlots, List.mem_mapIdx, List.getElem?_eq_some_iff]
  constructor
  · rintro ⟨i, hi, heq⟩
    obtain ⟨rfl, rfl⟩ : i = k ∧ chunks[i] = chunk := by simpa using heq
    exact ⟨hi, rfl⟩
  · rintro ⟨hk, rfl⟩
    exact ⟨k, hk, rfl⟩

theorem le_length_of_mem_filledSlots {chunks : List (List Byte)} {x : Nat × List Byte} (h : x ∈ filledSlots chunks) :
    x.1 ≤ chunks.length := by
  obtain ⟨i, hi, rfl⟩ := List.mem_mapIdx.mp h
  exact hi

theorem filledSlots_wf (chunks : List (List Byte)) : (filledSlots chunks).wf = true := by
  rw [Ctab.wf_iff]
  induction chunks using List.reverseRecOn with
  | nil => exact .nil
  | append_singleton chunks chunk ih =>
    rw [filledSlots_concat]
    exact List.pairwise_append.mpr ⟨ih, List.pairwise_singleton .., fun x hx y hy => by
      rw [List.mem_singleton.mp hy]
      exact Nat.lt_succ_of_le (le_length_of_mem_filledSlots hx)⟩

theorem get_filledSlots (chunks : List (List Byte)) (k : Nat) : (filledSlots chunks).get (k + 1) = chunks[k]? := by
  ext chunk
  rw [Ctab.get_eq_some_iff (filledSlots_wf chunks), mem_filledSlots]

theorem missing_filledSlots (chunks : List (List Byte)) : (filledSlots chunks).missing chunks.length = [] := by
  refine List.eq_nil_iff_forall_not_mem.mpr fun k hk => ?_
  obtain ⟨⟨hpos, hle⟩, hnone⟩ := Ctab.mem_missing.mp hk
  obtain ⟨k, rfl⟩ : ∃ j, k = j + 1 := ⟨k - 1, by omega⟩
  rw [get_filledSlots, List.getElem?_eq_none_iff] at hnone
  omega

theorem payload_filledSlots (chunks : List (List Byte)) :
    (filledSlots chunks).payload chunks.length = chunks.flatten := by
  have hdata : (List.range chunks.length).map (fun k => ((filledSlots chunks).get (k + 1)).getD []) = chunks :=
    List.ext_getElem (by simp) fun k _ hk => by simp [get_filledSlots, List.getElem?_eq_getElem hk]
  rw [Ctab.payload, List.range'_eq_map_range, List.flatMap_map, List.flatMap_def]
  simp only [Nat.add_comm 1]
  rw [hdata]

/-- A slot above every listed one goes to the end. -/
theorem Ctab.fill_of_forall_lt {t : Ctab} {k : Nat} (h : ∀ x ∈ t, x.1 < k) (d : List Byte) :
    t.fill k d = t ++ [(k, d)] := by
  induction t with
  | nil => rfl
  | cons a t ih =>
    obtain ⟨ha, ht⟩ := List.forall_mem_cons.mp h
    rw [fill_cons_of_gt ha, ih ht, List.cons_append]

variable {s t u : State}

/-- Packets received in order of id fill an empty table with their data. -/
theorem foldl_fillSlot_in_order {chunks : List (List Byte)} (hempty : s.ctab = [])
    (hN : chunks.length ≤ s.xferTotal.toNat) :
    (chunks.mapIdx fun k chunk => (⟨BitVec.ofNat 16 (k + 1), chunk, 0⟩ : Recovered)).foldl fillSlot s =
      { s with ctab := filledSlots chunks } := by
  induction chunks using List.reverseRecOn with
  | nil => exact congrArg (fun table => { s with ctab := table }) hempty
  | append_singleton chunks chunk ih =>
    rw [List.length_append, List.length_singleton] at hN
    have hid : (BitVec.ofNat 16 (chunks.length + 1)).toNat = chunks.length + 1 :=
      toNat_ofNat_of_lt (by omega)
    have hfill : (filledSlots chunks).fill (chunks.length + 1) chunk = filledSlots (chunks ++ [chunk]) := by
      rw [filledSlots_concat, Ctab.fill_of_forall_lt fun x hx => Nat.lt_succ_of_le (le_length_of_mem_filledSlots hx)]
    rw [List.mapIdx_concat, List.foldl_append, ih (by omega), List.foldl_cons, List.foldl_nil, fillSlot, hid,
      if_pos ⟨by omega, hN⟩, hfill]

theorem map_received_dataPackets (B : List Byte) (C : Nat) :
    (dataPackets B C).map Packet.received =
      (groupsOf B C).mapIdx fun k chunk => (⟨BitVec.ofNat 16 (k + 1), chunk, 0⟩ : Recovered) :=
  List.ext_getElem (by simp [dataPackets]) (by simp [dataPackets, Packet.received])

/-- The state in which the last Packet of a payload leaves the transfer that its frame opened (R243 to R245). -/
def filledBy (B : List Byte) (C : Nat) (s : State) : State :=
  { s with
    xferActive := true, xferTotal := BitVec.ofNat 16 (ceilDiv B.length C), ctab := filledSlots (groupsOf B C),
    arqState := .normal }

theorem handleData_dataPackets {B : List Byte} {C : Nat} (hN : ceilDiv B.length C ≤ 0xFFFE)
    (hslots : ceilDiv B.length C ≤ s.params.maxPacketsRx) (hidle : s.xferActive = false) :
    handleData (BitVec.ofNat 16 (ceilDiv B.length C)) ((dataPackets B C).map Packet.received) s = filledBy B C s := by
  have hcount := toNat_ofNat_of_lt (n := ceilDiv B.length C) (by omega)
  rcases handleData_cases (BitVec.ofNat 16 (ceilDiv B.length C)) ((dataPackets B C).map Packet.received) s with
    ⟨hopen, -⟩ | ⟨-, htp, -⟩ | ⟨-, -, hlarge, -⟩ | ⟨-, -, -, e⟩
  · simp [hidle] at hopen
  · rw [htp] at hcount
    have : 0xFFFF = ceilDiv B.length C := hcount
    omega
  · omega
  · rw [e, acceptPackets, map_received_dataPackets,
      foldl_fillSlot_in_order (s := { s with
        xferActive := true, xferTotal := BitVec.ofNat 16 (ceilDiv B.length C), ctab := [] }) rfl
        (by rw [hcount, length_groupsOf])]
    rfl

/-- With every slot Filled, the gap check closes the transfer (R246, R247). -/
theorem gapCheck_filledBy {B : List Byte} {C : Nat} (hN : ceilDiv B.length C ≤ 0xFFFE) :
    gapCheck (filledBy B C s) = complete (filledBy B C s) := by
  rcases gapCheck_cases (filledBy B C s) with ⟨-, e⟩ | ⟨hgap, -⟩
  · exact e
  · refine absurd ?_ hgap
    rw [filledBy, toNat_ofNat_of_lt (by omega), ← length_groupsOf, missing_filledSlots]

/-- A data frame received with no transfer open opens one, fills it and closes it (R239). -/
theorem processFrame_dataFrame {B : List Byte} {C : Nat} (c : Bool) (hC : 1 ≤ C) (hC' : C ≤ 100)
    (hN : ceilDiv B.length C ≤ 0xFFFE) (hslots : ceilDiv B.length C ≤ s.params.maxPacketsRx)
    (hidle : s.xferActive = false) (hrunning : s.fatalCause = none) :
    processFrame (frameSymbols (newTransmission (dataPackets B C) false) c) s =
      (complete (filledBy B C (success s)), true) := by
  have hparse := deserialize_frameSymbols (sent_of_mem_dataPackets hC hC' hN) false c s.diag
  have hdata := handleData_dataPackets (s := success s) hN hslots hidle
  rw [length_dataPackets] at hparse
  rw [processFrame, hparse]
  dsimp only
  rw [useFrame_data, hdata, if_neg (by simp [filledBy, hrunning]),
    if_pos (show (filledBy B C (success s)).xferActive = true from rfl), gapCheck_filledBy hN]

theorem complete_filledBy_out {B : List Byte} {C : Nat} (hC : 1 ≤ C) (hN : ceilDiv B.length C ≤ 0xFFFE) :
    (complete (filledBy B C s)).out = s.out ++ [.payload B] := by
  rw [complete_out]
  simp only [filledBy]
  rw [toNat_ofNat_of_lt (by omega), ← length_groupsOf, payload_filledSlots, flatten_groupsOf B hC]

/-! ### Receiving a frame symbol by symbol (R131, R156) -/

theorem execAll_append {is js : List Instr} (h : execAll is s = .next u) : execAll (is ++ js) s = execAll js u := by
  induction is generalizing s with
  | nil => rw [Host.Outcome.next.inj h]; rfl
  | cons i is ih =>
    rw [execAll] at h
    rw [List.cons_append, execAll]
    rcases hexec : exec i s with t | f | r <;> rw [hexec] at h
    · exact ih h
    · cases h
    · cases h

/-- One symbol offered after the symbols `front`. -/
theorem execAll_receiveAll_concat {front : List Nibble} {v : Nibble} (h : execAll (receiveAll front) s = .next u)
    (hstep : exec (.cycle false true (txByte v)) u = .next t) : execAll (receiveAll (front ++ [v])) s = .next t := by
  rw [receiveAll, List.map_append, ← receiveAll, execAll_append h, List.map_singleton, execAll, hstep]
  rfl

theorem timerPhase_out (decoded : Bool) (s : State) : (timerPhase decoded s).out = s.out := by
  rcases timerPhase_cases decoded s with ⟨-, e⟩ | ⟨-, e⟩ | ⟨-, -, e⟩ <;> rw [e]
  simp [timeoutResend]

theorem txPhase_not_ready_out (s : State) : (txPhase false s).out = s.out := by
  rcases txPhase_cases false s with e | ⟨hready, -⟩
  · rw [e]
  · cases hready

/-- `u` is the idle block `s` after it has accepted the symbols `front`, with no frame among them. `w` is a symbol with
the clock bit that `s` has read last. -/
structure Receiving (s : State) (w : Nibble) (front : List Nibble) (u : State) : Prop where
  params            : u.params = s.params
  out               : u.out = s.out
  rxClock           : ((w :: front).getLast?).map clockBit = some u.rxClock
  rxbuf             : u.rxbuf = front
  xferActive        : u.xferActive = false
  fatalCause        : u.fatalCause = none
  framesOk          : u.diag.framesOk = s.diag.framesOk
  frameLosses       : u.diag.frameLosses = s.diag.frameLosses
  pktsUnrecoverable : u.diag.pktsUnrecoverable = s.diag.pktsUnrecoverable

variable {w v : Nibble} {front : List Nibble}

/-- What keeps the receive side, emits nothing and changes no parameter goes on receiving. -/
theorem Receiving.of_keeps (h : Receiving s w front u) (hkeeps : KeepsReceiveSide u t) (hparams : t.params = u.params)
    (hout : t.out = u.out) : Receiving s w front t where
  params := hparams.trans h.params
  out := hout.trans h.out
  rxClock := hkeeps.rxClock ▸ h.rxClock
  rxbuf := hkeeps.rxbuf.trans h.rxbuf
  xferActive := hkeeps.xferActive.trans h.xferActive
  fatalCause := hkeeps.fatalCause.trans h.fatalCause
  framesOk := (congrArg Diag.framesOk hkeeps.diag).trans h.framesOk
  frameLosses := (congrArg Diag.frameLosses hkeeps.diag).trans h.frameLosses
  pktsUnrecoverable := (congrArg Diag.pktsUnrecoverable hkeeps.diag).trans h.pktsUnrecoverable

theorem Receiving.txPhase (h : Receiving s w front u) : Receiving s w front (txPhase false u) :=
  h.of_keeps (keepsReceiveSide_txPhase false u) (extends_txPhase false u).params (txPhase_not_ready_out u)

theorem Receiving.timerPhase (h : Receiving s w front u) (decoded : Bool) :
    Receiving s w front (timerPhase decoded u) :=
  h.of_keeps (keepsReceiveSide_timerPhase decoded u) (extends_timerPhase decoded u).params (timerPhase_out decoded u)

theorem Receiving.acceptSymbol (h : Receiving s w front u) (v : Nibble) :
    Receiving s w (front ++ [v]) (acceptSymbol v u) where
  params := h.params
  out := h.out
  rxClock := by rw [← List.cons_append, List.getLast?_concat]; rfl
  rxbuf := by rw [acceptSymbol_rxbuf, h.rxbuf]
  xferActive := h.xferActive
  fatalCause := h.fatalCause
  framesOk := h.framesOk
  frameLosses := h.frameLosses
  pktsUnrecoverable := h.pktsUnrecoverable

/-- The next symbol of an alternating stream differs in its clock bit from the last one accepted (R129). -/
theorem Receiving.clock_change (h : Receiving s w front u) {rest : List Nibble}
    (halternates : alternates (w :: (front ++ v :: rest)) = true) : (txByte v).getLsbD 3 ≠ u.rxClock := by
  obtain ⟨x, hlast, hclock⟩ := Option.map_eq_some_iff.mp h.rxClock
  rw [← List.cons_append, alternates_append, Bool.and_eq_true, alternates_snoc] at halternates
  obtain ⟨⟨-, hne⟩, -⟩ := halternates
  rw [← clockBit_rxSymbol, rxSymbol_txByte, ← hclock]
  exact (hne x hlast).symm

/-- A CYCLE that offers a symbol with the other clock accepts it and runs the synchronizer. -/
theorem rxPhase_txPhase_of_clock_change (hclock : (txByte v).getLsbD 3 ≠ u.rxClock) :
    rxPhase true (txByte v) (txPhase false u) = runSync (acceptSymbol v (txPhase false u)) := by
  rw [rxPhase_of_clock_change ((keepsReceiveSide_txPhase false u).rxClock ▸ hclock), rxSymbol_txByte]

/-- A symbol that completes no frame and does not fill the buffer is only accepted. -/
theorem exec_cycle_of_no_frame (h : Receiving s w front u) (hclock : (txByte v).getLsbD 3 ≠ u.rxClock)
    (hnone : sync (front ++ [v]) = none) (hroom : (front ++ [v]).length < s.params.rxbufCap) :
    ∃ t, exec (.cycle false true (txByte v)) u = .next t ∧ Receiving s w (front ++ [v]) t := by
  have haccepted := h.txPhase.acceptSymbol v
  have hsync : runSync (acceptSymbol v (txPhase false u)) = (acceptSymbol v (txPhase false u), false) :=
    runSync_of_room (by rw [haccepted.rxbuf, hnone]) (by rw [haccepted.rxbuf, haccepted.params]; exact hroom)
  have hrun : runCycle false true (txByte v) u = timerPhase false (acceptSymbol v (txPhase false u)) := by
    rw [runCycle, rxPhase_txPhase_of_clock_change hclock, hsync]
    exact if_neg (by rw [haccepted.fatalCause]; decide)
  exact ⟨_, exec_of_running _ h.fatalCause, by rw [effect, hrun]; exact haccepted.timerPhase false⟩

/-- The symbols of a frame before its last one are all accepted, and no frame is recognized. -/
theorem execAll_receiveAll_of_incomplete_frame {T : Transmission} {c : Bool} (h : Receiving s w [] s)
    (halternates : alternates (w :: frameSymbols T c) = true) (hcap : (frameSymbols T c).length ≤ s.params.rxbufCap)
    {rest : List Nibble} (hframe : front ++ rest = frameSymbols T c) (hrest : rest ≠ []) :
    ∃ u, execAll (receiveAll front) s = .next u ∧ Receiving s w front u := by
  induction front using List.reverseRecOn generalizing rest with
  | nil => exact ⟨s, rfl, h⟩
  | append_singleton front v ih =>
    have hsplit : front ++ v :: rest = frameSymbols T c := by rw [← hframe, List.append_assoc]; rfl
    obtain ⟨u, hexec, hu⟩ := ih hsplit (List.cons_ne_nil _ _)
    have hroom : (front ++ [v]).length < s.params.rxbufCap := by
      have := List.length_pos_iff.mpr hrest
      rw [← hframe, List.length_append] at hcap
      omega
    obtain ⟨t, hstep, ht⟩ := exec_cycle_of_no_frame hu (hu.clock_change (hsplit ▸ halternates))
      (sync_of_incomplete_frame hframe hrest) hroom
    exact ⟨t, execAll_receiveAll_concat hexec hstep, ht⟩

/-- The last symbol of a data frame completes it, and the frame is processed as a whole. -/
theorem exec_cycle_of_dataFrame {B : List Byte} {C : Nat} {c : Bool} (hC : 1 ≤ C) (hC' : C ≤ 100)
    (hN : ceilDiv B.length C ≤ 0xFFFE) (hslots : ceilDiv B.length C ≤ s.params.maxPacketsRx)
    (h : Receiving s w front u) (hclock : (txByte v).getLsbD 3 ≠ u.rxClock)
    (hframe : front ++ [v] = frameSymbols (newTransmission (dataPackets B C) false) c) :
    ∃ t, Receiving s w (front ++ [v]) t ∧ exec (.cycle false true (txByte v)) u =
      .next (complete (filledBy B C (success { t with rxbuf := [] }))) := by
  have haccepted := h.txPhase.acceptSymbol v
  refine ⟨_, haccepted, ?_⟩
  rw [exec_of_running _ h.fatalCause, effect, runCycle, rxPhase_txPhase_of_clock_change hclock]
  generalize acceptSymbol v (txPhase false u) = t at haccepted
  rw [runSync_of_frame (by rw [haccepted.rxbuf, hframe, sync_frameSymbols]), haccepted.rxbuf, hframe,
    extractFrame_frameSymbols, processFrame_dataFrame (s := { t with rxbuf := [] }) c hC hC' hN
      (haccepted.params ▸ hslots) haccepted.xferActive haccepted.fatalCause]
  exact congrArg Host.Outcome.next (if_neg (by simp [filledBy, haccepted.fatalCause]))

/-- Settles O58: every symbol before the last is only accepted, and the last one has the whole frame processed. -/
theorem receiverDeliversThePayload : Obligations.ReceiverDeliversThePayload := by
  intro s B C c hC hC' hN hslots hcap hrunning hidle hbuf hclock
  have hstart : Receiving s (symbolOf (!c) 0) [] s :=
    ⟨rfl, rfl, by simp [hclock], hbuf, hidle, hrunning, rfl, rfl, rfl⟩
  have halternates := (encodeStream_continues _ (serialize (newTransmission (dataPackets B C) false)) c
    (clockBit_symbolOf (!c) 0)).1
  obtain ⟨front, v, hframe⟩ : ∃ front v, frameSymbols (newTransmission (dataPackets B C) false) c = front ++ [v] := by
    refine (List.eq_nil_or_concat' _).resolve_left fun hnil => ?_
    have hsot := startsWithStart_frameSymbols (newTransmission (dataPackets B C) false) c
    rw [hnil] at hsot
    cases hsot
  obtain ⟨u, hexec, hu⟩ := execAll_receiveAll_of_incomplete_frame hstart halternates hcap hframe.symm
    (List.cons_ne_nil v [])
  rw [← frameSymbols, hframe] at halternates
  obtain ⟨t, ht, hlast⟩ := exec_cycle_of_dataFrame hC hC' hN hslots hu (hu.clock_change halternates) hframe.symm
  rw [hframe]
  refine ⟨_, execAll_receiveAll_concat hexec hlast, ?_, rfl, rfl, ht.fatalCause, rfl,
    congrArg (· + 1) ht.framesOk, ht.pktsUnrecoverable, ht.frameLosses⟩
  rw [complete_filledBy_out hC hN]
  exact congrArg (· ++ [.payload B]) ht.out

end Sys2Proof.Machine
end

section
/-! SUPPORT. The statements on NOP, RESET and SEND (spec/44_arq.md R230, R235 to R237). -/

namespace Sys2Proof.Machine

variable {s : State}

/-! ### NOP and RESET (R230, R236) -/

/-- Settles O11: FATAL or not, the block is left as it is. -/
theorem nopChangesNothing : Obligations.NopChangesNothing :=
  ⟨fun _ _ hcode => decode_nop hcode, fun s => (unlessFatal_cases s s).elim And.right And.right⟩

/-- After a RESET only the transmit clock's bit of STATUS is set (R45, R49). -/
theorem status_resetBlock (s : State) : (resetBlock s).status = 0x00000100 := by
  simp [State.status, fatalCode, lossCode]

/-- Settles O12: each value is the one `resetBlock` writes, and STATUS is computed from them. -/
theorem resetRestoresEveryElement : Obligations.ResetRestoresEveryElement :=
  ⟨fun _ _ hcode => decode_reset hcode, fun s => ⟨resetBlock s, rfl, rfl, rfl, rfl, rfl, rfl, rfl, rfl, rfl, rfl, rfl,
    rfl, rfl, rfl, rfl, rfl, rfl, rfl, rfl, rfl, status_resetBlock s, rfl, rfl, rfl⟩⟩

/-! ### SEND (R235, R237) -/

theorem sendRejected_iff {p : Params} {B : List Byte} :
    sendRejected p B = true ↔ p.payloadMax < B.length ∨ 0xFFFE < ceilDiv B.length p.chunkSize := by
  simp [sendRejected]

theorem effect_send_of_rejected {B : List Byte} (h : sendRejected s.params B = true) :
    effect (.send B) s = { s with badcmd := true } := if_pos h

theorem effect_send_of_accepted {B : List Byte} (h : ¬ sendRejected s.params B = true) :
    effect (.send B) s = enqueue (serialize (newTransmission (dataPackets B s.params.chunkSize) false))
      { s with orig := some (dataPackets B s.params.chunkSize) } := if_neg h

/-- Settles O31: a rejected SEND sets `badcmd`, and an accepted one stores its Packets and queues or drops its pairs. -/
theorem sendEffect : Obligations.SendEffect := by
  refine ⟨fun _ _ hcode => decode_send hcode, fun s B => ⟨exec_of_fatal (by simp), fun hrunning => ?_⟩⟩
  rw [exec_of_running _ hrunning]
  refine ⟨fun hrejected => ?_, fun hlen hcount pks pairs hpks hpairs => ?_⟩
  · rw [effect_send_of_rejected (sendRejected_iff.mpr hrejected)]
  · have haccepted : ¬ sendRejected s.params B = true :=
      mt sendRejected_iff.mp (not_or.mpr ⟨Nat.not_lt.mpr hlen, Nat.not_lt.mpr hcount⟩)
    rw [effect_send_of_accepted haccepted, ← hpks, ← hpairs]
    exact ⟨fun hroom => congrArg Host.Outcome.next (enqueue_of_room hroom),
      fun hfull => congrArg Host.Outcome.next (enqueue_of_full hfull)⟩

end Sys2Proof.Machine
end

section
/-! SUPPORT. The three phases of a CYCLE, by their cases, and the statements on them (spec/44_arq.md R231, R232, R234,
R249): what each phase does, what a CYCLE emits, and what it leaves alone. -/

namespace Sys2Proof.Machine

variable {s t u : State}

/-! ### The phases in order (R231, R279) -/

theorem runCycle_of_fatal {txr rxv : Bool} {rxb : Byte} (h : (rxPhase rxv rxb (txPhase txr s)).1.fatalCause ≠ none) :
    runCycle txr rxv rxb s = (rxPhase rxv rxb (txPhase txr s)).1 := if_pos (Option.isSome_iff_ne_none.mpr h)

theorem runCycle_of_running {txr rxv : Bool} {rxb : Byte} (h : (rxPhase rxv rxb (txPhase txr s)).1.fatalCause = none) :
    runCycle txr rxv rxb s =
      timerPhase (rxPhase rxv rxb (txPhase txr s)).2 (rxPhase rxv rxb (txPhase txr s)).1 :=
  if_neg fun hfatal => Option.isSome_iff_ne_none.mp hfatal h

/-- Settles O21: a running block runs the CYCLE, which skips the timer phase exactly on FATAL. -/
theorem cycleCompletesInThreePhases : Obligations.CycleCompletesInThreePhases :=
  ⟨fun _ _ hcode => decode_cycle hcode, fun _ _ _ _ hrunning =>
    ⟨_, exec_of_running _ hrunning, runCycle_of_fatal, runCycle_of_running⟩⟩

/-! ### The transmit phase (R124, R232) -/

/-- A write is due when the delay has passed, the transport is ready, and something waits to be written (R232). -/
def WriteDue (txr : Bool) (s : State) : Prop :=
  s.params.interSymbolDelay ≤ s.txCnt + 1 ∧ txr = true ∧ (s.txPending ≠ none ∨ s.txq ≠ [])

theorem txPhase_of_not_due {txr : Bool} (h : ¬ WriteDue txr s) :
    txPhase txr s = { s with txCnt := min (s.txCnt + 1) s.params.interSymbolDelay } := by
  rw [txPhase]
  exact if_neg (by rwa [min_eq_right_iff, Option.isSome_iff_ne_none])

theorem txPhase_of_due {txr : Bool} (h : WriteDue txr s) :
    txPhase txr s = writeNext { s with txCnt := min (s.txCnt + 1) s.params.interSymbolDelay } := by
  rw [txPhase]
  exact if_pos (by rwa [min_eq_right_iff, Option.isSome_iff_ne_none])

theorem writeNext_of_pending {p : Nibble} (hstrobe : s.params.strobeEn = true) (hp : s.txPending = some p) :
    writeNext s = writeSymbol p { s with txPending := none } := by
  simp [writeNext, hstrobe, hp]

theorem writeNext_of_strobed_head {sym : Nibble} {q : List Nibble} (hstrobe : s.params.strobeEn = true)
    (hp : s.txPending = none) (hq : s.txq = sym :: q) :
    writeNext s = writeSymbol (strobeExpand sym s.txLastWrite).1 { s with txq := q, txPending := some sym } := by
  simp [writeNext, hstrobe, hp, hq, strobeExpand]

theorem writeNext_of_head {sym : Nibble} {q : List Nibble} (hstrobe : s.params.strobeEn = false)
    (hq : s.txq = sym :: q) : writeNext s = writeSymbol sym { s with txq := q } := by
  simp [writeNext, hstrobe, hq]

/-- Settles O22: the count alone without a due write, else the write slot with the value that is next. -/
theorem transmitPhaseWritesOneSymbolWhenDue : Obligations.TransmitPhaseWritesOneSymbolWhenDue := by
  refine fun s txr => ⟨txPhase_of_not_due, fun hdelay hready => ⟨fun p hstrobe hp => ?_, fun sym q hstrobe hp hq => ?_,
    fun sym q hstrobe hq => ?_⟩⟩
  · rw [txPhase_of_due ⟨hdelay, hready, .inl (by simp [hp])⟩]
    exact writeNext_of_pending hstrobe hp
  · rw [txPhase_of_due ⟨hdelay, hready, .inr (by simp [hq])⟩]
    exact writeNext_of_strobed_head hstrobe hp hq
  · rw [txPhase_of_due ⟨hdelay, hready, .inr (by simp [hq])⟩]
    exact writeNext_of_head hstrobe hq

/-! ### The timer phase (R234, R249) -/

theorem timerPhase_decoded (s : State) : timerPhase true s = s := rfl

theorem timerPhase_of_no_timeout (h : ¬ (s.arqState = .waitingForResponse ∧ s.params.timeout ≤ s.timer + 1)) :
    timerPhase false s = { s with timer := min (s.timer + 1) s.params.timeout } := by
  rw [timerPhase, if_neg Bool.false_ne_true]
  exact if_neg (by rwa [min_eq_right_iff])

theorem timerPhase_of_timeout (h : s.arqState = .waitingForResponse) (htimeout : s.params.timeout ≤ s.timer + 1) :
    timerPhase false s = timeoutResend { s with timer := min (s.timer + 1) s.params.timeout } := by
  rw [timerPhase, if_neg Bool.false_ne_true]
  exact if_pos ⟨h, min_eq_right htimeout⟩

/-- The stored pairs are queued or dropped, and the resend is counted either way. -/
theorem timeoutResend_of_stored {pairs : List Pair} (henq : s.enq = some pairs) :
    timeoutResend s = { enqueue pairs s with
      timer := 0,
      diag := { (enqueue pairs s).diag with enqResent := (enqueue pairs s).diag.enqResent + 1 } } := by
  have hpairs : s.enq.getD [] = pairs := by rw [henq, Option.getD_some]
  rw [timeoutResend, hpairs]

theorem timeoutResend_of_room {pairs : List Pair} (henq : s.enq = some pairs)
    (hroom : s.txq.length + 3 * pairs.length ≤ s.params.txqCap) :
    timeoutResend s = { s with
      txq := s.txq ++ (encodeStream pairs s.txClock).1, txClock := (encodeStream pairs s.txClock).2, timer := 0,
      diag := { s.diag with enqResent := s.diag.enqResent + 1 } } := by
  rw [timeoutResend_of_stored henq, enqueue_of_room hroom]

theorem timeoutResend_of_full {pairs : List Pair} (henq : s.enq = some pairs)
    (hfull : s.params.txqCap < s.txq.length + 3 * pairs.length) :
    timeoutResend s = { s with
      timer := 0,
      diag := { s.diag with enqResent := s.diag.enqResent + 1, txDrops := s.diag.txDrops + 1 } } := by
  rw [timeoutResend_of_stored henq, enqueue_of_full hfull]

/-- Settles O24: the count alone without a timeout, else the resend, which queues the stored pairs or drops them. -/
theorem timerPhaseResendsOnTimeout : Obligations.TimerPhaseResendsOnTimeout := by
  refine fun s => ⟨timerPhase_decoded s, timerPhase_of_no_timeout, fun pairs hwaiting htimeout henq => ?_⟩
  rw [timerPhase_of_timeout hwaiting htimeout]
  exact ⟨fun hroom => timeoutResend_of_room henq hroom, fun hfull => timeoutResend_of_full henq hfull⟩

/-! ### What a CYCLE emits (R81, R106, R231, R279) -/

theorem txPhase_out_cases (txr : Bool) (s : State) :
    (txPhase txr s).out = s.out ∨ ∃ v, (txPhase txr s).out = s.out ++ [.write (txByte v)] := by
  rcases txPhase_cases txr s with e | ⟨-, e⟩ <;> rw [e]
  · exact .inl rfl
  · rcases writeNext_cases { s with txCnt := min (s.txCnt + 1) s.params.interSymbolDelay } with
      ⟨p, -, -, e⟩ | ⟨sym, q, -, -, -, e⟩ | ⟨sym, q, -, -, e⟩ | ⟨-, -, e⟩ <;> rw [e]
    · exact .inr ⟨_, rfl⟩
    · exact .inr ⟨_, rfl⟩
    · exact .inr ⟨_, rfl⟩
    · exact .inl rfl

/-- What the receive phase can add to the outputs: nothing, one payload, or one FATAL notice. -/
inductive ReceiveOutput : List Output → List Output → Prop where
  | nothing (os : List Output) : ReceiveOutput os os
  | payload (os : List Output) (bytes : List Byte) : ReceiveOutput os (os ++ [.payload bytes])
  | halted (os : List Output) (c : FatalCause) : ReceiveOutput os (os ++ [.halted c])

theorem ReceiveOutput.of_eq {os os' : List Output} (h : os' = os) : ReceiveOutput os os' := h ▸ .nothing os

theorem handleEnquiry_out (pk : List Recovered) (s : State) : (handleEnquiry pk s).out = s.out := by
  unfold handleEnquiry
  split
  · rfl
  · exact enqueue_out _ _

theorem acceptPackets_out (pk : List Recovered) (s : State) : (acceptPackets pk s).out = s.out := by
  change (pk.foldl fillSlot s).out = s.out
  induction pk generalizing s with
  | nil => rfl
  | cons r pk ih =>
    rw [List.foldl_cons, ih, fillSlot]
    split <;> rfl

/-- Handling data emits nothing, or enters FATAL with the notice (R243, R275). -/
theorem handleData_out_cases (tp : U16) (pk : List Recovered) (s : State) :
    (handleData tp pk s).out = s.out ∨ ∃ c, handleData tp pk s = raiseFatal c s := by
  rcases handleData_cases tp pk s with ⟨-, e⟩ | ⟨-, -, e⟩ | ⟨-, -, -, e⟩ | ⟨-, -, -, e⟩
  · exact .inl (by rw [e, acceptPackets_out])
  · exact .inr ⟨_, e⟩
  · exact .inr ⟨_, e⟩
  · exact .inl (by rw [e, acceptPackets_out])

theorem gapCheck_receiveOutput (s : State) : ReceiveOutput s.out (gapCheck s).out := by
  rcases gapCheck_cases s with ⟨-, e⟩ | ⟨-, e⟩ <;> rw [e]
  · exact .payload _ _
  · exact .of_eq (by simp [issueEnquiry])

/-- After FATAL nothing more is emitted, so a notice and a payload never come from one frame (R239). -/
theorem useFrame_receiveOutput (isEnq : Bool) (tp : U16) (pk : List Recovered) (s : State) :
    ReceiveOutput s.out (useFrame isEnq tp pk s).1.out := by
  have hgap (t : State) (ht : t.out = s.out) : ReceiveOutput s.out (if t.fatalCause.isSome then (t, false)
      else if t.xferActive then (gapCheck t, true) else (t, true)).1.out := by
    split_ifs
    · exact .of_eq ht
    · exact ht ▸ gapCheck_receiveOutput t
    · exact .of_eq ht
  cases isEnq with
  | true => rw [useFrame_enquiry]; exact hgap _ (handleEnquiry_out pk s)
  | false =>
    rw [useFrame_data]
    rcases handleData_out_cases tp pk s with hout | ⟨c, e⟩
    · exact hgap _ hout
    · rw [e]
      exact .halted _ c

theorem processFrame_receiveOutput (frame : List Nibble) (s : State) :
    ReceiveOutput s.out (processFrame frame s).1.out := by
  rcases processFrame_cases frame s with ⟨d, c, -, e⟩ | ⟨d, c, -, e⟩ | ⟨d, isEnq, tp, pk, -, e⟩ <;> rw [e]
  · exact .halted _ c
  · exact .nothing _
  · exact useFrame_receiveOutput isEnq tp pk (success { s with diag := d })

theorem runSync_receiveOutput (s : State) : ReceiveOutput s.out (runSync s).1.out := by
  rcases runSync_cases s with ⟨st, e, -, heq⟩ | ⟨-, -, heq⟩ | ⟨-, -, heq⟩ <;> rw [heq]
  · exact processFrame_receiveOutput _ { s with rxbuf := [] }
  · exact .nothing _
  · exact .nothing _

theorem rxPhase_receiveOutput (rxv : Bool) (rxb : Byte) (s : State) :
    ReceiveOutput s.out (rxPhase rxv rxb s).1.out := by
  unfold rxPhase
  dsimp only
  split
  · exact runSync_receiveOutput (acceptSymbol (rxSymbol rxb) s)
  · exact .nothing _

/-- The timer phase emits nothing, so the outputs of a CYCLE are those of the other two phases. -/
theorem runCycle_out (txr rxv : Bool) (rxb : Byte) (s : State) :
    (runCycle txr rxv rxb s).out = (rxPhase rxv rxb (txPhase txr s)).1.out := by
  by_cases h : (rxPhase rxv rxb (txPhase txr s)).1.fatalCause = none
  · rw [runCycle_of_running h, timerPhase_out]
  · rw [runCycle_of_fatal h]

theorem effect_out_of_not_cycle {i : Instr} (h : ∀ txr rxv rxb, i ≠ .cycle txr rxv rxb) (s : State) :
    (effect i s).out = s.out := by
  cases i with
  | cycle txr rxv rxb => exact absurd rfl (h txr rxv rxb)
  | send B =>
    by_cases h : sendRejected s.params B = true
    · rw [effect_send_of_rejected h]
    · rw [effect_send_of_accepted h, enqueue_out]
  | nop | reset | encByte | decTriplet | strobeExpand => rfl

/-- `after` is `before` with at most a Write, then at most a Payload, then at most a Halted (R231). -/
def EmitsInOrder (before after : List Output) : Prop :=
  ∃ ws ps hs, after = before ++ ws ++ ps ++ hs ∧
    (ws = [] ∨ ∃ v : Nibble, ws = [.write (0#4 ++ v)]) ∧
    (ps = [] ∨ ∃ bytes, ps = [.payload bytes]) ∧
    (hs = [] ∨ ∃ c, hs = [.halted c])

theorem EmitsInOrder.of_eq {before after : List Output} (h : after = before) : EmitsInOrder before after :=
  ⟨[], [], [], by simp [h], .inl rfl, .inl rfl, .inl rfl⟩

theorem ReceiveOutput.emitsInOrder {before ws after : List Output} (h : ReceiveOutput (before ++ ws) after)
    (hws : ws = [] ∨ ∃ v : Nibble, ws = [.write (0#4 ++ v)]) : EmitsInOrder before after := by
  cases h with
  | nothing => exact ⟨ws, [], [], by simp, hws, .inl rfl, .inl rfl⟩
  | payload bytes => exact ⟨ws, [.payload bytes], [], by simp, hws, .inr ⟨bytes, rfl⟩, .inl rfl⟩
  | halted c => exact ⟨ws, [], [.halted c], by simp, hws, .inl rfl, .inr ⟨c, rfl⟩⟩

theorem runCycle_emitsInOrder (txr rxv : Bool) (rxb : Byte) (s : State) :
    EmitsInOrder s.out (runCycle txr rxv rxb s).out := by
  have hrx := rxPhase_receiveOutput rxv rxb (txPhase txr s)
  rw [runCycle_out]
  rcases txPhase_out_cases txr s with hout | ⟨v, hout⟩ <;> rw [hout] at hrx
  · exact ReceiveOutput.emitsInOrder (ws := []) (by rwa [List.append_nil]) (.inl rfl)
  · exact hrx.emitsInOrder (.inr ⟨v, rfl⟩)

/-- Settles O25: only a CYCLE emits, a Write in its transmit phase and then what its receive phase emits. -/
theorem outputsComeInOrder : Obligations.OutputsComeInOrder := by
  intro s t i hexec
  rcases exec_next_cases hexec with ⟨-, -, rfl⟩ | ⟨-, rfl⟩
  · exact ⟨fun _ => rfl, EmitsInOrder.of_eq rfl⟩
  · refine ⟨fun hi => effect_out_of_not_cycle hi s, ?_⟩
    by_cases hi : ∃ txr rxv rxb, i = .cycle txr rxv rxb
    · obtain ⟨txr, rxv, rxb, rfl⟩ := hi
      exact runCycle_emitsInOrder txr rxv rxb s
    · push Not at hi
      exact EmitsInOrder.of_eq (effect_out_of_not_cycle hi s)

/-! ### What a CYCLE leaves alone (R35, R38, R39, R271) -/

/-- `t` has the stored original, `badcmd`, `result`, the last write and the pending write of `s`; its queue only grows
at the end, and its outputs hold no new Write. -/
structure KeepsTransmitSide (s t : State) : Prop where
  orig        : t.orig = s.orig
  badcmd      : t.badcmd = s.badcmd
  result      : t.result = s.result
  txLastWrite : t.txLastWrite = s.txLastWrite
  txPending   : t.txPending = s.txPending
  txq         : s.txq <+: t.txq
  writes      : ∀ b, .write b ∈ t.out → .write b ∈ s.out

theorem KeepsTransmitSide.refl (s : State) : KeepsTransmitSide s s :=
  ⟨rfl, rfl, rfl, rfl, rfl, List.prefix_rfl, fun _ => id⟩

theorem KeepsTransmitSide.trans (h : KeepsTransmitSide s t) (h' : KeepsTransmitSide t u) : KeepsTransmitSide s u where
  orig := h'.orig.trans h.orig
  badcmd := h'.badcmd.trans h.badcmd
  result := h'.result.trans h.result
  txLastWrite := h'.txLastWrite.trans h.txLastWrite
  txPending := h'.txPending.trans h.txPending
  txq := h.txq.trans h'.txq
  writes := fun b hb => h.writes b (h'.writes b hb)

theorem keepsTransmitSide_enqueue (ps : List Pair) (s : State) : KeepsTransmitSide s (enqueue ps s) := by
  rcases enqueue_cases ps s with ⟨-, e⟩ | ⟨-, e⟩ <;> rw [e]
  · exact { KeepsTransmitSide.refl s with txq := List.prefix_append _ _ }
  · exact { KeepsTransmitSide.refl s with }

theorem ReceiveUpdate.keepsTransmitSide (h : ReceiveUpdate s t) : KeepsTransmitSide s t := by
  cases h with
  | enqueue ps => exact keepsTransmitSide_enqueue ps s
  | deliver bs => exact { KeepsTransmitSide.refl s with writes := by simp }
  | halt c => exact { KeepsTransmitSide.refl s with writes := by simp }
  | own h => rw [h]; exact { KeepsTransmitSide.refl s with }

theorem ReceiveUpdates.keepsTransmitSide (h : ReceiveUpdates s t) : KeepsTransmitSide s t := by
  induction h with
  | refl => exact .refl s
  | tail _ hstep ih => exact ih.trans hstep.keepsTransmitSide

/-- The receive and the timer phase keep the transmit side. -/
theorem keepsTransmitSide_runCycle (txr rxv : Bool) (rxb : Byte) (s : State) :
    KeepsTransmitSide (txPhase txr s) (runCycle txr rxv rxb s) :=
  (receiveUpdates_runCycle txr rxv rxb s).keepsTransmitSide

theorem txPhase_frame (txr : Bool) (s : State) :
    (txPhase txr s).orig = s.orig ∧ (txPhase txr s).badcmd = s.badcmd ∧ (txPhase txr s).result = s.result := by
  rcases txPhase_cases txr s with e | ⟨-, e⟩ <;> rw [e]
  · exact ⟨rfl, rfl, rfl⟩
  · rcases writeNext_cases { s with txCnt := min (s.txCnt + 1) s.params.interSymbolDelay } with
      ⟨p, -, -, e⟩ | ⟨sym, q, -, -, -, e⟩ | ⟨sym, q, -, -, e⟩ | ⟨-, -, e⟩ <;> rw [e] <;> exact ⟨rfl, rfl, rfl⟩

/-- Settles O26: the transmit phase writes transmit registers only, and the other phases keep the transmit side. -/
theorem cycleFrame : Obligations.CycleFrame := by
  intro s t txr rxv rxb hexec
  rcases exec_next_cases hexec with ⟨-, -, rfl⟩ | ⟨-, rfl⟩
  · exact ⟨rfl, rfl, rfl, rfl, rfl⟩
  · obtain ⟨horig, hbadcmd, hresult⟩ := txPhase_frame txr s
    have hkeeps := keepsTransmitSide_runCycle txr rxv rxb s
    have hextends := extends_runCycle txr rxv rxb s
    exact ⟨hkeeps.orig.trans horig, hkeeps.badcmd.trans hbadcmd, hkeeps.result.trans hresult, hextends.params,
      hextends.inbox⟩

theorem keepsTransmitSide_txPhase_not_ready (s : State) : KeepsTransmitSide s (txPhase false s) := by
  rw [txPhase_of_not_due fun ⟨_, hready, _⟩ => Bool.false_ne_true hready]
  exact { KeepsTransmitSide.refl s with }

/-- Settles O28: without a ready transport the transmit phase only counts, and the other phases keep the transmit
side. -/
theorem cycleWithoutWriteFrame : Obligations.CycleWithoutWriteFrame := by
  intro s t rxv rxb hexec
  have hkeeps : KeepsTransmitSide s t := by
    rcases exec_next_cases hexec with ⟨-, -, rfl⟩ | ⟨-, rfl⟩
    · exact .refl t
    · exact (keepsTransmitSide_txPhase_not_ready s).trans (keepsTransmitSide_runCycle false rxv rxb s)
  exact ⟨hkeeps.txq, hkeeps.txLastWrite, hkeeps.txPending, hkeeps.writes⟩

end Sys2Proof.Machine
end

section
/-! SUPPORT. What a recognized frame does to the state, and the statements on it (spec/44_arq.md R239 to R248, R250):
the outcome of its parse, the transfer that data opens, its completion table, and the gap check. -/

namespace Sys2Proof.Machine

variable {s : State}

/-! ### The outcome of the parse (R239 to R241, R275) -/

section
variable {frame : List Nibble} {d : Diag}

theorem processFrame_of_fatal {c : FatalCause} (h : deserialize frame s.diag = (d, .fatal c)) :
    processFrame frame s = (raiseFatal c { s with diag := d }, false) := by
  rw [processFrame, h]

theorem processFrame_of_loss {c : LossCause} (h : deserialize frame s.diag = (d, .loss c)) :
    processFrame frame s = (loss c { s with diag := d }, false) := by
  rw [processFrame, h]

theorem processFrame_of_ok {isEnq : Bool} {tp : U16} {pk : List Recovered}
    (h : deserialize frame s.diag = (d, .ok isEnq tp pk)) :
    processFrame frame s = useFrame isEnq tp pk (success { s with diag := d }) := by
  rw [processFrame, h]

end

/-- Settles O51: the parse selects the case, and a frame that decoded is used and then checked for gaps. -/
theorem frameOutcomes : Obligations.FrameOutcomes := by
  intro s frame d
  refine ⟨fun c => processFrame_of_fatal, fun c => processFrame_of_loss, fun isEnq tp pk s1 s2 hok hs1 hs2 => ?_⟩
  have huse : processFrame frame s = if s2.fatalCause.isSome then (s2, false)
      else if s2.xferActive then (gapCheck s2, true) else (s2, true) := by
    rw [processFrame_of_ok hok, hs2, hs1]
    rfl
  rw [huse]
  refine ⟨fun hfatal => if_pos (Option.isSome_iff_ne_none.mpr hfatal), fun hrunning hidle => ?_,
    fun hrunning hopen => ?_⟩
  · simp [hrunning, hidle]
  · simp [hrunning, hopen]

/-! ### A data frame (R243, R245) -/

theorem handleData_of_open {tp : U16} {pk : List Recovered} (h : s.xferActive = true) :
    handleData tp pk s = acceptPackets pk s := if_pos h

theorem handleData_of_idle {tp : U16} {pk : List Recovered} (h : s.xferActive = false) : handleData tp pk s =
    if tp = sentinel16 then raiseFatal .totalReserved s
    else if s.params.maxPacketsRx < tp.toNat then raiseFatal .totalTooLarge s
    else acceptPackets pk { s with xferActive := true, xferTotal := tp, ctab := [] } := by
  simp [handleData, h]

/-- Settles O52: with no transfer open the declared total selects the case, with one open it is not read. -/
theorem dataFrameOpensATransfer : Obligations.DataFrameOpensATransfer := by
  intro s tp pk
  refine ⟨fun hidle hreserved => ?_, fun hidle htp hlarge => ?_, fun hidle htp hfits => ?_, handleData_of_open⟩
  · exact (handleData_of_idle hidle).trans (if_pos hreserved)
  · exact (handleData_of_idle hidle).trans ((if_neg htp).trans (if_pos hlarge))
  · exact (handleData_of_idle hidle).trans ((if_neg htp).trans (if_neg (Nat.not_lt.mpr hfits)))

/-! ### The completion table (R76, R244) -/

/-- Filling a slot leaves every other slot as it is. -/
theorem Ctab.get_fill_of_ne {j k : Nat} (h : k ≠ j) (d : List Byte) (t : Ctab) : (t.fill j d).get k = t.get k := by
  induction t with
  | nil => simp [fill_nil, get, h.symm]
  | cons a t ih =>
    obtain ⟨i, c⟩ := a
    rcases Nat.lt_trichotomy j i with hji | rfl | hij
    · simp [fill_cons_of_lt hji, get, h.symm]
    · rw [fill_cons_self]
    · simp [fill_cons_of_gt hij, get, ih]

/-- An Empty slot is Filled with the data. -/
theorem Ctab.get_fill_self_of_empty {k : Nat} {t : Ctab} (h : t.get k = none) (d : List Byte) :
    (t.fill k d).get k = some d := by
  induction t with
  | nil => simp [fill_nil, get]
  | cons a t ih =>
    obtain ⟨i, c⟩ := a
    rcases Nat.lt_trichotomy k i with hki | rfl | hik
    · simp [fill_cons_of_lt hki, get]
    · simp [get] at h
    · simp only [get, if_neg hik.ne] at h
      simp [fill_cons_of_gt hik, get, hik.ne, ih h]

/-- Filling a listed slot of a canonical table changes nothing: the first copy wins. -/
theorem Ctab.fill_of_mem {k : Nat} {old : List Byte} {t : Ctab} (hwf : t.wf = true) (h : (k, old) ∈ t) (d : List Byte) :
    t.fill k d = t := by
  rw [wf_iff] at hwf
  induction t with
  | nil => cases h
  | cons a t ih =>
    obtain ⟨hbelow, hwf⟩ := List.pairwise_cons.mp hwf
    rcases List.mem_cons.mp h with rfl | h
    · exact fill_cons_self _ _ _ _
    · rw [fill_cons_of_gt (hbelow _ h), ih hwf h]

theorem fillSlot_of_in_range {r : Recovered} (h : 1 ≤ r.id.toNat ∧ r.id.toNat ≤ s.xferTotal.toNat) :
    fillSlot s r = { s with ctab := s.ctab.fill r.id.toNat r.data } := if_pos h

theorem fillSlot_of_out_of_range {r : Recovered} (h : ¬ (1 ≤ r.id.toNat ∧ r.id.toNat ≤ s.xferTotal.toNat)) :
    fillSlot s r = { s with diag := { s.diag with pktsDiscarded := s.diag.pktsDiscarded + 1 } } := if_neg h

/-- Settles O53: in range only the table changes, by what filling does to an Empty, a Filled and another slot. -/
theorem firstCopyWins : Obligations.FirstCopyWins := by
  refine fun s r hwf => ⟨fillSlot_of_out_of_range, fun hlow hhigh => ?_⟩
  rw [fillSlot_of_in_range ⟨hlow, hhigh⟩]
  exact ⟨rfl, Ctab.wf_fill hwf _ _, fun k hk => Ctab.get_fill_of_ne hk _ _,
    fun hempty => Ctab.get_fill_self_of_empty hempty _,
    fun old hfilled => Ctab.fill_of_mem hwf ((Ctab.get_eq_some_iff hwf _ _).mp hfilled) _⟩

/-! ### The gap check (R246 to R248, R250) -/

theorem gapCheck_of_complete (h : s.ctab.missing s.xferTotal.toNat = []) : gapCheck s = complete s := by
  simp [gapCheck, h]

theorem gapCheck_of_gaps {missing : List Nat} (h : s.ctab.missing s.xferTotal.toNat = missing) (hne : missing ≠ []) :
    gapCheck s = issueEnquiry missing s := by
  simp [gapCheck, h, hne]

section
variable {t : Ctab} {N : Nat} {d : Nat → List Byte} (hfilled : ∀ k, 1 ≤ k → k ≤ N → t.get k = some (d k))
include hfilled

theorem Ctab.missing_of_filled : t.missing N = [] := by
  refine List.eq_nil_iff_forall_not_mem.mpr fun k hk => ?_
  obtain ⟨⟨hlow, hhigh⟩, hempty⟩ := mem_missing.mp hk
  rw [hfilled k hlow hhigh] at hempty
  cases hempty

theorem Ctab.payload_of_filled : t.payload N = (List.range N).flatMap fun k => d (k + 1) := by
  rw [Ctab.payload, List.range'_eq_map_range, List.flatMap_map]
  refine List.flatMap_congr fun k hk => ?_
  have hslot : t.get (1 + k) = some (d (1 + k)) :=
    hfilled (1 + k) (Nat.le_add_right 1 k) (by rw [List.mem_range] at hk; omega)
  rw [hslot, Option.getD_some, Nat.add_comm]

end

/-- Settles O55: with every slot Filled none is missing, and the payload is the slots' data in rising order. -/
theorem completeTransferEmitsThePayload : Obligations.CompleteTransferEmitsThePayload := by
  intro s d hfilled
  rw [gapCheck_of_complete (Ctab.missing_of_filled hfilled), ← Ctab.payload_of_filled hfilled]
  rfl

/-- The missing ids are the only rising list of exactly the Empty slots (R250). -/
theorem Ctab.missing_unique {t : Ctab} {N : Nat} {missing : List Nat} (hrising : missing.Pairwise (· < ·))
    (hmem : ∀ k, k ∈ missing ↔ 1 ≤ k ∧ k ≤ N ∧ t.get k = none) : t.missing N = missing := by
  have hrising' : (t.missing N).Pairwise (· < ·) := List.Pairwise.filter _ List.pairwise_lt_range'
  exact hrising'.eq_of_mem_iff hrising fun k => by rw [mem_missing, hmem, and_assoc]

section
variable {missing : List Nat} {pairs : List Pair} (hpairs : pairs = serialize (enquiry missing s.params.chunkSize))
include hpairs

/-- The pairs are stored, queued or dropped, and the Enquiry is counted either way (R248). -/
theorem issueEnquiry_eq : issueEnquiry missing s =
    { enqueue pairs { s with enq := some pairs } with
      diag := { (enqueue pairs { s with enq := some pairs }).diag with
        enqSent := (enqueue pairs { s with enq := some pairs }).diag.enqSent + 1 },
      arqState := .waitingForResponse } := by
  rw [hpairs]
  rfl

theorem issueEnquiry_of_room (hroom : s.txq.length + 3 * pairs.length ≤ s.params.txqCap) :
    issueEnquiry missing s = { s with
      enq := some pairs, arqState := .waitingForResponse, txq := s.txq ++ (encodeStream pairs s.txClock).1,
      txClock := (encodeStream pairs s.txClock).2, diag := { s.diag with enqSent := s.diag.enqSent + 1 } } := by
  rw [issueEnquiry_eq hpairs, enqueue_of_room (s := { s with enq := some pairs }) hroom]

theorem issueEnquiry_of_full (hfull : s.params.txqCap < s.txq.length + 3 * pairs.length) :
    issueEnquiry missing s = { s with
      enq := some pairs, arqState := .waitingForResponse,
      diag := { s.diag with enqSent := s.diag.enqSent + 1, txDrops := s.diag.txDrops + 1 } } := by
  rw [issueEnquiry_eq hpairs, enqueue_of_full (s := { s with enq := some pairs }) hfull]

end

/-- Settles O56: the given list is the list of missing ids, and the Enquiry for it is queued or dropped. -/
theorem gapsAreEnquired : Obligations.GapsAreEnquired := by
  intro s missing pairs hrising hmem hne hpairs
  rw [gapCheck_of_gaps (Ctab.missing_unique hrising hmem) hne]
  exact ⟨issueEnquiry_of_room hpairs, issueEnquiry_of_full hpairs⟩

end Sys2Proof.Machine
end

section
/-! SUPPORT. FATAL (spec/60_exceptions.md R274 to R277): how a CYCLE enters it, and the statements on entering it, on
the events it stops, and on leaving it. -/

namespace Sys2Proof.Machine

variable {s t : State}

/-! ### What leaves the cause of FATAL as it is -/

theorem handleEnquiry_fatalCause (pk : List Recovered) (s : State) :
    (handleEnquiry pk s).fatalCause = s.fatalCause := by
  unfold handleEnquiry
  split
  · rfl
  · exact enqueue_fatalCause _ _

theorem acceptPackets_fatalCause (pk : List Recovered) (s : State) :
    (acceptPackets pk s).fatalCause = s.fatalCause := foldl_fillSlot_fatalCause pk s

theorem gapCheck_fatalCause (s : State) : (gapCheck s).fatalCause = s.fatalCause := by
  rcases gapCheck_cases s with ⟨-, e⟩ | ⟨-, e⟩ <;> rw [e]
  · exact complete_fatalCause s
  · exact enqueue_fatalCause _ _

/-- An effect that reads no byte leaves a running block running (R274). -/
theorem effect_running_of_not_receiving {i : Instr} (hi : ∀ txr rxb, i ≠ .cycle txr true rxb)
    (h : s.fatalCause = none) : (effect i s).fatalCause = none := by
  cases i with
  | cycle txr rxv rxb =>
    obtain rfl : rxv = false := Bool.eq_false_iff.mpr fun hrxv => hi txr rxb (by rw [hrxv])
    exact (keepsReceiveSide_runCycle_without_read txr rxb s).fatalCause.trans h
  | send B =>
    by_cases hB : sendRejected s.params B = true
    · rw [effect_send_of_rejected hB]
      exact h
    · rw [effect_send_of_accepted hB, enqueue_fatalCause]
      exact h
  | reset => rfl
  | nop | encByte | decTriplet | strobeExpand => exact h

/-! ### A FATAL raised in a CYCLE is announced by the last output (R275) -/

/-- If the block is in FATAL, the last output is the notice with the same cause. -/
def FatalAnnounced (s : State) : Prop := ∀ c, s.fatalCause = some c → s.out.getLast? = some (.halted c)

theorem FatalAnnounced.of_running (h : s.fatalCause = none) : FatalAnnounced s := by
  intro c hc
  rw [h] at hc
  cases hc

theorem raiseFatal_fatalAnnounced (c : FatalCause) (s : State) : FatalAnnounced (raiseFatal c s) := by
  intro c' hc
  obtain rfl : c = c' := Option.some.inj hc
  exact List.getLast?_concat

theorem handleData_fatalAnnounced (tp : U16) (pk : List Recovered) (h : s.fatalCause = none) :
    FatalAnnounced (handleData tp pk s) := by
  rcases handleData_cases tp pk s with ⟨-, e⟩ | ⟨-, -, e⟩ | ⟨-, -, -, e⟩ | ⟨-, -, -, e⟩ <;> rw [e]
  · exact .of_running ((acceptPackets_fatalCause pk s).trans h)
  · exact raiseFatal_fatalAnnounced _ s
  · exact raiseFatal_fatalAnnounced _ s
  · exact .of_running ((acceptPackets_fatalCause pk _).trans h)

/-- A FATAL raised by the data ends the event, so the gap check emits nothing after the notice (R239). -/
theorem useFrame_fatalAnnounced (isEnq : Bool) (tp : U16) (pk : List Recovered) (h : s.fatalCause = none) :
    FatalAnnounced (useFrame isEnq tp pk s).1 := by
  have hgap (t : State) (ht : FatalAnnounced t) : FatalAnnounced (if t.fatalCause.isSome then (t, false)
      else if t.xferActive then (gapCheck t, true) else (t, true)).1 := by
    split_ifs with hfatal
    · exact ht
    · exact .of_running ((gapCheck_fatalCause t).trans (Option.not_isSome_iff_eq_none.mp hfatal))
    · exact ht
  cases isEnq with
  | true => rw [useFrame_enquiry]; exact hgap _ (.of_running ((handleEnquiry_fatalCause pk s).trans h))
  | false => rw [useFrame_data]; exact hgap _ (handleData_fatalAnnounced tp pk h)

theorem processFrame_fatalAnnounced (frame : List Nibble) (h : s.fatalCause = none) :
    FatalAnnounced (processFrame frame s).1 := by
  rcases processFrame_cases frame s with ⟨d, c, -, e⟩ | ⟨d, c, -, e⟩ | ⟨d, isEnq, tp, pk, -, e⟩ <;> rw [e]
  · exact raiseFatal_fatalAnnounced c _
  · exact .of_running h
  · exact useFrame_fatalAnnounced isEnq tp pk h

theorem runSync_fatalAnnounced (h : s.fatalCause = none) : FatalAnnounced (runSync s).1 := by
  rcases runSync_cases s with ⟨st, e, -, heq⟩ | ⟨-, -, heq⟩ | ⟨-, -, heq⟩ <;> rw [heq]
  · exact processFrame_fatalAnnounced _ h
  · exact .of_running h
  · exact .of_running h

theorem rxPhase_fatalAnnounced (rxv : Bool) (rxb : Byte) (h : s.fatalCause = none) :
    FatalAnnounced (rxPhase rxv rxb s).1 := by
  unfold rxPhase
  dsimp only
  split
  · exact runSync_fatalAnnounced h
  · exact .of_running h

/-- The timer phase is skipped after a FATAL and raises none (R231, R279). -/
theorem runCycle_fatalAnnounced (txr rxv : Bool) (rxb : Byte) (h : s.fatalCause = none) :
    FatalAnnounced (runCycle txr rxv rxb s) := by
  by_cases hrx : (rxPhase rxv rxb (txPhase txr s)).1.fatalCause = none
  · rw [runCycle_of_running hrx]
    exact .of_running ((keepsReceiveSide_timerPhase _ _).fatalCause.trans hrx)
  · rw [runCycle_of_fatal hrx]
    exact rxPhase_fatalAnnounced rxv rxb ((txPhase_fatalCause txr s).trans h)

/-! ### The statements -/

/-- Settles O10: of the effects on a running block only that of a CYCLE with RXV = 1 enters FATAL, and the notice is
then last; in FATAL every instruction but RESET keeps the state. -/
theorem onlyReceivingEntersFatalAndOnlyResetLeaves : Obligations.OnlyReceivingEntersFatalAndOnlyResetLeaves := by
  refine fun s t i hexec => ⟨fun c hrunning hfatal => ?enters, fun hfatal hchanged => ?leaves⟩
  case enters =>
    rw [exec_of_running i hrunning] at hexec
    obtain rfl : effect i s = t := Host.Outcome.next.inj hexec
    by_cases hi : ∃ txr rxb, i = .cycle txr true rxb
    · obtain ⟨txr, rxb, rfl⟩ := hi
      exact ⟨⟨txr, rxb, rfl⟩, runCycle_fatalAnnounced txr true rxb hrunning c hfatal⟩
    · push Not at hi
      rw [effect_running_of_not_receiving hi hrunning] at hfatal
      cases hfatal
  case leaves =>
    by_contra hi
    rw [exec_of_fatal hi hfatal] at hexec
    obtain rfl : s = t := Host.Outcome.next.inj hexec
    exact hchanged rfl

/-- Settles O9: the step takes the event, which is then an instruction other than RESET or a reserved code, and
neither has an effect. -/
theorem fatalStopsEveryEventButReset : Obligations.FatalStopsEveryEventButReset := by
  refine ⟨fun s i hfatal hi => exec_of_fatal hi hfatal, fun s e rest hlegal hfatal hinbox hreset => ?_⟩
  rcases hdec : decode e with ⟨⟨code⟩⟩ | i
  · rw [step_of_decode_error hlegal hinbox hdec]
    rcases reservedEvent_cases code { s with inbox := rest } with ⟨-, hkept⟩ | ⟨hrunning, -⟩
    · exact hkept
    · exact absurd hrunning hfatal
  · rw [step_of_decode_ok hlegal hinbox hdec]
    exact exec_of_fatal (fun hi => hreset (by rw [hdec, hi])) hfatal

end Sys2Proof.Machine
end
